-- ==== Sys2Proof/Word.lean ====
section
/-! DEFINITION. The words of the interface (00_scope.md R13): a command and a response are 32 bits, an operand and a
symbol are 16, a target field and a fault code are 8. Everything else the block computes with is a mathematical integer
(R14), so it is a Nat or an Int and no bit vector. -/

namespace Sys2Proof

/-- A command or a response (00_scope.md R13). -/
abbrev Word := BitVec 32

/-- An operand, a result value, a symbol code (00_scope.md R13). -/
abbrev Half := BitVec 16

/-- An opcode, a target field, a fault code (30_encoding.md R71, R72). -/
abbrev Byte := BitVec 8

/-- A symbol: an opaque 16-bit code, compared for equality only (30_encoding.md R74, 92_eei_decisions.md D5). -/
abbrev Sym := Half

end Sys2Proof
end

