-- ==== Sys2Proof/Syntax.lean ====
section
/-! DEFINITION. The 36 commands (30_encoding.md R75), one constructor per row of spec/opcode_table.json, with the operands
of their formats (R73): a symbol `s` as its 16-bit code, a signed index `i` as the integer sext_16(V), a target `a` as the
number in the A field (0 to 255), a kind as its two bits (R74, R80, R81). -/

namespace Sys2Proof

/-- A command with its operands (30_encoding.md R75). -/
inductive Instr where
  -- system (46_system.md)
  | stat
  -- alphabet (40_alphabet.md)
  | alphaBegin
  | alphaSym (s : Sym)
  | alphaEnd
  | alphaSize
  | alphaTochar (i : Int)
  | alphaToint (s : Sym)
  | alphaHas (s : Sym)
  -- permutation construction (41_permutation_lookup.md)
  | bldBegin (a : Nat) (kind : BitVec 2)
  | bldNotch (s : Sym)
  | cycOpen
  | cycSym (s : Sym)
  | cycClose
  | bldEnd
  -- permutation lookup (41_permutation_lookup.md)
  | permuteIdx (a : Nat) (i : Int)
  | invertIdx (a : Nat) (i : Int)
  | permuteSym (a : Nat) (s : Sym)
  | invertSym (a : Nat) (s : Sym)
  | deranged (a : Nat)
  -- rotor (42_rotor.md)
  | rotKind (a : Nat)
  | rotGet (a : Nat)
  | rotSetIdx (a : Nat) (i : Int)
  | rotSetSym (a : Nat) (s : Sym)
  | rotFwd (a : Nat) (i : Int)
  | rotBwd (a : Nat) (i : Int)
  | rotAdv (a : Nat)
  | rotAtnotch (a : Nat)
  -- machine (43_machine_config.md, 45_signal_path.md)
  | insBegin
  | insName (a : Nat)
  | insEnd
  | setBegin
  | setSym (s : Sym)
  | setEnd
  | convIdx (i : Int)
  | convSym (s : Sym)
  | slotGet (a : Nat)
deriving DecidableEq, Repr

end Sys2Proof
end

