-- ==== Sys2Proof/WellFormed.lean ====
section
/-! DEFINITION. When a command's operands fit the fields that encode them (30_encoding.md R71, R74): a target is the value
of an 8-bit field, an index the value of a signed 16-bit field. A symbol and a kind fit by their types. -/

namespace Sys2Proof

/-- `a` is a value of the 8-bit field A (30_encoding.md R71, R81). -/
def targetFits (a : Nat) : Bool := a < 256

/-- `i` is a value of sext_16 (00_scope.md R14, 30_encoding.md R74). -/
def indexFits (i : Int) : Bool := -32768 ≤ i && i ≤ 32767

/-- The operands of a command fit their fields. -/
def Instr.wellFormed : Instr → Bool
  | .stat => true
  | .alphaBegin => true
  | .alphaSym _ => true
  | .alphaEnd => true
  | .alphaSize => true
  | .alphaTochar i => indexFits i
  | .alphaToint _ => true
  | .alphaHas _ => true
  | .bldBegin a _ => targetFits a
  | .bldNotch _ => true
  | .cycOpen => true
  | .cycSym _ => true
  | .cycClose => true
  | .bldEnd => true
  | .permuteIdx a i => targetFits a && indexFits i
  | .invertIdx a i => targetFits a && indexFits i
  | .permuteSym a _ => targetFits a
  | .invertSym a _ => targetFits a
  | .deranged a => targetFits a
  | .rotKind a => targetFits a
  | .rotGet a => targetFits a
  | .rotSetIdx a i => targetFits a && indexFits i
  | .rotSetSym a _ => targetFits a
  | .rotFwd a i => targetFits a && indexFits i
  | .rotBwd a i => targetFits a && indexFits i
  | .rotAdv a => targetFits a
  | .rotAtnotch a => targetFits a
  | .insBegin => true
  | .insName a => targetFits a
  | .insEnd => true
  | .setBegin => true
  | .setSym _ => true
  | .setEnd => true
  | .convIdx i => indexFits i
  | .convSym _ => true
  | .slotGet a => targetFits a

end Sys2Proof
end

