-- ==== Sys2Proof/Decode.lean ====
section
/-! DEFINITION. Command words to commands and back (30_encoding.md sections 2 to 5). The decoder is total on every 32-bit word:
it gives one of the 36 commands with its operands, or rejects the word by name (R76, R77). A word is handed over whole: there is no byte
order (20_memory.md R54). -/

namespace Sys2Proof

/-- Why a word is no command. Both make the block fault BadCommand (30_encoding.md R76, R77), in this order (60_exceptions.md R193). -/
inductive Reject where
  /-- `OP` is not in the opcode map (R76). -/
  | undefinedOpcode
  /-- A field the command's format does not use is not 0, or bits 15:2 of `BLD_BEGIN`'s `V` are not (R77). -/
  | unusedFieldNonZero
deriving DecidableEq, Repr

/-- `OP`, bits 31:24 (30_encoding.md R71). -/
def opField (w : Word) : Byte := w.extractLsb 31 24

/-- `A`, bits 23:16 (30_encoding.md R71). -/
def aField (w : Word) : Byte := w.extractLsb 23 16

/-- `V`, bits 15:0 (30_encoding.md R71). -/
def vField (w : Word) : Half := w.extractLsb 15 0

/-- The word `{op, a, v}` (30_encoding.md R71; a response has the same three places, R72). -/
def packWord (op a : Byte) (v : Half) : Word := op ++ a ++ v

/-- sext_16: the field read as a two's-complement integer (00_scope.md R14). -/
def sext16 (v : Half) : Int := v.toInt

/-- The 16-bit field whose sext_16 is `i`, for `i` in `-32768 .. 32767` (00_scope.md R14). -/
def field16 (i : Int) : Half := BitVec.ofInt 16 i

/-- The 8-bit field A that holds the number `a`. -/
def field8 (a : Nat) : Byte := BitVec.ofNat 8 a

-- The seven formats (30_encoding.md R73): which fields must be 0 (R77) and how the others are read (R74).

/-- Format Z: no operand. -/
def formatZ (a : Byte) (v : Half) (i : Instr) : Except Reject Instr :=
  if a = 0 ∧ v = 0 then .ok i else .error .unusedFieldNonZero

/-- Format S: a symbol. -/
def formatS (a : Byte) (v : Half) (mk : Sym → Instr) : Except Reject Instr :=
  if a = 0 then .ok (mk v) else .error .unusedFieldNonZero

/-- Format X: a signed index. -/
def formatX (a : Byte) (v : Half) (mk : Int → Instr) : Except Reject Instr :=
  if a = 0 then .ok (mk (sext16 v)) else .error .unusedFieldNonZero

/-- Format T: a target. -/
def formatT (a : Byte) (v : Half) (mk : Nat → Instr) : Except Reject Instr :=
  if v = 0 then .ok (mk a.toNat) else .error .unusedFieldNonZero

/-- Format TS: a target and a symbol. -/
def formatTS (a : Byte) (v : Half) (mk : Nat → Sym → Instr) : Except Reject Instr :=
  .ok (mk a.toNat v)

/-- Format TX: a target and a signed index. -/
def formatTX (a : Byte) (v : Half) (mk : Nat → Int → Instr) : Except Reject Instr :=
  .ok (mk a.toNat (sext16 v))

/-- Format B: a target and a kind, bits 15:2 of `V` zero. -/
def formatB (a : Byte) (v : Half) (mk : Nat → BitVec 2 → Instr) : Except Reject Instr :=
  if v.extractLsb 15 2 = 0 then .ok (mk a.toNat (v.extractLsb 1 0)) else .error .unusedFieldNonZero

/-- The opcode map (30_encoding.md R75). -/
def decodeFields (op a : Byte) (v : Half) : Except Reject Instr :=
  match op.toNat with
  | 0x01 => formatZ a v .stat
  | 0x10 => formatZ a v .alphaBegin
  | 0x11 => formatS a v .alphaSym
  | 0x12 => formatZ a v .alphaEnd
  | 0x13 => formatZ a v .alphaSize
  | 0x14 => formatX a v .alphaTochar
  | 0x15 => formatS a v .alphaToint
  | 0x16 => formatS a v .alphaHas
  | 0x20 => formatB a v .bldBegin
  | 0x21 => formatS a v .bldNotch
  | 0x22 => formatZ a v .cycOpen
  | 0x23 => formatS a v .cycSym
  | 0x24 => formatZ a v .cycClose
  | 0x25 => formatZ a v .bldEnd
  | 0x30 => formatTX a v .permuteIdx
  | 0x31 => formatTX a v .invertIdx
  | 0x32 => formatTS a v .permuteSym
  | 0x33 => formatTS a v .invertSym
  | 0x34 => formatT a v .deranged
  | 0x40 => formatT a v .rotKind
  | 0x41 => formatT a v .rotGet
  | 0x42 => formatTX a v .rotSetIdx
  | 0x43 => formatTS a v .rotSetSym
  | 0x44 => formatTX a v .rotFwd
  | 0x45 => formatTX a v .rotBwd
  | 0x46 => formatT a v .rotAdv
  | 0x47 => formatT a v .rotAtnotch
  | 0x50 => formatZ a v .insBegin
  | 0x51 => formatT a v .insName
  | 0x52 => formatZ a v .insEnd
  | 0x53 => formatZ a v .setBegin
  | 0x54 => formatS a v .setSym
  | 0x55 => formatZ a v .setEnd
  | 0x56 => formatX a v .convIdx
  | 0x57 => formatS a v .convSym
  | 0x58 => formatT a v .slotGet
  | _ => .error .undefinedOpcode

/-- The command of a word, or why it is none (30_encoding.md R76, R77). -/
def decode (w : Word) : Except Reject Instr := decodeFields (opField w) (aField w) (vField w)

/-- The word of a command, from the opcode map and the formats (30_encoding.md R71, R73, R75). -/
def encode : Instr → Word
  | .stat => packWord 0x01 0 0
  | .alphaBegin => packWord 0x10 0 0
  | .alphaSym s => packWord 0x11 0 s
  | .alphaEnd => packWord 0x12 0 0
  | .alphaSize => packWord 0x13 0 0
  | .alphaTochar i => packWord 0x14 0 (field16 i)
  | .alphaToint s => packWord 0x15 0 s
  | .alphaHas s => packWord 0x16 0 s
  | .bldBegin a kind => packWord 0x20 (field8 a) (0#14 ++ kind)
  | .bldNotch s => packWord 0x21 0 s
  | .cycOpen => packWord 0x22 0 0
  | .cycSym s => packWord 0x23 0 s
  | .cycClose => packWord 0x24 0 0
  | .bldEnd => packWord 0x25 0 0
  | .permuteIdx a i => packWord 0x30 (field8 a) (field16 i)
  | .invertIdx a i => packWord 0x31 (field8 a) (field16 i)
  | .permuteSym a s => packWord 0x32 (field8 a) s
  | .invertSym a s => packWord 0x33 (field8 a) s
  | .deranged a => packWord 0x34 (field8 a) 0
  | .rotKind a => packWord 0x40 (field8 a) 0
  | .rotGet a => packWord 0x41 (field8 a) 0
  | .rotSetIdx a i => packWord 0x42 (field8 a) (field16 i)
  | .rotSetSym a s => packWord 0x43 (field8 a) s
  | .rotFwd a i => packWord 0x44 (field8 a) (field16 i)
  | .rotBwd a i => packWord 0x45 (field8 a) (field16 i)
  | .rotAdv a => packWord 0x46 (field8 a) 0
  | .rotAtnotch a => packWord 0x47 (field8 a) 0
  | .insBegin => packWord 0x50 0 0
  | .insName a => packWord 0x51 (field8 a) 0
  | .insEnd => packWord 0x52 0 0
  | .setBegin => packWord 0x53 0 0
  | .setSym s => packWord 0x54 0 s
  | .setEnd => packWord 0x55 0 0
  | .convIdx i => packWord 0x56 0 (field16 i)
  | .convSym s => packWord 0x57 0 s
  | .slotGet a => packWord 0x58 (field8 a) 0

/-- The 32-bit word given by the low `nbits` bits of `w`, the bits above them 0. -/
def tableWord (nbits w : Nat) : Word := BitVec.ofNat 32 (w % 2 ^ nbits)

/-- The command the decoder reads from a word numbered as spec/opcode_table.json numbers it (bit 0 the least significant), none
where it rejects the word. Every command is one 32-bit word (30_encoding.md R71, R78). -/
def decodeTableWord (nbits w : Nat) : Option Instr :=
  match decode (tableWord nbits w) with
  | .ok i => some i
  | .error _ => none

end Sys2Proof
end

