-- ==== Sys2Proof/Config.lean ====
section
/-! DEFINITION. The five static parameters of a build (00_scope.md R10, R11). They are fixed when the block is built and
no command changes them. The constraints are a proof the parameters carry: a build that breaks them is not a
configuration of the block and cannot be written down (R11, 93_implementation_defined.md U12). The spec leaves no value
of the machine free that a command can observe, so there is no opaque constant here. -/

namespace Sys2Proof

/-- The reading of clause (b) of the stepping rule (00_scope.md R10, 44_stepping_fsm.md R155, R157).
PRESUMED for `historical`: the spec marks that formula as general knowledge (notes/assumptions/13.md). -/
inductive StepBMode where
  /-- R155, the default. -/
  | literal
  /-- R157, the alternative. -/
  | historical
deriving DecidableEq, Repr

/-- The static parameters (00_scope.md R10). `slots` is the spec's `R` (numRotors), `pawls` its `P` (numPawls). -/
structure Config where
  /-- `NMAX`, the capacity of every table. -/
  nmax : Nat
  /-- `CMAX`, the number of catalog entries. -/
  cmax : Nat
  /-- `R`, the slot count. -/
  slots : Nat
  /-- `P`, the count of slots, from the rightmost, eligible to rotate. -/
  pawls : Nat
  /-- `STEP_B_MODE`. -/
  stepB : StepBMode := .literal
  /-- The constraints of R10. -/
  built : (1 ≤ nmax ∧ nmax ≤ 32767) ∧ (1 ≤ cmax ∧ cmax ≤ 255) ∧ slots ≤ cmax ∧ 0 < pawls ∧ pawls ≤ slots := by decide
deriving DecidableEq, Repr

/-- The build that `State.reset` stands for: the example capacities of R10, and the slot and pawl counts of DOC §8's
machine (95_test_vectors.md P1). DESIGN CHOICE (notes/assumptions/2.md): the spec fixes none of the four numbers. -/
def Config.example : Config := { nmax := 32, cmax := 16, slots := 3, pawls := 1 }

end Sys2Proof
end

