-- ==== Sys2Proof/Machine/State.lean ====
section
/-! DEFINITION. The state of the block (10_state.md R20 to R36) as plain data, the machine's stop reasons, and the state after
reset (R42). A table of the spec is a list of (index, element) pairs in one canonical form, as Machine/Ops.lean says (20_memory.md R50;
notes/assumptions/10.md). -/

namespace Sys2Proof.Machine

/-- The twelve named faults of the block (60_exceptions.md R180). They are answers, not stops: see `raise` in Machine/Ops.lean. -/
inductive FaultCode where
  | invalidAlphabet
  | notInAlphabet
  | outOfRange
  | malformedCycle
  | reflectorNotDerangement
  | unknownRotor
  | duplicateRotor
  | wrongSlotCount
  | badSettingLength
  | symbolNotInAlphabet
  | badCommand
  | capacityExceeded
deriving DecidableEq, Repr

/-- The variant of a rotor (10_state.md R26). Kind code 3 is never stored, so it has no constructor. -/
inductive Kind where
  | reflector
  | fixedRotor
  | movingRotor
deriving DecidableEq, Repr

/-- `SEQ.mode`, the open multi-command sequence (10_state.md R33). -/
inductive Mode where
  | idle
  | alpha
  | perm
  | ins
  | set
deriving DecidableEq, Repr

/-- A table memory, addressed by element index (20_memory.md R50): the listed elements, indices strictly rising, none equal to what an
unlisted index reads as. -/
abbrev Table (α : Type) := List (Nat × α)

/-- A permutation's two tables (10_state.md R28, R29). -/
structure Perm where
  /-- `fwd[i]` is where index `i` maps to. -/
  fwd : Table Nat
  /-- `inv[i]` is the index that maps to `i`. -/
  inv : Table Nat
deriving DecidableEq, Repr

/-- The alphabet table `ALPHA` (10_state.md R21 to R23). -/
structure Alphabet where
  /-- `ALPHA.sym[0 .. NMAX-1]`. -/
  sym : Table Sym
  /-- `ALPHA.n`; the `N` of every rule once the alphabet is sealed. -/
  n : Nat
  /-- `ALPHA.sealed`. -/
  isSealed : Bool
deriving DecidableEq, Repr

/-- A catalog entry `CAT[c]` (10_state.md R24 to R28). -/
structure Rotor where
  /-- `CAT[c].valid`: the entry is in the catalog. -/
  valid : Bool
  /-- `CAT[c].kind`. -/
  kind : Kind
  /-- `x[c]`, that is `CAT[c].setting`: the general register `c`. -/
  setting : Nat
  /-- `CAT[c].notch[0 .. NMAX-1]`. -/
  notch : Table Bool
  /-- `CAT[c].fwd` and `CAT[c].inv`. -/
  wiring : Perm
deriving DecidableEq, Repr

/-- The command sequencer and its staging storage `SEQ` (10_state.md R33 to R35). -/
structure Seq where
  /-- `SEQ.mode`. -/
  mode : Mode
  /-- `SEQ.target`: a catalog number, or 0xFF for the plugboard. -/
  target : Nat
  /-- `SEQ.kind`. -/
  kind : Kind
  /-- `SEQ.fwd` and `SEQ.inv`, the permutation under construction. -/
  perm : Perm
  /-- `SEQ.seen`: the indices that have appeared in some group. -/
  seen : Table Bool
  /-- `SEQ.notch`, the notch set under construction. -/
  notch : Table Bool
  /-- `SEQ.in_group`: a group is open. -/
  inGroup : Bool
  /-- `SEQ.glen`, the count of symbols in the open group. -/
  glen : Nat
  /-- `SEQ.first`, the first index of the open group. -/
  first : Nat
  /-- `SEQ.prev`, the latest index of the open group. -/
  prev : Nat
  /-- `SEQ.list[0 .. R-1]`: catalog numbers in mode INS, indices in mode SET. -/
  list : Table Nat
  /-- `SEQ.count`. -/
  count : Nat
deriving DecidableEq, Repr

/-- `FSR`, the fault status register (10_state.md R36). -/
structure Fsr where
  /-- `FSR.any`: a command has faulted since reset. -/
  any : Bool
  /-- `FSR.code`, the code of the first fault since reset. -/
  code : Byte
deriving DecidableEq, Repr

/-- What the host can do to the block (30_encoding.md R70, 70_reset_and_hazards.md R205). The MODEL's type, not the spec's state:
notes/assumptions/3.md, notes/assumptions/5.md. -/
inductive HostEvent where
  /-- A command word presented on the command channel. -/
  | command (w : Word)
  /-- Reset asserted between two commands. -/
  | reset
deriving DecidableEq, Repr

/-- The complete state of the block (10_state.md R20), with three fields of the model's own: the build, and the host's end of the
two channels (notes/assumptions/1.md, 3.md, 4.md). -/
structure State where
  /-- The static parameters (00_scope.md R10); no step changes them. -/
  cfg : Config
  /-- `ALPHA`. -/
  alpha : Alphabet
  /-- `CAT[0 .. CMAX-1]`. -/
  cat : Table Rotor
  /-- `PLUG`. -/
  plug : Perm
  /-- `M.inserted`. -/
  inserted : Bool
  /-- `M.slot[0 .. R-1]`. -/
  slot : Table Nat
  /-- `SEQ`. -/
  seq : Seq
  /-- `FSR`. -/
  fsr : Fsr
  /-- The host's events the block has not taken yet, the next one first. -/
  inbox : List HostEvent
  /-- The responses given, the oldest first. -/
  outbox : List Word
deriving DecidableEq, Repr

/-- The reasons the machine stops with a fault: none. Every fault of the spec is a response after which the block takes the next command
(60_exceptions.md R194, R195), and nothing in the block is stuck (70_reset_and_hazards.md R211, 93_implementation_defined.md part 1), so no step
ends here. Safe: the type is empty, so no claim can rest on a stop (notes/assumptions/15.md). -/
inductive Fault where
deriving DecidableEq, Repr

/-- The reasons the model gives no meaning. -/
inductive Refusal where
  /-- An instruction whose meaning is not written. Raised by no arm of `exec`: every command has its meaning. Safe. -/
  | notModelled (mnemonic : String)
deriving DecidableEq, Repr

/-- What a command or a step ends in. -/
abbrev Result := Host.Outcome State Fault Refusal

/-- The permutation whose tables list nothing: the identity, since an unlisted element of an index table reads as its own index. -/
def Perm.identity : Perm := { fwd := [], inv := [] }

/-- A catalog entry after reset: `valid = 0` (R42). DESIGN CHOICE for the other fields, which R42 leaves unspecified: kind Reflector,
setting 0, no notch, identity wiring (notes/assumptions/7.md). -/
def Rotor.reset : Rotor :=
  { valid := false, kind := .reflector, setting := 0, notch := [], wiring := Perm.identity }

/-- The sequencer after reset: `SEQ.mode = IDLE` (R42). DESIGN CHOICE for the staging, which R42 leaves unspecified: all zero, the
permutation the identity (notes/assumptions/9.md). -/
def Seq.reset : Seq :=
  { mode := .idle, target := 0, kind := .reflector, perm := Perm.identity, seen := [], notch := [], inGroup := false,
    glen := 0, first := 0, prev := 0, list := [], count := 0 }

/-- The block of build `cfg` right after reset (10_state.md R42, 70_reset_and_hazards.md R205): no alphabet, empty catalog, identity
plugboard, nothing inserted, IDLE, FSR 0. DESIGN CHOICE for what R42 leaves unspecified: `ALPHA.sym` and `M.slot` all zero
(notes/assumptions/6.md, 8.md), and for the model's two channels: empty (3.md, 4.md). -/
def State.resetWith (cfg : Config) : State :=
  { cfg := cfg
    alpha := { sym := [], n := 0, isSealed := false }
    cat := []
    plug := Perm.identity
    inserted := false
    slot := []
    seq := Seq.reset
    fsr := { any := false, code := 0 }
    inbox := []
    outbox := [] }

/-- The machine right after reset, for the build `Config.example` (DESIGN CHOICE, notes/assumptions/2.md). -/
def State.reset : State := State.resetWith Config.example

end Sys2Proof.Machine
end

