-- ==== Sys2Proof/Machine/Flags.lean ====
section
/-! DEFINITION. The one stored flag register, FSR (10_state.md R36), and the numbers of the faults (60_exceptions.md R180). No other flag
is stored (10_state.md R37): `atNotch` and `derangement` are computed when needed, in Machine/Operands.lean. -/

namespace Sys2Proof.Machine

/-- The code of a fault (60_exceptions.md R180). -/
def FaultCode.code : FaultCode → Byte
  | .invalidAlphabet => 0x01
  | .notInAlphabet => 0x02
  | .outOfRange => 0x03
  | .malformedCycle => 0x04
  | .reflectorNotDerangement => 0x05
  | .unknownRotor => 0x06
  | .duplicateRotor => 0x07
  | .wrongSlotCount => 0x08
  | .badSettingLength => 0x09
  | .symbolNotInAlphabet => 0x0A
  | .badCommand => 0x0B
  | .capacityExceeded => 0x0C

/-- FSR after a command faults with `f`: the first fault since reset is kept (10_state.md R36, 60_exceptions.md R194). -/
def Fsr.record (r : Fsr) (f : FaultCode) : Fsr :=
  if r.any then r else { any := true, code := f.code }

/-- The value STAT answers: bit 8 is `FSR.any`, bits 7:0 `FSR.code`, bits 15:9 zero (46_system.md R170). -/
def Fsr.statValue (r : Fsr) : Half := 0#7 ++ BitVec.ofBool r.any ++ r.code

/-- The response to a command that ends with `respond v`: status OK, value `v` (30_encoding.md R72). -/
def okWord (v : Half) : Word := packWord 0 0 v

/-- The response to a command that raises `f`: the fault's code, value 0 (30_encoding.md R72, 60_exceptions.md R194). -/
def faultWord (f : FaultCode) : Word := packWord f.code 0 0

end Sys2Proof.Machine
end

