-- ==== Sys2Proof/Machine/Ops.lean ====
section
/-! DEFINITION. The named operations over the tables and the state: MemRead and MemWrite (00_scope.md R16, 20_memory.md R50), one update of each part of
the state, the two ways a command ends (`respond`, `raise`: 00_scope.md R16, 60_exceptions.md R194), the host's side of the channels and reset
(30_encoding.md R70, 70_reset_and_hazards.md R205). There is no return from a fault (60_exceptions.md R195). -/

namespace Sys2Proof.Machine

-- Tables. `d i` is what an unlisted element `i` reads as.

/-- The listed element at index `i`, if there is one. -/
def Table.find {α : Type} : Table α → Nat → Option α
  | [], _ => none
  | (j, v) :: t, i => if i = j then some v else Table.find t i

/-- MemRead (00_scope.md R16): element `i` of the table. -/
def Table.read {α : Type} (d : Nat → α) (t : Table α) (i : Nat) : α := (Table.find t i).getD (d i)

/-- List the element `v` at index `i`, in its place in the rising order. -/
def Table.put {α : Type} : Table α → Nat → α → Table α
  | [], i, v => [(i, v)]
  | (j, u) :: t, i, v =>
    if i < j then (i, v) :: (j, u) :: t else if i = j then (i, v) :: t else (j, u) :: Table.put t i v

/-- MemWrite (00_scope.md R16): replace element `i` by `v`. The value an unlisted element reads as is not listed. -/
def Table.write {α : Type} [DecidableEq α] (d : Nat → α) (t : Table α) (i : Nat) (v : α) : Table α :=
  if v = d i then t.filter (fun c => c.1 ≠ i) else Table.put t i v

/-- `for i in 0 .. n-1: MemWrite(dst, i, MemRead(src, i))` (41_permutation_lookup.md R119, 43_machine_config.md R145). -/
def Table.copyTo {α : Type} [DecidableEq α] (d : Nat → α) (src : Table α) : Nat → Table α → Table α
  | 0, dst => dst
  | n + 1, dst => Table.write d (Table.copyTo d src n dst) n (Table.read d src n)

/-- The canonical form: indices strictly rising, no element equal to what an unlisted index reads as (notes/assumptions/10.md). -/
abbrev Table.wf {α : Type} [DecidableEq α] (d : Nat → α) (t : Table α) : Prop :=
  t.Pairwise (fun a b => a.1 < b.1) ∧ ∀ c ∈ t, c.2 ≠ d c.1

/-- Every listed index is below the table's element count (20_memory.md R50). -/
abbrev Table.within {α : Type} (n : Nat) (t : Table α) : Prop := ∀ c ∈ t, c.1 < n

/-- An unlisted element of `ALPHA.sym` (DESIGN CHOICE at reset, notes/assumptions/6.md). -/
abbrev symD : Nat → Sym := fun _ => 0

/-- An unlisted element of an index table reads as its own index: PLUG's reset contents (10_state.md R42) and what BLD_BEGIN writes to the staging
(41_permutation_lookup.md R114). -/
abbrev idxD : Nat → Nat := fun i => i

/-- An unlisted bit of a notch or seen table (41_permutation_lookup.md R114; at reset notes/assumptions/7.md, 9.md). -/
abbrev bitD : Nat → Bool := fun _ => false

/-- An unlisted element of `M.slot` or `SEQ.list` (DESIGN CHOICE at reset, notes/assumptions/8.md, 9.md). -/
abbrev numD : Nat → Nat := fun _ => 0

/-- An unlisted catalog entry: as reset leaves it (10_state.md R42). -/
abbrev rotorD : Nat → Rotor := fun _ => Rotor.reset

/-- `fwd[i]` of a permutation. -/
abbrev Perm.fwdAt (p : Perm) (i : Nat) : Nat := Table.read idxD p.fwd i

/-- `inv[i]` of a permutation. -/
abbrev Perm.invAt (p : Perm) (i : Nat) : Nat := Table.read idxD p.inv i

/-- `ALPHA.sym[i]`. -/
abbrev Alphabet.symAt (a : Alphabet) (i : Nat) : Sym := Table.read symD a.sym i

/-- `CAT[c].notch[i]`. -/
abbrev Rotor.notchAt (r : Rotor) (i : Nat) : Bool := Table.read bitD r.notch i

/-- `SEQ.seen[i]`. -/
abbrev Seq.seenAt (q : Seq) (i : Nat) : Bool := Table.read bitD q.seen i

/-- `SEQ.notch[i]`. -/
abbrev Seq.notchAt (q : Seq) (i : Nat) : Bool := Table.read bitD q.notch i

/-- `SEQ.list[j]`. -/
abbrev Seq.listAt (q : Seq) (j : Nat) : Nat := Table.read numD q.list j

/-- `CAT[c]`, with the general register `x[c]` as its `setting`. -/
abbrev State.rotor (s : State) (c : Nat) : Rotor := Table.read rotorD s.cat c

/-- `M.slot[k]`. -/
abbrev State.slotAt (s : State) (k : Nat) : Nat := Table.read numD s.slot k

/-- The tables of a permutation in canonical form. -/
abbrev Perm.wf (p : Perm) : Prop := Table.wf idxD p.fwd ∧ Table.wf idxD p.inv

/-- The tables of a catalog entry in canonical form. -/
abbrev Rotor.wf (r : Rotor) : Prop := Table.wf bitD r.notch ∧ r.wiring.wf

/-- Every table memory of the block is in canonical form (notes/assumptions/10.md). -/
abbrev Memory.wf (s : State) : Prop :=
  Table.wf symD s.alpha.sym ∧ Table.wf rotorD s.cat ∧ (∀ c ∈ s.cat, c.2.wf) ∧ s.plug.wf ∧ Table.wf numD s.slot ∧
    s.seq.perm.wf ∧ Table.wf bitD s.seq.seen ∧ Table.wf bitD s.seq.notch ∧ Table.wf numD s.seq.list

-- One update of each part of the state.

/-- Replace `ALPHA`. -/
def State.withAlpha (s : State) (a : Alphabet) : State := { s with alpha := a }

/-- Replace `CAT[c]` (and with it `x[c]`). -/
def State.withRotor (s : State) (c : Nat) (r : Rotor) : State := { s with cat := Table.write rotorD s.cat c r }

/-- Replace the whole catalog. -/
def State.withCat (s : State) (t : Table Rotor) : State := { s with cat := t }

/-- Replace `PLUG`. -/
def State.withPlug (s : State) (p : Perm) : State := { s with plug := p }

/-- Replace `M.slot` and set `M.inserted`. -/
def State.withSlots (s : State) (t : Table Nat) : State := { s with slot := t, inserted := true }

/-- Replace `SEQ`. -/
def State.withSeq (s : State) (q : Seq) : State := { s with seq := q }

/-- `mode <- m` (00_scope.md R16). -/
def State.withMode (s : State) (m : Mode) : State := { s with seq := { s.seq with mode := m } }

/-- Replace what the host has yet to send. -/
def State.withInbox (s : State) (es : List HostEvent) : State := { s with inbox := es }

/-- `x[c] <- v` (00_scope.md R16, 10_state.md R24): the setting of `CAT[c]`, its other fields kept. -/
def State.withSetting (s : State) (c v : Nat) : State := s.withRotor c { s.rotor c with setting := v }

-- The two ways a command ends.

/-- Give the response word `w` (30_encoding.md R70). -/
def State.reply (s : State) (w : Word) : State := { s with outbox := s.outbox ++ [w] }

/-- The state after a command raises `f` in state `s` (60_exceptions.md R194): FSR keeps the first fault, an open alphabet sequence clears
`ALPHA.n`, any open sequence is abandoned, the response carries the code; nothing else changes. -/
def State.takeFault (s : State) (f : FaultCode) : State :=
  { s with
    fsr := s.fsr.record f
    alpha := if s.seq.mode = .alpha then { s.alpha with n := 0 } else s.alpha
    seq := { s.seq with mode := .idle }
    outbox := s.outbox ++ [faultWord f] }

/-- `respond v` (00_scope.md R16): the command ends with status OK and the value `v`, its writes being those of `s`. -/
def respond (v : Half) (s : State) : Result := .next (s.reply (okWord v))

/-- `raise f` (00_scope.md R16, 60_exceptions.md R194): `s` is the state the command started in, so none of its writes takes effect. -/
def raise (f : FaultCode) (s : State) : Result := .next (s.takeFault f)

/-- A word that is no command faults BadCommand, whichever way the decoder rejects it (30_encoding.md R76, R77). -/
def rejectCommand (r : Reject) (s : State) : Result :=
  match r with
  | .undefinedOpcode => raise .badCommand s
  | .unusedFieldNonZero => raise .badCommand s

-- The host's side.

/-- The next event of the host, and the state without it (30_encoding.md R70); none when the host has sent nothing. -/
def State.nextEvent (s : State) : Option (HostEvent × State) :=
  match s.inbox with
  | [] => none
  | e :: es => some (e, s.withInbox es)

/-- Reset asserted between commands (70_reset_and_hazards.md R205, R206): every piece of state takes its reset value, the parameters stay; the host keeps
what it has yet to send and the responses it has had (notes/assumptions/5.md). -/
def State.assertReset (s : State) : State :=
  { State.resetWith s.cfg with inbox := s.inbox, outbox := s.outbox }

end Sys2Proof.Machine
end

