-- ==== Sys2Proof/Machine/Operands.lean ====
section
/-! DEFINITION. What the commands compute with: the floored modulus (00_scope.md R15), the alphabet's search (40_alphabet.md R100), kinds and targets
(30_encoding.md R80, 41_permutation_lookup.md R126), permutation lookup and derangement (R111, R112), the contact shift and the notch test
(42_rotor.md R130, R131), result values (30_encoding.md R74), and when a command is legal (R84). -/

namespace Sys2Proof.Machine

/-- `a mod n`, the floored modulus, for `n >= 1` (00_scope.md R15). Lean's `%` on Int is that modulus for a positive divisor. -/
def modN (a : Int) (n : Nat) : Nat := (a % (n : Int)).toNat

/-- A result index, count or catalog number as a response value: zext_16 of a number below 2^16 (30_encoding.md R74). -/
def valOfNat (n : Nat) : Half := BitVec.ofNat 16 n

/-- A Boolean result: 1 for true, 0 for false (30_encoding.md R74). -/
def valOfBool (b : Bool) : Half := if b then 1 else 0

/-- The kind code (30_encoding.md R80). -/
def Kind.code : Kind → Half
  | .reflector => 0
  | .fixedRotor => 1
  | .movingRotor => 2

/-- The kind of a kind field, none for the reserved code 3 (30_encoding.md R80). -/
def Kind.ofField? (k : BitVec 2) : Option Kind :=
  if k = 0 then some .reflector else if k = 1 then some .fixedRotor else if k = 2 then some .movingRotor else none

/-- The target value that names the plugboard (30_encoding.md R81). -/
def plugTarget : Nat := 0xFF

/-- The reserved characters of the configuration grammar (40_alphabet.md R102). The three numbers are ASCII codes
(notes/assumptions/14.md). -/
def isReservedSym (s : Sym) : Bool := s == 0x0028 || s == 0x0029 || s == 0x002A

-- The alphabet (40_alphabet.md R100).

/-- `toInt?(s)`: the index below `ALPHA.n` whose symbol is `s`. -/
def Alphabet.toInt? (a : Alphabet) (s : Sym) : Option Nat := (List.range a.n).find? (fun i => a.symAt i == s)

/-- `contains(s)`. -/
def Alphabet.contains (a : Alphabet) (s : Sym) : Bool := (a.toInt? s).isSome

/-- `toChar(i)` of an index in range. -/
def Alphabet.toChar (a : Alphabet) (i : Nat) : Sym := a.symAt i

-- Permutations (41_permutation_lookup.md R111, R112, R126).

/-- `permute(T, x)`. -/
def Perm.permute (p : Perm) (n : Nat) (x : Int) : Nat := p.fwdAt (modN x n)

/-- `invert(T, x)`. -/
def Perm.invert (p : Perm) (n : Nat) (x : Int) : Nat := p.invAt (modN x n)

/-- `derangement(T)`. -/
def Perm.derangement (p : Perm) (n : Nat) : Bool := (List.range n).all (fun i => p.fwdAt i != i)

/-- `rot(A)`: the entry exists and is defined. -/
def State.isRotor (s : State) (a : Nat) : Bool := a < s.cfg.cmax && (s.rotor a).valid

/-- `tgt(A)`: the permutation a target names, none where the rule raises UnknownRotor. -/
def State.target? (s : State) (a : Nat) : Option Perm :=
  if a = plugTarget then some s.plug else if s.isRotor a then some (s.rotor a).wiring else none

-- Rotors (42_rotor.md R130 to R132).

/-- `convertForward(c, i)`. -/
def Rotor.convertForward (r : Rotor) (n : Nat) (i : Int) : Nat :=
  modN ((r.wiring.permute n (i + r.setting) : Int) - r.setting) n

/-- `convertBackward(c, i)`. -/
def Rotor.convertBackward (r : Rotor) (n : Nat) (i : Int) : Nat :=
  modN ((r.wiring.invert n (i + r.setting) : Int) - r.setting) n

/-- `atNotch(c)`. -/
def Rotor.atNotch (r : Rotor) : Bool := r.kind == .movingRotor && r.notchAt r.setting

/-- The entry after `advance(c)`. -/
def Rotor.advance (r : Rotor) (n : Nat) : Rotor :=
  if r.kind = .movingRotor then { r with setting := (r.setting + 1) % n } else r

-- Which command is legal when (30_encoding.md R84).

/-- `SEQ.mode = IDLE` and `ALPHA.sealed = 1`: where the queries, the rotor commands, BLD_BEGIN and INS_BEGIN are legal. -/
def State.ready (s : State) : Bool := s.seq.mode == .idle && s.alpha.isSealed

/-- `ready` and `M.inserted = 1`: where SET_BEGIN, SLOT_GET, CONV_IDX and CONV_SYM are legal. -/
def State.readyInserted (s : State) : Bool := s.ready && s.inserted

/-- The sequence `m` is open. -/
def State.inMode (s : State) (m : Mode) : Bool := s.seq.mode == m

end Sys2Proof.Machine
end

