-- ==== Sys2Proof/Machine/Alphabet.lean ====
section
/-! DEFINITION. The alphabet commands (40_alphabet.md). Each meaning makes its checks in the order of 60_exceptions.md R193: legality (30_encoding.md R84), then its
own rule's. -/

namespace Sys2Proof.Machine

/-- ALPHA_BEGIN (40_alphabet.md R101). -/
def execAlphaBegin (s : State) : Result :=
  if ¬(s.inMode .idle ∧ ¬s.alpha.isSealed) then raise .badCommand s
  else respond 0 ((s.withAlpha { s.alpha with n := 0 }).withMode .alpha)

/-- ALPHA_SYM (40_alphabet.md R102): reserved code, duplicate, capacity, in that order. -/
def execAlphaSym (c : Sym) (s : State) : Result :=
  if ¬s.inMode .alpha then raise .badCommand s
  else if isReservedSym c then raise .invalidAlphabet s
  else if s.alpha.contains c then raise .invalidAlphabet s
  else if s.alpha.n = s.cfg.nmax then raise .capacityExceeded s
  else respond 0 (s.withAlpha { s.alpha with sym := Table.write symD s.alpha.sym s.alpha.n c, n := s.alpha.n + 1 })

/-- ALPHA_END (40_alphabet.md R103). -/
def execAlphaEnd (s : State) : Result :=
  if ¬s.inMode .alpha then raise .badCommand s
  else if s.alpha.n = 0 then raise .invalidAlphabet s
  else respond 0 ((s.withAlpha { s.alpha with isSealed := true }).withMode .idle)

/-- ALPHA_SIZE (40_alphabet.md R104). -/
def execAlphaSize (s : State) : Result :=
  if ¬s.ready then raise .badCommand s
  else respond (valOfNat s.alpha.n) s

/-- ALPHA_TOCHAR (40_alphabet.md R105): no reduction modulo N. -/
def execAlphaTochar (i : Int) (s : State) : Result :=
  if ¬s.ready then raise .badCommand s
  else if i < 0 ∨ (s.alpha.n : Int) ≤ i then raise .outOfRange s
  else respond (s.alpha.toChar i.toNat) s

/-- ALPHA_TOINT (40_alphabet.md R106). -/
def execAlphaToint (c : Sym) (s : State) : Result :=
  if ¬s.ready then raise .badCommand s
  else match s.alpha.toInt? c with
    | none => raise .notInAlphabet s
    | some i => respond (valOfNat i) s

/-- ALPHA_HAS (40_alphabet.md R107): an absent symbol is an answer, not a fault. -/
def execAlphaHas (c : Sym) (s : State) : Result :=
  if ¬s.ready then raise .badCommand s
  else respond (valOfBool (s.alpha.contains c)) s

end Sys2Proof.Machine
end

