-- ==== Sys2Proof/Machine/Insertion.lean ====
section
/-! DEFINITION. The machine configuration commands: insertion, settings, slot read (43_machine_config.md). -/

namespace Sys2Proof.Machine

/-- INS_BEGIN (43_machine_config.md R143). -/
def execInsBegin (s : State) : Result :=
  if ¬s.ready then raise .badCommand s
  else respond 0 (s.withSeq { s.seq with count := 0, mode := .ins })

/-- `exists j < SEQ.count with SEQ.list[j] = A` (43_machine_config.md R144). -/
def Seq.lists (q : Seq) (a : Nat) : Bool := (List.range q.count).any (fun j => q.listAt j == a)

/-- `SEQ.list[SEQ.count] <- v ; SEQ.count <- SEQ.count + 1` (43_machine_config.md R144, R147). -/
def Seq.push (q : Seq) (v : Nat) : Seq := { q with list := Table.write numD q.list q.count v, count := q.count + 1 }

/-- INS_NAME (43_machine_config.md R144): too many, unknown, repeated, in that order. -/
def execInsName (a : Nat) (s : State) : Result :=
  if ¬s.inMode .ins then raise .badCommand s
  else if s.seq.count = s.cfg.slots then raise .wrongSlotCount s
  else if ¬s.isRotor a then raise .unknownRotor s
  else if s.seq.lists a then raise .duplicateRotor s
  else respond 0 (s.withSeq (s.seq.push a))

/-- INS_END (43_machine_config.md R145): too few, then the slot-0 candidate's derangement whatever its kind; all slots in one step. -/
def execInsEnd (s : State) : Result :=
  if ¬s.inMode .ins then raise .badCommand s
  else if s.seq.count < s.cfg.slots then raise .wrongSlotCount s
  else if ¬(s.rotor (s.seq.listAt 0)).wiring.derangement s.alpha.n then raise .reflectorNotDerangement s
  else respond 0 ((s.withSlots (Table.copyTo numD s.seq.list s.cfg.slots s.slot)).withMode .idle)

/-- SET_BEGIN (43_machine_config.md R146). -/
def execSetBegin (s : State) : Result :=
  if ¬s.readyInserted then raise .badCommand s
  else respond 0 (s.withSeq { s.seq with count := 0, mode := .set })

/-- SET_SYM (43_machine_config.md R147): too many, absent symbol, Reflector and non-zero, in that order. -/
def execSetSym (c : Sym) (s : State) : Result :=
  if ¬s.inMode .set then raise .badCommand s
  else if s.seq.count = s.cfg.slots - 1 then raise .badSettingLength s
  else match s.alpha.toInt? c with
    | none => raise .notInAlphabet s
    | some v =>
      if (s.rotor (s.slotAt (s.seq.count + 1))).kind = .reflector ∧ v ≠ 0 then raise .outOfRange s
      else respond 0 (s.withSeq (s.seq.push v))

/-- `for j in 0 .. m-1: x[M.slot[j + 1]] <- SEQ.list[j]` (43_machine_config.md R148). -/
def State.setSlots (s : State) : Nat → State
  | 0 => s
  | m + 1 => (s.setSlots m).withSetting (s.slotAt (m + 1)) (s.seq.listAt m)

/-- SET_END (43_machine_config.md R148): slots 1 to R-1 together, slot 0 never. -/
def execSetEnd (s : State) : Result :=
  if ¬s.inMode .set then raise .badCommand s
  else if s.seq.count < s.cfg.slots - 1 then raise .badSettingLength s
  else respond 0 ((s.setSlots (s.cfg.slots - 1)).withMode .idle)

/-- SLOT_GET (43_machine_config.md R149). -/
def execSlotGet (a : Nat) (s : State) : Result :=
  if ¬s.readyInserted then raise .badCommand s
  else if s.cfg.slots ≤ a then raise .outOfRange s
  else respond (valOfNat (s.slotAt a)) s

end Sys2Proof.Machine
end

