-- ==== Sys2Proof/Machine/Permutation.lean ====
section
/-! DEFINITION. The permutation construction and lookup commands (41_permutation_lookup.md). -/

namespace Sys2Proof.Machine

/-- The staging BLD_BEGIN leaves (41_permutation_lookup.md R114): the identity, nothing seen, no notch, no group open. -/
def Seq.openPerm (q : Seq) (a : Nat) (kind : Kind) : Seq :=
  { q with
    mode := .perm, target := a, kind := kind, perm := Perm.identity, seen := [], notch := [], inGroup := false, glen := 0 }

/-- BLD_BEGIN (41_permutation_lookup.md R114): bad kind, capacity, already defined, in that order. -/
def execBldBegin (a : Nat) (k : BitVec 2) (s : State) : Result :=
  if ¬s.ready then raise .badCommand s
  else if a = plugTarget then
    if k ≠ 0 then raise .badCommand s
    else respond 0 (s.withSeq (s.seq.openPerm a .reflector))
  else match Kind.ofField? k with
    | none => raise .badCommand s
    | some kind =>
      if s.cfg.cmax ≤ a then raise .capacityExceeded s
      else if (s.rotor a).valid then raise .badCommand s
      else respond 0 (s.withSeq (s.seq.openPerm a kind))

/-- BLD_NOTCH (41_permutation_lookup.md R115): legal outside a group, for a catalog target of kind MovingRotor. -/
def execBldNotch (c : Sym) (s : State) : Result :=
  if ¬(s.inMode .perm ∧ ¬s.seq.inGroup ∧ s.seq.target ≠ plugTarget ∧ s.seq.kind = .movingRotor) then raise .badCommand s
  else match s.alpha.toInt? c with
    | none => raise .notInAlphabet s
    | some i => respond 0 (s.withSeq { s.seq with notch := Table.write bitD s.seq.notch i true })

/-- CYC_OPEN (41_permutation_lookup.md R116): groups do not nest. -/
def execCycOpen (s : State) : Result :=
  if ¬(s.inMode .perm ∧ ¬s.seq.inGroup) then raise .badCommand s
  else respond 0 (s.withSeq { s.seq with inGroup := true, glen := 0 })

/-- The staging after CYC_SYM takes the index `i` (41_permutation_lookup.md R117). -/
def Seq.addToGroup (q : Seq) (i : Nat) : Seq :=
  if q.glen = 0 then
    { q with seen := Table.write bitD q.seen i true, first := i, prev := i, glen := q.glen + 1 }
  else
    { q with
      seen := Table.write bitD q.seen i true
      perm := { fwd := Table.write idxD q.perm.fwd q.prev i, inv := Table.write idxD q.perm.inv i q.prev }
      prev := i
      glen := q.glen + 1 }

/-- CYC_SYM (41_permutation_lookup.md R117): absent symbol, repeated symbol, in that order. -/
def execCycSym (c : Sym) (s : State) : Result :=
  if ¬(s.inMode .perm ∧ s.seq.inGroup) then raise .badCommand s
  else match s.alpha.toInt? c with
    | none => raise .malformedCycle s
    | some i =>
      if s.seq.seenAt i then raise .malformedCycle s
      else respond 0 (s.withSeq (s.seq.addToGroup i))

/-- The staged permutation with the open group closed: the last symbol maps to the first (41_permutation_lookup.md R118). -/
def Seq.closedPerm (q : Seq) : Perm :=
  if 1 ≤ q.glen then
    { fwd := Table.write idxD q.perm.fwd q.prev q.first, inv := Table.write idxD q.perm.inv q.first q.prev }
  else q.perm

/-- CYC_CLOSE (41_permutation_lookup.md R118). -/
def execCycClose (s : State) : Result :=
  if ¬(s.inMode .perm ∧ s.seq.inGroup) then raise .badCommand s
  else respond 0 (s.withSeq { s.seq with perm := s.seq.closedPerm, inGroup := false })

/-- Elements 0 to n-1 of both tables copied from `src` (41_permutation_lookup.md R119). -/
def Perm.copyTo (src : Perm) (n : Nat) (dst : Perm) : Perm :=
  { fwd := Table.copyTo idxD src.fwd n dst.fwd, inv := Table.copyTo idxD src.inv n dst.inv }

/-- The catalog entry `old` once the staging `q` is committed to it (41_permutation_lookup.md R119): setting 0. -/
def Seq.commitTo (q : Seq) (n : Nat) (old : Rotor) : Rotor :=
  { valid := true, kind := q.kind, setting := 0, notch := Table.copyTo bitD q.notch n old.notch,
    wiring := q.perm.copyTo n old.wiring }

/-- BLD_END (41_permutation_lookup.md R119): the target's tables, kind, setting and valid bit in one step. -/
def execBldEnd (s : State) : Result :=
  if ¬(s.inMode .perm ∧ ¬s.seq.inGroup) then raise .badCommand s
  else if s.seq.target ≠ plugTarget ∧ s.seq.kind = .reflector ∧ ¬s.seq.perm.derangement s.alpha.n then
    raise .reflectorNotDerangement s
  else if s.seq.target = plugTarget then
    respond 0 ((s.withPlug (s.seq.perm.copyTo s.alpha.n s.plug)).withMode .idle)
  else
    respond 0 ((s.withRotor s.seq.target (s.seq.commitTo s.alpha.n (s.rotor s.seq.target))).withMode .idle)

/-- PERMUTE_IDX (41_permutation_lookup.md R121): the index is reduced mod N, the rotor's setting plays no part. -/
def execPermuteIdx (a : Nat) (i : Int) (s : State) : Result :=
  if ¬s.ready then raise .badCommand s
  else match s.target? a with
    | none => raise .unknownRotor s
    | some p => respond (valOfNat (p.permute s.alpha.n i)) s

/-- INVERT_IDX (41_permutation_lookup.md R122). -/
def execInvertIdx (a : Nat) (i : Int) (s : State) : Result :=
  if ¬s.ready then raise .badCommand s
  else match s.target? a with
    | none => raise .unknownRotor s
    | some p => respond (valOfNat (p.invert s.alpha.n i)) s

/-- PERMUTE_SYM (41_permutation_lookup.md R123): UnknownRotor before NotInAlphabet. -/
def execPermuteSym (a : Nat) (c : Sym) (s : State) : Result :=
  if ¬s.ready then raise .badCommand s
  else match s.target? a with
    | none => raise .unknownRotor s
    | some p =>
      match s.alpha.toInt? c with
      | none => raise .notInAlphabet s
      | some i => respond (s.alpha.toChar (p.permute s.alpha.n i)) s

/-- INVERT_SYM (41_permutation_lookup.md R124). -/
def execInvertSym (a : Nat) (c : Sym) (s : State) : Result :=
  if ¬s.ready then raise .badCommand s
  else match s.target? a with
    | none => raise .unknownRotor s
    | some p =>
      match s.alpha.toInt? c with
      | none => raise .notInAlphabet s
      | some i => respond (s.alpha.toChar (p.invert s.alpha.n i)) s

/-- DERANGED (41_permutation_lookup.md R125). -/
def execDeranged (a : Nat) (s : State) : Result :=
  if ¬s.ready then raise .badCommand s
  else match s.target? a with
    | none => raise .unknownRotor s
    | some p => respond (valOfBool (p.derangement s.alpha.n)) s

end Sys2Proof.Machine
end

