-- ==== Sys2Proof/Machine/Rotor.lean ====
section
/-! DEFINITION. The rotor commands (42_rotor.md). They address a rotor by catalog number, inserted or not; the plugboard is no rotor. -/

namespace Sys2Proof.Machine

/-- ROT_KIND (42_rotor.md R133). -/
def execRotKind (a : Nat) (s : State) : Result :=
  if ¬s.ready then raise .badCommand s
  else if ¬s.isRotor a then raise .unknownRotor s
  else respond (s.rotor a).kind.code s

/-- ROT_GET (42_rotor.md R134). -/
def execRotGet (a : Nat) (s : State) : Result :=
  if ¬s.ready then raise .badCommand s
  else if ¬s.isRotor a then raise .unknownRotor s
  else respond (valOfNat (s.rotor a).setting) s

/-- ROT_SET_IDX (42_rotor.md R135): range, then Reflector and non-zero; no reduction modulo N. -/
def execRotSetIdx (a : Nat) (v : Int) (s : State) : Result :=
  if ¬s.ready then raise .badCommand s
  else if ¬s.isRotor a then raise .unknownRotor s
  else if v < 0 ∨ (s.alpha.n : Int) ≤ v then raise .outOfRange s
  else if (s.rotor a).kind = .reflector ∧ v ≠ 0 then raise .outOfRange s
  else respond 0 (s.withSetting a v.toNat)

/-- ROT_SET_SYM (42_rotor.md R136). -/
def execRotSetSym (a : Nat) (c : Sym) (s : State) : Result :=
  if ¬s.ready then raise .badCommand s
  else if ¬s.isRotor a then raise .unknownRotor s
  else match s.alpha.toInt? c with
    | none => raise .notInAlphabet s
    | some v =>
      if (s.rotor a).kind = .reflector ∧ v ≠ 0 then raise .outOfRange s
      else respond 0 (s.withSetting a v)

/-- ROT_FWD (42_rotor.md R137). -/
def execRotFwd (a : Nat) (i : Int) (s : State) : Result :=
  if ¬s.ready then raise .badCommand s
  else if ¬s.isRotor a then raise .unknownRotor s
  else respond (valOfNat ((s.rotor a).convertForward s.alpha.n i)) s

/-- ROT_BWD (42_rotor.md R138). -/
def execRotBwd (a : Nat) (i : Int) (s : State) : Result :=
  if ¬s.ready then raise .badCommand s
  else if ¬s.isRotor a then raise .unknownRotor s
  else respond (valOfNat ((s.rotor a).convertBackward s.alpha.n i)) s

/-- ROT_ADV (42_rotor.md R139): the rotor's own advance, which moves no other rotor. -/
def execRotAdv (a : Nat) (s : State) : Result :=
  if ¬s.ready then raise .badCommand s
  else if ¬s.isRotor a then raise .unknownRotor s
  else respond 0 (s.withRotor a ((s.rotor a).advance s.alpha.n))

/-- ROT_ATNOTCH (42_rotor.md R140). -/
def execRotAtnotch (a : Nat) (s : State) : Result :=
  if ¬s.ready then raise .badCommand s
  else if ¬s.isRotor a then raise .unknownRotor s
  else respond (valOfBool (s.rotor a).atNotch) s

end Sys2Proof.Machine
end

