-- ==== Sys2Proof/Machine/Stepping.lean ====
section
/-! DEFINITION. The stepping rule (44_stepping_fsm.md), the first half of every keystroke. -/

namespace Sys2Proof.Machine

/-- The rotor in slot `k`. -/
abbrev State.slotRotor (s : State) (k : Nat) : Rotor := s.rotor (s.slotAt k)

/-- `elig(k)` (44_stepping_fsm.md R153). -/
def eligible (c : Config) (k : Nat) : Bool := c.slots - c.pawls ≤ k && 0 < k

/-- `n[k]`, from the settings as they are (44_stepping_fsm.md R154). -/
def State.notchedAt (s : State) (k : Nat) : Bool := (s.slotRotor k).atNotch

/-- Clause (b): the slot itself is at a notch (44_stepping_fsm.md R155), under HISTORICAL only when the slot to its left is an advancing slot
(R157). -/
def State.ownNotch (s : State) (k : Nat) : Bool :=
  match s.cfg.stepB with
  | .literal => s.notchedAt k
  | .historical => s.notchedAt k && 1 ≤ k - 1 && eligible s.cfg (k - 1)

/-- `adv[k]` (44_stepping_fsm.md R155, R157). -/
def State.advances (s : State) (k : Nat) : Bool :=
  eligible s.cfg k && (k == s.cfg.slots - 1 || s.ownNotch k || (k + 1 ≤ s.cfg.slots - 1 && s.notchedAt (k + 1)))

/-- The catalog once the slots below `m` that advance have done so: every new entry is computed from `s`, the state before the keystroke, so the
order of the writes plays no part (44_stepping_fsm.md R156). -/
def State.advancedCat (s : State) : Nat → Table Rotor
  | 0 => s.cat
  | k + 1 =>
    if s.advances k then Table.write rotorD (s.advancedCat k) (s.slotAt k) ((s.slotRotor k).advance s.alpha.n)
    else s.advancedCat k

/-- `step()`, the batch advance (44_stepping_fsm.md R156). -/
def State.stepRotors (s : State) : State := s.withCat (s.advancedCat s.cfg.slots)

end Sys2Proof.Machine
end

