-- ==== Sys2Proof/Machine/SignalPath.lean ====
section
/-! DEFINITION. The signal path and the keystroke commands (45_signal_path.md). -/

namespace Sys2Proof.Machine

/-- `for k from m-1 down to 0: y <- convertForward(M.slot[k], y)` (45_signal_path.md R160). -/
def State.pathDown (s : State) : Nat → Nat → Nat
  | 0, y => y
  | k + 1, y => s.pathDown k ((s.slotRotor k).convertForward s.alpha.n y)

/-- `for k from 1 up to m: y <- convertBackward(M.slot[k], y)` (45_signal_path.md R160). -/
def State.pathUp (s : State) : Nat → Nat → Nat
  | 0, y => y
  | k + 1, y => (s.slotRotor (k + 1)).convertBackward s.alpha.n (s.pathUp k y)

/-- The two loops alone (45_signal_path.md R160, R165): slot 0 once, going down. -/
def State.core (s : State) (y : Nat) : Nat := s.pathUp (s.cfg.slots - 1) (s.pathDown s.cfg.slots y)

/-- `path(i)` (45_signal_path.md R160): both plugboard passes use the forward table. -/
def State.path (s : State) (i : Int) : Nat :=
  s.plug.permute s.alpha.n (s.core (s.plug.permute s.alpha.n i))

/-- CONV_IDX (45_signal_path.md R161): step, then the path with the settings after it. -/
def execConvIdx (i : Int) (s : State) : Result :=
  if ¬s.readyInserted then raise .badCommand s
  else respond (valOfNat (s.stepRotors.path i)) s.stepRotors

/-- CONV_SYM (45_signal_path.md R162): the symbol is tested before anything moves. -/
def execConvSym (c : Sym) (s : State) : Result :=
  if ¬s.readyInserted then raise .badCommand s
  else match s.alpha.toInt? c with
    | none => raise .symbolNotInAlphabet s
    | some i => respond (s.alpha.toChar (s.stepRotors.path i)) s.stepRotors

end Sys2Proof.Machine
end

