-- ==== Sys2Proof/Machine/System.lean ====
section
/-! DEFINITION. The system command (46_system.md). -/

namespace Sys2Proof.Machine

/-- STAT (46_system.md R170): legal always, in the middle of a sequence too; reads FSR and changes nothing. -/
def execStat (s : State) : Result := respond s.fsr.statValue s

end Sys2Proof.Machine
end

