-- ==== Sys2Proof/Machine/Dispatch.lean ====
section
/-! DEFINITION. The meaning of every command (30_encoding.md R75): one arm per constructor. -/

namespace Sys2Proof.Machine

def exec (i : Instr) (s : State) : Host.Outcome State Fault Refusal :=
  match i with
  | .stat => Sys2Proof.Machine.execStat s
  | .alphaBegin => Sys2Proof.Machine.execAlphaBegin s
  | .alphaSym sym => Sys2Proof.Machine.execAlphaSym sym s
  | .alphaEnd => Sys2Proof.Machine.execAlphaEnd s
  | .alphaSize => Sys2Proof.Machine.execAlphaSize s
  | .alphaTochar idx => Sys2Proof.Machine.execAlphaTochar idx s
  | .alphaToint sym => Sys2Proof.Machine.execAlphaToint sym s
  | .alphaHas sym => Sys2Proof.Machine.execAlphaHas sym s
  | .bldBegin a kind => Sys2Proof.Machine.execBldBegin a kind s
  | .bldNotch sym => Sys2Proof.Machine.execBldNotch sym s
  | .cycOpen => Sys2Proof.Machine.execCycOpen s
  | .cycSym sym => Sys2Proof.Machine.execCycSym sym s
  | .cycClose => Sys2Proof.Machine.execCycClose s
  | .bldEnd => Sys2Proof.Machine.execBldEnd s
  | .permuteIdx a idx => Sys2Proof.Machine.execPermuteIdx a idx s
  | .invertIdx a idx => Sys2Proof.Machine.execInvertIdx a idx s
  | .permuteSym a sym => Sys2Proof.Machine.execPermuteSym a sym s
  | .invertSym a sym => Sys2Proof.Machine.execInvertSym a sym s
  | .deranged a => Sys2Proof.Machine.execDeranged a s
  | .rotKind a => Sys2Proof.Machine.execRotKind a s
  | .rotGet a => Sys2Proof.Machine.execRotGet a s
  | .rotSetIdx a idx => Sys2Proof.Machine.execRotSetIdx a idx s
  | .rotSetSym a sym => Sys2Proof.Machine.execRotSetSym a sym s
  | .rotFwd a idx => Sys2Proof.Machine.execRotFwd a idx s
  | .rotBwd a idx => Sys2Proof.Machine.execRotBwd a idx s
  | .rotAdv a => Sys2Proof.Machine.execRotAdv a s
  | .rotAtnotch a => Sys2Proof.Machine.execRotAtnotch a s
  | .insBegin => Sys2Proof.Machine.execInsBegin s
  | .insName a => Sys2Proof.Machine.execInsName a s
  | .insEnd => Sys2Proof.Machine.execInsEnd s
  | .setBegin => Sys2Proof.Machine.execSetBegin s
  | .setSym sym => Sys2Proof.Machine.execSetSym sym s
  | .setEnd => Sys2Proof.Machine.execSetEnd s
  | .convIdx idx => Sys2Proof.Machine.execConvIdx idx s
  | .convSym sym => Sys2Proof.Machine.execConvSym sym s
  | .slotGet a => Sys2Proof.Machine.execSlotGet a s

end Sys2Proof.Machine
end

