-- ==== Sys2Proof/Machine/Step.lean ====
section
/-! DEFINITION. One step of the machine (30_encoding.md R70): the block takes the host's next event. -/

namespace Sys2Proof.Machine

/-- One step. A command word is decoded and run, and gives its one response (30_encoding.md R70, R76); a reset between commands puts every piece of state
at its reset value (70_reset_and_hazards.md R205); with no event the block holds its state and does nothing (60_exceptions.md R199). -/
def step (s : State) : Host.Outcome State Fault Refusal :=
  match s.nextEvent with
  | none => .next s
  | some (.reset, t) => .next t.assertReset
  | some (.command w, t) =>
    match decode w with
    | .ok i => exec i t
    | .error r => rejectCommand r t

/-- `s` with the command word of `w`'s low `nbits` bits as the host's next event. The block fetches nothing (10_state.md R32): this stands for the host presenting
the word (notes/assumptions/3.md). -/
def State.withFetchWord (s : State) (nbits w : Nat) : State := s.withInbox (.command (tableWord nbits w) :: s.inbox)

end Sys2Proof.Machine
end

