-- ==== Sys2Proof/Safety.lean ====
section
/-! DEFINITION. The words claims are stated in: how a command ends, when it is legal, the spec's predicates said through element reads, the
invariant of the machine, and when two states look the same to the host. Nothing here is called by the machine. -/

namespace Sys2Proof.Machine

-- How a command ends.

/-- Command `i` in state `s` responds OK with value `v`, its writes giving the state `t` (00_scope.md R16). -/
def Answers (i : Instr) (s t : State) (v : Half) : Prop := exec i s = .next (t.reply (okWord v))

/-- Command `i` in state `s` raises `f` (60_exceptions.md R194). -/
def Faults (i : Instr) (s : State) (f : FaultCode) : Prop := exec i s = .next (s.takeFault f)

-- Sequencing (30_encoding.md R84, 60_exceptions.md R193 item 3).

/-- The block is between sequences and the alphabet is sealed. -/
def Ready (s : State) : Prop := s.seq.mode = .idle ∧ s.alpha.isSealed = true

/-- A construction sequence is open, and a group is open in it or not. -/
def InPerm (s : State) (group : Bool) : Prop := s.seq.mode = .perm ∧ s.seq.inGroup = group

/-- Where R84's table (with the conditions of R193 item 3 on an open construction) has the command as legal. -/
def Legal (i : Instr) (s : State) : Prop :=
  match i with
  | .stat => True
  | .alphaBegin => s.seq.mode = .idle ∧ s.alpha.isSealed = false
  | .alphaSym _ => s.seq.mode = .alpha
  | .alphaEnd => s.seq.mode = .alpha
  | .alphaSize => Ready s
  | .alphaTochar _ => Ready s
  | .alphaToint _ => Ready s
  | .alphaHas _ => Ready s
  | .bldBegin _ _ => Ready s
  | .bldNotch _ => InPerm s false ∧ s.seq.target ≠ 0xFF ∧ s.seq.kind = .movingRotor
  | .cycOpen => InPerm s false
  | .cycSym _ => InPerm s true
  | .cycClose => InPerm s true
  | .bldEnd => InPerm s false
  | .permuteIdx _ _ => Ready s
  | .invertIdx _ _ => Ready s
  | .permuteSym _ _ => Ready s
  | .invertSym _ _ => Ready s
  | .deranged _ => Ready s
  | .rotKind _ => Ready s
  | .rotGet _ => Ready s
  | .rotSetIdx _ _ => Ready s
  | .rotSetSym _ _ => Ready s
  | .rotFwd _ _ => Ready s
  | .rotBwd _ _ => Ready s
  | .rotAdv _ => Ready s
  | .rotAtnotch _ => Ready s
  | .insBegin => Ready s
  | .insName _ => s.seq.mode = .ins
  | .insEnd => s.seq.mode = .ins
  | .setBegin => Ready s ∧ s.inserted = true
  | .setSym _ => s.seq.mode = .set
  | .setEnd => s.seq.mode = .set
  | .convIdx _ => Ready s ∧ s.inserted = true
  | .convSym _ => Ready s ∧ s.inserted = true
  | .slotGet _ => Ready s ∧ s.inserted = true

/-- R84's next mode of a legal command that does not fault, from the mode it starts in. -/
def nextMode (i : Instr) (m : Mode) : Mode :=
  match i with
  | .alphaBegin => .alpha
  | .bldBegin _ _ => .perm
  | .insBegin => .ins
  | .setBegin => .set
  | .alphaEnd => .idle
  | .bldEnd => .idle
  | .insEnd => .idle
  | .setEnd => .idle
  | _ => m

-- Encodings.

/-- sext_16 in the spec's own words (00_scope.md R14). -/
def signed16 (v : Half) : Int := if v.toNat < 32768 then v.toNat else (v.toNat : Int) - 65536

/-- The rows of spec/opcode_table.json, each its match and its mask (30_encoding.md R75, R77). -/
def opcodeRows : List (Word × Word) :=
  [(0x01000000, 0xFFFFFFFF), (0x10000000, 0xFFFFFFFF), (0x11000000, 0xFFFF0000), (0x12000000, 0xFFFFFFFF), (0x13000000, 0xFFFFFFFF),
    (0x14000000, 0xFFFF0000), (0x15000000, 0xFFFF0000), (0x16000000, 0xFFFF0000), (0x20000000, 0xFF00FFFC)] ++
  [(0x21000000, 0xFFFF0000), (0x22000000, 0xFFFFFFFF), (0x23000000, 0xFFFF0000), (0x24000000, 0xFFFFFFFF), (0x25000000, 0xFFFFFFFF),
    (0x30000000, 0xFF000000), (0x31000000, 0xFF000000), (0x32000000, 0xFF000000), (0x33000000, 0xFF000000)] ++
  [(0x34000000, 0xFF00FFFF), (0x40000000, 0xFF00FFFF), (0x41000000, 0xFF00FFFF), (0x42000000, 0xFF000000), (0x43000000, 0xFF000000),
    (0x44000000, 0xFF000000), (0x45000000, 0xFF000000), (0x46000000, 0xFF00FFFF), (0x47000000, 0xFF00FFFF)] ++
  [(0x50000000, 0xFFFFFFFF), (0x51000000, 0xFF00FFFF), (0x52000000, 0xFFFFFFFF), (0x53000000, 0xFFFFFFFF), (0x54000000, 0xFFFF0000),
    (0x55000000, 0xFFFFFFFF), (0x56000000, 0xFFFF0000), (0x57000000, 0xFFFF0000), (0x58000000, 0xFF00FFFF)]

-- The spec's predicates, through element reads.

/-- The kind a kind field names (30_encoding.md R80). -/
def KindOf (k : BitVec 2) (kind : Kind) : Prop :=
  (k = 0 ∧ kind = .reflector) ∨ (k = 1 ∧ kind = .fixedRotor) ∨ (k = 2 ∧ kind = .movingRotor)

/-- `k` is `x mod n` (00_scope.md R15). -/
def IsMod (x : Int) (n k : Nat) : Prop := k < n ∧ (n : Int) ∣ x - k

/-- `contains(c)`: some index below `ALPHA.n` has the symbol (40_alphabet.md R100). -/
def HasSym (a : Alphabet) (c : Sym) : Prop := ∃ i < a.n, a.symAt i = c

/-- `i` is the index of symbol `c`: the only one where the symbols are pairwise different, the first where they are not
(40_alphabet.md R100; they are in every state that meets `Inv`). -/
def IsIndexOf (a : Alphabet) (c : Sym) (i : Nat) : Prop := i < a.n ∧ a.symAt i = c ∧ ∀ j < i, a.symAt j ≠ c

/-- One of the three reserved codes (40_alphabet.md R102). -/
def Reserved (c : Sym) : Prop := c = 0x0028 ∨ c = 0x0029 ∨ c = 0x002A

/-- `a` names a defined catalog entry (41_permutation_lookup.md R126, `rot`). -/
def IsRotor (s : State) (a : Nat) : Prop := a < s.cfg.cmax ∧ (s.rotor a).valid = true

/-- The target `a` names the permutation `p` (41_permutation_lookup.md R126, `tgt`). -/
def Names (s : State) (a : Nat) (p : Perm) : Prop := (a = 0xFF ∧ p = s.plug) ∨ (a ≠ 0xFF ∧ IsRotor s a ∧ p = (s.rotor a).wiring)

/-- The tables are a bijection of `[0, n)` and its inverse (10_state.md R38 b). -/
def Perm.BijOn (n : Nat) (p : Perm) : Prop :=
  ∀ i < n, p.fwdAt i < n ∧ p.invAt i < n ∧ p.invAt (p.fwdAt i) = i ∧ p.fwdAt (p.invAt i) = i

/-- No fixed point below `n` (41_permutation_lookup.md R112). -/
def Perm.DerangedOn (n : Nat) (p : Perm) : Prop := ∀ i < n, p.fwdAt i ≠ i

/-- Its own inverse below `n` (45_signal_path.md R164, h1 and h2). -/
def Perm.InvolutionOn (n : Nat) (p : Perm) : Prop := ∀ i < n, p.fwdAt (p.fwdAt i) = i

/-- `elig(k)` (44_stepping_fsm.md R153). -/
def Elig (c : Config) (k : Nat) : Prop := c.slots ≤ k + c.pawls ∧ 0 < k

/-- `n[k]` (44_stepping_fsm.md R154, 42_rotor.md R131). -/
def Notched (s : State) (k : Nat) : Prop :=
  (s.slotRotor k).kind = .movingRotor ∧ (s.slotRotor k).notchAt (s.slotRotor k).setting = true

/-- `adv[k]` of a slot `k < R` (44_stepping_fsm.md R155; R157 under HISTORICAL). -/
def Adv (s : State) (k : Nat) : Prop :=
  Elig s.cfg k ∧
    (k + 1 = s.cfg.slots ∨
      (Notched s k ∧ (s.cfg.stepB = .historical → 2 ≤ k ∧ Elig s.cfg (k - 1))) ∨
      (k + 1 < s.cfg.slots ∧ Notched s (k + 1)))

/-- The slots name pairwise different rotors (10_state.md R31). -/
def SlotsDiffer (s : State) : Prop := ∀ j < s.cfg.slots, ∀ k < s.cfg.slots, s.slotAt j = s.slotAt k → j = k

-- The invariant (10_state.md R38 and what it needs between the commands of an open sequence).

/-- Every table lists indices below its element count only (20_memory.md R50). -/
structure Capacity (s : State) : Prop where
  sym : Table.within s.cfg.nmax s.alpha.sym
  cat : Table.within s.cfg.cmax s.cat
  rotor : ∀ c, Table.within s.cfg.nmax (s.rotor c).notch ∧ Table.within s.cfg.nmax (s.rotor c).wiring.fwd ∧
    Table.within s.cfg.nmax (s.rotor c).wiring.inv
  plug : Table.within s.cfg.nmax s.plug.fwd ∧ Table.within s.cfg.nmax s.plug.inv
  slot : Table.within s.cfg.slots s.slot
  staged : Table.within s.cfg.nmax s.seq.perm.fwd ∧ Table.within s.cfg.nmax s.seq.perm.inv ∧
    Table.within s.cfg.nmax s.seq.seen ∧ Table.within s.cfg.nmax s.seq.notch
  list : Table.within s.cfg.slots s.seq.list

/-- A defined rotor (10_state.md R38 b, c). -/
structure RotorOk (n : Nat) (r : Rotor) : Prop where
  setting : r.setting < n
  wiring : r.wiring.BijOn n
  reflector : r.kind = .reflector → r.setting = 0 ∧ r.wiring.DerangedOn n
  notch : r.kind ≠ .movingRotor → ∀ i < n, r.notchAt i = false

/-- The insertion (10_state.md R31, R38 d). -/
structure InsertionOk (s : State) : Prop where
  valid : ∀ k < s.cfg.slots, IsRotor s (s.slotAt k)
  differ : SlotsDiffer s
  reflector : (s.slotRotor 0).wiring.DerangedOn s.alpha.n

/-- The staging of an open construction: closing the open group, if there is one, gives a bijection that fixes every index not yet seen, and the
target may still be defined (41_permutation_lookup.md R114 to R119). -/
structure StagingOk (s : State) : Prop where
  target : (s.seq.target = 0xFF ∧ s.seq.kind = .reflector) ∨ (s.seq.target < s.cfg.cmax ∧ (s.rotor s.seq.target).valid = false)
  bij : (if s.seq.inGroup then s.seq.closedPerm else s.seq.perm).BijOn s.alpha.n
  unseen : ∀ i < s.alpha.n, s.seq.seenAt i = false → s.seq.perm.fwdAt i = i ∧ s.seq.perm.invAt i = i
  group : s.seq.inGroup = true → 1 ≤ s.seq.glen →
    s.seq.first < s.alpha.n ∧ s.seq.seenAt s.seq.first = true ∧ s.seq.prev < s.alpha.n ∧ s.seq.seenAt s.seq.prev = true
  notch : (s.seq.target = 0xFF ∨ s.seq.kind ≠ .movingRotor) → ∀ i < s.alpha.n, s.seq.notchAt i = false

/-- The list of an open insertion (43_machine_config.md R144). -/
structure InsListOk (s : State) : Prop where
  count : s.seq.count ≤ s.cfg.slots
  valid : ∀ j < s.seq.count, IsRotor s (s.seq.listAt j)
  differ : ∀ i < s.seq.count, ∀ j < s.seq.count, s.seq.listAt i = s.seq.listAt j → i = j

/-- The list of an open setting sequence (43_machine_config.md R147). -/
structure SetListOk (s : State) : Prop where
  inserted : s.inserted = true
  count : s.seq.count ≤ s.cfg.slots - 1
  index : ∀ j < s.seq.count, s.seq.listAt j < s.alpha.n
  reflector : ∀ j < s.seq.count, (s.slotRotor (j + 1)).kind = .reflector → s.seq.listAt j = 0

/-- The invariant of the machine: R38 (a) to (e), what R24 to R36 say of each part, the staging of an open sequence, and the canonical form and
capacity of the tables. -/
structure Inv (s : State) : Prop where
  tables : Memory.wf s
  capacity : Capacity s
  size : s.alpha.n ≤ s.cfg.nmax
  symDiffer : ∀ i < s.alpha.n, ∀ j < s.alpha.n, s.alpha.symAt i = s.alpha.symAt j → i = j
  symFree : ∀ i < s.alpha.n, ¬Reserved (s.alpha.symAt i)
  sealedSize : s.alpha.isSealed = true → 1 ≤ s.alpha.n
  unsealedIdle : s.alpha.isSealed = false → s.seq.mode = .idle → s.alpha.n = 0
  modeSeal : s.seq.mode ≠ .idle → (s.seq.mode = .alpha ↔ s.alpha.isSealed = false)
  plugUnsealed : s.alpha.isSealed = false → ∀ i, s.plug.fwdAt i = i ∧ s.plug.invAt i = i
  plug : s.plug.BijOn s.alpha.n
  rotorSealed : ∀ c, (s.rotor c).valid = true → s.alpha.isSealed = true ∧ c < s.cfg.cmax
  rotors : ∀ c, (s.rotor c).valid = true → RotorOk s.alpha.n (s.rotor c)
  insertedSealed : s.inserted = true → s.alpha.isSealed = true
  insertion : s.inserted = true → InsertionOk s
  staging : s.seq.mode = .perm → StagingOk s
  insList : s.seq.mode = .ins → InsListOk s
  setList : s.seq.mode = .set → SetListOk s
  fsr : (s.fsr.any = false ∧ s.fsr.code = 0) ∨ (s.fsr.any = true ∧ ∃ f : FaultCode, s.fsr.code = f.code)

-- What the host can see.

/-- The two permutations agree below `n`. -/
def Perm.AgreeOn (n : Nat) (p q : Perm) : Prop := ∀ i < n, p.fwdAt i = q.fwdAt i ∧ p.invAt i = q.invAt i

/-- The states agree on everything but what the spec leaves without a value: table elements at and above N (93_implementation_defined.md U2), the tables, kind
and setting of an undefined entry and the slots before the first insertion (U3), and the staging no open sequence will read (U4). -/
structure LooksLike (s t : State) : Prop where
  cfg : s.cfg = t.cfg
  size : s.alpha.n = t.alpha.n
  isSealed : s.alpha.isSealed = t.alpha.isSealed
  sym : ∀ i < s.alpha.n, s.alpha.symAt i = t.alpha.symAt i
  valid : ∀ c, (s.rotor c).valid = (t.rotor c).valid
  rotor : ∀ c, (s.rotor c).valid = true → (s.rotor c).kind = (t.rotor c).kind ∧ (s.rotor c).setting = (t.rotor c).setting ∧
    (∀ i < s.alpha.n, (s.rotor c).notchAt i = (t.rotor c).notchAt i) ∧ Perm.AgreeOn s.alpha.n (s.rotor c).wiring (t.rotor c).wiring
  plug : Perm.AgreeOn s.alpha.n s.plug t.plug
  inserted : s.inserted = t.inserted
  slot : s.inserted = true → ∀ k < s.cfg.slots, s.slotAt k = t.slotAt k
  mode : s.seq.mode = t.seq.mode
  staging : s.seq.mode = .perm → s.seq.target = t.seq.target ∧ s.seq.kind = t.seq.kind ∧ s.seq.inGroup = t.seq.inGroup ∧
    Perm.AgreeOn s.alpha.n s.seq.perm t.seq.perm ∧
    (∀ i < s.alpha.n, s.seq.seenAt i = t.seq.seenAt i ∧ s.seq.notchAt i = t.seq.notchAt i)
  group : s.seq.mode = .perm → s.seq.inGroup = true → s.seq.glen = t.seq.glen ∧
    (1 ≤ s.seq.glen → s.seq.first = t.seq.first ∧ s.seq.prev = t.seq.prev)
  list : s.seq.mode = .ins ∨ s.seq.mode = .set → s.seq.count = t.seq.count ∧ ∀ j < s.seq.count, s.seq.listAt j = t.seq.listAt j
  fsr : s.fsr = t.fsr
  inbox : s.inbox = t.inbox
  outbox : s.outbox = t.outbox

-- Sequences of commands.

/-- The commands `is`, run one after another from `s`, are all answered OK with value 0 and lead to `t`. -/
def AllOk : List Instr → State → State → Prop
  | [], s, t => t = s
  | i :: is, s, t => ∃ u, Answers i s u 0 ∧ AllOk is (u.reply (okWord 0)) t

/-- The commands of one group of cycle notation, the group given by its indices (30_encoding.md R92). -/
def groupCommands (a : Alphabet) (g : List Nat) : List Instr :=
  [.cycOpen] ++ g.map (fun i => .cycSym (a.symAt i)) ++ [.cycClose]

end Sys2Proof.Machine
end

