-- ==== Sys2Proof/Certificates/Slice0/Obligations.lean ====
section
/-! DEFINITION. The statements about the model, each from the numbered rules of the spec. `Answers i s t v` is: command `i` in state `s` responds OK with value
`v`, its writes giving `t`; `Faults i s f` is: it raises `f`, with R194's entry and nothing else (Safety.lean; what the two responses and the fault entry are is
stated here too, in `ResponseHasItsThreeFields` and `FaultChangesNothingElse`; that the fault entry keeps the staging of a sequence is the model's choice,
notes/assumptions/11.md). A statement `t = { s with x := t.x }` says that all of `s` but `x` is unchanged. -/

open Sys2Proof Sys2Proof.Machine

-- Encoding.

/-- 30_encoding.md R71, R73, R74, R75: no bit of an operand is lost between encoder and decoder, for every command. -/
def Obligations.DecodeOfEncodeIsTheCommand : Prop :=
  ∀ i : Instr, i.wellFormed = true → decode (encode i) = .ok i

/-- 30_encoding.md R73, R75, R78: a word that decodes is the encoding of its command, and the command's operands fit their fields. -/
def Obligations.EncodeOfDecodeIsTheWord : Prop :=
  ∀ (w : Word) (i : Instr), decode w = .ok i → i.wellFormed = true ∧ encode i = w

/-- 95_test_vectors.md V-ENC: words written out in the spec, one or more of every format. -/
def Obligations.WordsOfTheSpecDecode : Prop :=
  decode 0x01000000 = .ok .stat ∧ decode 0x01000001 = .error .unusedFieldNonZero ∧
  decode 0x10010000 = .error .unusedFieldNonZero ∧ decode 0x00000000 = .error .undefinedOpcode ∧
  decode 0xFF000000 = .error .undefinedOpcode ∧ decode 0x23000041 = .ok (.cycSym 0x41) ∧
  decode 0x30FFFFFF = .ok (.permuteIdx 255 (-1)) ∧ decode 0x30FF8000 = .ok (.permuteIdx 255 (-32768)) ∧
  decode 0x42030005 = .ok (.rotSetIdx 3 5) ∧ decode 0x20020002 = .ok (.bldBegin 2 2) ∧
  decode 0x20010005 = .error .unusedFieldNonZero ∧ decode 0x20010003 = .ok (.bldBegin 1 3) ∧
  decode 0x5600FFFF = .ok (.convIdx (-1)) ∧ decode 0x58FF0000 = .ok (.slotGet 255) ∧
  decode 0x32FF0055 = .ok (.permuteSym 255 0x55) ∧ decode 0x51020000 = .ok (.insName 2)

/-- 30_encoding.md R75 to R77: the decoder accepts exactly the words that match a row of the opcode table under the row's mask, and says of
every other word which of the two checks it fails. -/
def Obligations.DecoderAcceptsExactlyTheOpcodeTable : Prop :=
  ∀ w : Word,
    ((∃ i, decode w = .ok i) ↔ ∃ r ∈ opcodeRows, w &&& r.2 = r.1) ∧
    (decode w = .error .undefinedOpcode ↔ ∀ r ∈ opcodeRows, opField w ≠ opField r.1) ∧
    (decode w = .error .unusedFieldNonZero ↔ ∃ r ∈ opcodeRows, opField w = opField r.1 ∧ w &&& r.2 ≠ r.1)

-- The step.

/-- 30_encoding.md R70: a step takes the host's next command word and runs exactly the command it encodes, from the state without that word. The inbox is the
model's form of the command channel (notes/assumptions/3.md). -/
def Obligations.StepRunsTheDecodedCommand : Prop :=
  ∀ (s : State) (w : Word) (es : List HostEvent) (i : Instr),
    s.inbox = .command w :: es → decode w = .ok i → step s = exec i { s with inbox := es }

/-- 30_encoding.md R76, R77: every word with an undefined opcode, and every word with a defined one and a non-zero bit the format does not use, faults BadCommand and has no
other effect than a fault's; every other word is a command. -/
def Obligations.WordThatIsNoCommandFaults : Prop :=
  ∀ (s : State) (w : Word) (es : List HostEvent), s.inbox = .command w :: es →
    ((∀ r ∈ opcodeRows, opField w ≠ opField r.1) → step s = .next ({ s with inbox := es }.takeFault .badCommand)) ∧
    ((∃ r ∈ opcodeRows, opField w = opField r.1 ∧ w &&& r.2 ≠ r.1) →
      step s = .next ({ s with inbox := es }.takeFault .badCommand)) ∧
    ((∃ r ∈ opcodeRows, w &&& r.2 = r.1) → ∃ i, decode w = .ok i)

/-- 60_exceptions.md R199, 70_reset_and_hazards.md R212: with nothing from the host the block holds its state. That such a moment is a step is the model's choice
(notes/assumptions/3.md). -/
def Obligations.StepWithoutAnEventHoldsTheState : Prop :=
  ∀ s : State, s.inbox = [] → step s = .next s

/-- 10_state.md R42: the values reset leaves. What R42 calls unspecified is not stated. -/
def Obligations.ResetLeavesTheSpecsValues : Prop :=
  ∀ (cfg : Config) (s : State), s = State.resetWith cfg →
    s.cfg = cfg ∧ s.alpha.n = 0 ∧ s.alpha.isSealed = false ∧ (∀ c, (s.rotor c).valid = false) ∧
    (∀ i < cfg.nmax, s.plug.fwdAt i = i ∧ s.plug.invAt i = i) ∧ s.inserted = false ∧ s.seq.mode = .idle ∧
    s.fsr.any = false ∧ s.fsr.code = 0

/-- 70_reset_and_hazards.md R205, R206: reset asserted between two commands, from any state, leaves R42's values and the static parameters. That reset is an event of the
inbox is the model's form (notes/assumptions/5.md). -/
def Obligations.StepTakesAReset : Prop :=
  ∀ (s : State) (es : List HostEvent), s.inbox = .reset :: es →
    ∃ t, step s = .next t ∧ t.cfg = s.cfg ∧ t.inbox = es ∧ t.outbox = s.outbox ∧
      t.alpha.n = 0 ∧ t.alpha.isSealed = false ∧ (∀ c, (t.rotor c).valid = false) ∧
      (∀ i < s.cfg.nmax, t.plug.fwdAt i = i ∧ t.plug.invAt i = i) ∧ t.inserted = false ∧ t.seq.mode = .idle ∧
      t.fsr.any = false ∧ t.fsr.code = 0

/-- 70_reset_and_hazards.md R211, 60_exceptions.md R195: nothing stops the block; every step, of any state, answers a next state. -/
def Obligations.EveryStepAnswersANextState : Prop :=
  ∀ s : State, ∃ t, step s = .next t

/-- 30_encoding.md R72 (and R70: one response per command): every command, in every state, appends one response word; its bits 23:16 are 0; its status is 0 or one of the
fault codes, and then its value is 0. The host's remaining events and the static parameters are unchanged. -/
def Obligations.ResponseHasItsThreeFields : Prop :=
  ∀ (i : Instr) (s : State), ∃ t w, exec i s = .next t ∧ t.outbox = s.outbox ++ [w] ∧ t.inbox = s.inbox ∧ t.cfg = s.cfg ∧
    aField w = 0 ∧
    ((opField w = 0 ∧ ∃ u v, Answers i s u v ∧ vField w = v) ∨
      (opField w ≠ 0 ∧ vField w = 0 ∧ ∃ f, Faults i s f ∧ opField w = f.code))

-- Faults and sequencing.

/-- 60_exceptions.md R180: the numbers of the faults, and that no response and no reachable FSR holds any other. -/
def Obligations.FaultCodesAreTheTwelve : Prop :=
  (FaultCode.invalidAlphabet.code = 0x01 ∧ FaultCode.notInAlphabet.code = 0x02 ∧ FaultCode.outOfRange.code = 0x03 ∧
    FaultCode.malformedCycle.code = 0x04 ∧ FaultCode.reflectorNotDerangement.code = 0x05 ∧
    FaultCode.unknownRotor.code = 0x06 ∧ FaultCode.duplicateRotor.code = 0x07 ∧ FaultCode.wrongSlotCount.code = 0x08 ∧
    FaultCode.badSettingLength.code = 0x09 ∧ FaultCode.symbolNotInAlphabet.code = 0x0A ∧
    FaultCode.badCommand.code = 0x0B ∧ FaultCode.capacityExceeded.code = 0x0C) ∧
  (∀ (i : Instr) (s t : State) (w : Word), exec i s = .next t → t.outbox = s.outbox ++ [w] → (opField w).toNat ≤ 0x0C) ∧
  (∀ s : State, Inv s → s.fsr.code.toNat ≤ 0x0C)

/-- 60_exceptions.md R194: whenever a command's response carries a non-zero status, the state after is the one before with FSR keeping the first fault, `ALPHA.n` cleared if an
alphabet sequence was open, the sequencer IDLE and the response given; nothing else changes, whatever the command. That the staging fields of SEQ, too, keep their values
is the model's choice (notes/assumptions/11.md): 93_implementation_defined.md U4 leaves those of an abandoned sequence open. -/
def Obligations.FaultChangesNothingElse : Prop :=
  ∀ (i : Instr) (s t : State) (w : Word), exec i s = .next t → t.outbox = s.outbox ++ [w] → opField w ≠ 0 →
    ∃ f : FaultCode, opField w = f.code ∧
      t = { s with
        fsr := if s.fsr.any then s.fsr else { any := true, code := f.code }
        alpha := if s.seq.mode = .alpha then { s.alpha with n := 0 } else s.alpha
        seq := { s.seq with mode := .idle }
        outbox := s.outbox ++ [f.code ++ 0#8 ++ 0#16] }

/-- 30_encoding.md R84: an illegal command faults BadCommand, in every state and for every command; a command answered OK leaves the mode R84 gives; a fault in any mode leaves
IDLE. -/
def Obligations.SequencingIsTheTableOfModes : Prop :=
  (∀ (i : Instr) (s : State), ¬Legal i s → Faults i s .badCommand) ∧
  (∀ (i : Instr) (s t : State) (v : Half), Answers i s t v → Legal i s ∧ t.seq.mode = nextMode i s.seq.mode) ∧
  (∀ (i : Instr) (s t : State) (f : FaultCode), Faults i s f → exec i s = .next t → t.seq.mode = .idle)

/-- 10_state.md R36: FSR is 0 after reset; a command answered OK leaves it; the first fault sets it and later faults leave it; only reset clears it; STAT reads it. -/
def Obligations.FaultRegisterKeepsTheFirstFault : Prop :=
  (∀ cfg : Config, (State.resetWith cfg).fsr = { any := false, code := 0 }) ∧
  (∀ (i : Instr) (s t : State) (w : Word), exec i s = .next t → t.outbox = s.outbox ++ [w] →
    (opField w = 0 → t.fsr = s.fsr) ∧
    (opField w ≠ 0 → s.fsr.any = true → t.fsr = s.fsr) ∧
    (opField w ≠ 0 → s.fsr.any = false → t.fsr = { any := true, code := opField w })) ∧
  (∀ s t : State, step s = .next t → s.fsr.any = true → (∀ es, s.inbox ≠ .reset :: es) → t.fsr = s.fsr) ∧
  (∀ s : State, ∃ v, Answers .stat s s v ∧ v.toNat = (if s.fsr.any then 256 else 0) + s.fsr.code.toNat)

-- The invariant and the rules over all commands.

/-- 10_state.md R42, R38: the state after reset, of every build, meets the invariant. -/
def Obligations.ResetMeetsTheInvariant : Prop :=
  ∀ cfg : Config, Inv (State.resetWith cfg)

/-- 10_state.md R38: every step, from every state that meets it, keeps the invariant: R38 (a) to (e), the staging of an open sequence, the canonical form and the capacity of the
tables. -/
def Obligations.StepKeepsTheInvariant : Prop :=
  ∀ s t : State, Inv s → step s = .next t → Inv t

/-- 00_scope.md R12, 10_state.md R23: once sealed the alphabet is constant under every command, with a size in `1 .. NMAX`. -/
def Obligations.SealedAlphabetIsConstant : Prop :=
  ∀ (i : Instr) (s t : State), Inv s → s.alpha.isSealed = true → exec i s = .next t →
    t.alpha = s.alpha ∧ 1 ≤ s.alpha.n ∧ s.alpha.n ≤ s.cfg.nmax

/-- 10_state.md R25 to R28, R41: of a defined rotor no command changes anything but the setting. -/
def Obligations.DefinedRotorKeepsItsWiring : Prop :=
  ∀ (i : Instr) (s t : State) (c : Nat), Inv s → (s.rotor c).valid = true → exec i s = .next t →
    t.rotor c = { s.rotor c with setting := (t.rotor c).setting }

/-- 20_memory.md R52, 10_state.md R21, R29, R31: the frame of every command, by the part of the state: only the named commands write the symbol table, the plugboard, the slots, the
catalog (wirings, notches and the settings `x[c]`), and the staging. That the staged tables and list (the last four clauses) keep their values over a
fault and over the end of a sequence is the model's choice (notes/assumptions/11.md): 93_implementation_defined.md U4 leaves them open there. -/
def Obligations.OnlyTheNamedCommandsWriteEachTable : Prop :=
  ∀ (i : Instr) (s t : State), exec i s = .next t →
    ((∀ c, i ≠ .alphaSym c) → ∀ j, t.alpha.symAt j = s.alpha.symAt j) ∧
    (i ≠ .alphaEnd → t.alpha.isSealed = s.alpha.isSealed) ∧
    (i ≠ .bldEnd → ∀ j, t.plug.fwdAt j = s.plug.fwdAt j ∧ t.plug.invAt j = s.plug.invAt j) ∧
    (i ≠ .insEnd → t.inserted = s.inserted ∧ ∀ k, t.slotAt k = s.slotAt k) ∧
    ((i ≠ .bldEnd ∧ (∀ a x, i ≠ .rotSetIdx a x) ∧ (∀ a c, i ≠ .rotSetSym a c) ∧ (∀ a, i ≠ .rotAdv a) ∧ i ≠ .setEnd ∧
      (∀ x, i ≠ .convIdx x) ∧ (∀ c, i ≠ .convSym c)) → ∀ c, t.rotor c = s.rotor c) ∧
    ((∀ a k, i ≠ .bldBegin a k) ∧ (∀ c, i ≠ .cycSym c) ∧ i ≠ .cycClose →
      ∀ j, t.seq.perm.fwdAt j = s.seq.perm.fwdAt j ∧ t.seq.perm.invAt j = s.seq.perm.invAt j) ∧
    ((∀ a k, i ≠ .bldBegin a k) ∧ (∀ c, i ≠ .cycSym c) → ∀ j, t.seq.seenAt j = s.seq.seenAt j) ∧
    ((∀ a k, i ≠ .bldBegin a k) ∧ (∀ c, i ≠ .bldNotch c) → ∀ j, t.seq.notchAt j = s.seq.notchAt j) ∧
    ((∀ a, i ≠ .insName a) ∧ (∀ c, i ≠ .setSym c) → ∀ j, t.seq.listAt j = s.seq.listAt j)

-- System (46_system.md).

/-- 46_system.md R170: STAT answers `(FSR.any << 8) | FSR.code` in every state, writes nothing, and is no STAT with a non-zero field. -/
def Obligations.StatAnswersTheFaultRegister : Prop :=
  (∀ s : State, ∃ v, Answers .stat s s v ∧ v.toNat = (if s.fsr.any then 256 else 0) + s.fsr.code.toNat) ∧
  decode 0x01000000 = .ok .stat ∧
  (∀ (a : Byte) (v : Half), (a ≠ 0 ∨ v ≠ 0) → decode (0x01#8 ++ a ++ v) = .error .unusedFieldNonZero)

-- Alphabet (40_alphabet.md).

/-- 40_alphabet.md R101, R103: ALPHA_BEGIN opens the sequence with no symbol; ALPHA_END seals a non-empty alphabet and refuses an empty one. -/
def Obligations.AlphabetOpensAndSeals : Prop :=
  (∀ s : State,
    (s.seq.mode = .idle → s.alpha.isSealed = false →
      Answers .alphaBegin s { s with alpha := { s.alpha with n := 0 }, seq := { s.seq with mode := .alpha } } 0) ∧
    (¬(s.seq.mode = .idle ∧ s.alpha.isSealed = false) → Faults .alphaBegin s .badCommand) ∧
    (s.seq.mode = .alpha → s.alpha.n ≠ 0 →
      Answers .alphaEnd s { s with alpha := { s.alpha with isSealed := true }, seq := { s.seq with mode := .idle } } 0) ∧
    (s.seq.mode = .alpha → s.alpha.n = 0 → Faults .alphaEnd s .invalidAlphabet) ∧
    (s.seq.mode ≠ .alpha → Faults .alphaEnd s .badCommand)) ∧
  decode 0x10000000 = .ok .alphaBegin ∧ decode 0x12000000 = .ok .alphaEnd

/-- 40_alphabet.md R102: the next symbol gets index `ALPHA.n`; a reserved code, a duplicate and a full table fault, in that order, and abandon the sequence. -/
def Obligations.AlphabetTakesTheNextSymbol : Prop :=
  (∀ (s : State) (c : Sym),
    (s.seq.mode ≠ .alpha → Faults (.alphaSym c) s .badCommand) ∧
    (s.seq.mode = .alpha → Reserved c → Faults (.alphaSym c) s .invalidAlphabet) ∧
    (s.seq.mode = .alpha → ¬Reserved c → HasSym s.alpha c → Faults (.alphaSym c) s .invalidAlphabet) ∧
    (s.seq.mode = .alpha → ¬Reserved c → ¬HasSym s.alpha c → s.alpha.n = s.cfg.nmax →
      Faults (.alphaSym c) s .capacityExceeded) ∧
    (s.seq.mode = .alpha → ¬Reserved c → ¬HasSym s.alpha c → s.alpha.n ≠ s.cfg.nmax →
      ∃ t, Answers (.alphaSym c) s t 0 ∧ t = { s with alpha := t.alpha } ∧ t.alpha.isSealed = s.alpha.isSealed ∧
        t.alpha.n = s.alpha.n + 1 ∧ t.alpha.symAt s.alpha.n = c ∧
        ∀ j, j ≠ s.alpha.n → t.alpha.symAt j = s.alpha.symAt j) ∧
    (s.seq.mode = .alpha → ∀ f t, Faults (.alphaSym c) s f → exec (.alphaSym c) s = .next t →
      t.alpha.n = 0 ∧ t.seq.mode = .idle)) ∧
  (∀ c : Sym, decode (0x11#8 ++ 0#8 ++ c) = .ok (.alphaSym c))

/-- 40_alphabet.md R104, R105: ALPHA_SIZE answers N; ALPHA_TOCHAR answers the symbol of an index in `[0, N)` and faults OutOfRange on any other, with no reduction. -/
def Obligations.AlphabetSizeAndSymbolAreRead : Prop :=
  (∀ s : State,
    (Ready s → Answers .alphaSize s s (BitVec.ofNat 16 s.alpha.n)) ∧ (¬Ready s → Faults .alphaSize s .badCommand)) ∧
  (∀ (s : State) (x : Int),
    (Ready s → 0 ≤ x → x < s.alpha.n → Answers (.alphaTochar x) s s (s.alpha.symAt x.toNat)) ∧
    (Ready s → (x < 0 ∨ s.alpha.n ≤ x) → Faults (.alphaTochar x) s .outOfRange) ∧
    (¬Ready s → Faults (.alphaTochar x) s .badCommand)) ∧
  decode 0x13000000 = .ok .alphaSize ∧ (∀ v : Half, decode (0x14#8 ++ 0#8 ++ v) = .ok (.alphaTochar (signed16 v)))

/-- 40_alphabet.md R106, R107: ALPHA_TOINT answers the index of a symbol and faults NotInAlphabet on an absent one; ALPHA_HAS answers 1 or 0. -/
def Obligations.AlphabetIsSearched : Prop :=
  (∀ (s : State) (c : Sym),
    (∀ i, Ready s → IsIndexOf s.alpha c i → Answers (.alphaToint c) s s (BitVec.ofNat 16 i)) ∧
    (Ready s → ¬HasSym s.alpha c → Faults (.alphaToint c) s .notInAlphabet) ∧
    (¬Ready s → Faults (.alphaToint c) s .badCommand) ∧
    (Ready s → HasSym s.alpha c → Answers (.alphaHas c) s s 1) ∧
    (Ready s → ¬HasSym s.alpha c → Answers (.alphaHas c) s s 0) ∧
    (¬Ready s → Faults (.alphaHas c) s .badCommand)) ∧
  (∀ c : Sym, decode (0x15#8 ++ 0#8 ++ c) = .ok (.alphaToint c) ∧ decode (0x16#8 ++ 0#8 ++ c) = .ok (.alphaHas c))

-- Permutation construction (41_permutation_lookup.md).

/-- 41_permutation_lookup.md R114: BLD_BEGIN's faults in order, and the staging it leaves: identity tables, nothing seen, no notch, no group. -/
def Obligations.ConstructionBegins : Prop :=
  (∀ (s : State) (a : Nat) (k : BitVec 2),
    (¬Ready s → Faults (.bldBegin a k) s .badCommand) ∧
    (Ready s → a = 0xFF → k ≠ 0 → Faults (.bldBegin a k) s .badCommand) ∧
    (Ready s → a ≠ 0xFF → k = 3 → Faults (.bldBegin a k) s .badCommand) ∧
    (Ready s → a ≠ 0xFF → k ≠ 3 → s.cfg.cmax ≤ a → Faults (.bldBegin a k) s .capacityExceeded) ∧
    (Ready s → a ≠ 0xFF → k ≠ 3 → a < s.cfg.cmax → (s.rotor a).valid = true → Faults (.bldBegin a k) s .badCommand) ∧
    (Ready s → ((a = 0xFF ∧ k = 0) ∨ (a ≠ 0xFF ∧ k ≠ 3 ∧ a < s.cfg.cmax ∧ (s.rotor a).valid = false)) →
      ∃ t kind, Answers (.bldBegin a k) s t 0 ∧ KindOf k kind ∧ t = { s with seq := t.seq } ∧
        t.seq = { s.seq with mode := .perm, target := a, kind := kind, perm := t.seq.perm, seen := t.seq.seen,
                             notch := t.seq.notch, inGroup := false, glen := 0 } ∧
        ∀ i < s.cfg.nmax, t.seq.perm.fwdAt i = i ∧ t.seq.perm.invAt i = i ∧ t.seq.seenAt i = false ∧
          t.seq.notchAt i = false)) ∧
  (∀ (a : Byte) (k : BitVec 2), decode (0x20#8 ++ a ++ (0#14 ++ k)) = .ok (.bldBegin a.toNat k))

/-- 41_permutation_lookup.md R115: BLD_NOTCH puts the index of its symbol in the staged notch set. -/
def Obligations.NotchIsStaged : Prop :=
  (∀ (s : State) (c : Sym),
    (¬(InPerm s false ∧ s.seq.target ≠ 0xFF ∧ s.seq.kind = .movingRotor) → Faults (.bldNotch c) s .badCommand) ∧
    (InPerm s false → s.seq.target ≠ 0xFF → s.seq.kind = .movingRotor → ¬HasSym s.alpha c →
      Faults (.bldNotch c) s .notInAlphabet) ∧
    (∀ i, InPerm s false → s.seq.target ≠ 0xFF → s.seq.kind = .movingRotor → IsIndexOf s.alpha c i →
      ∃ t, Answers (.bldNotch c) s t 0 ∧ t = { s with seq := { s.seq with notch := t.seq.notch } } ∧
        t.seq.notchAt i = true ∧ ∀ j, j ≠ i → t.seq.notchAt j = s.seq.notchAt j)) ∧
  (∀ c : Sym, decode (0x21#8 ++ 0#8 ++ c) = .ok (.bldNotch c))

/-- 41_permutation_lookup.md R116, R118: CYC_OPEN opens a group; CYC_CLOSE closes it, the last symbol mapping to the first, and an empty group changes no table. -/
def Obligations.GroupOpensAndCloses : Prop :=
  (∀ s : State,
    (InPerm s false → Answers .cycOpen s { s with seq := { s.seq with inGroup := true, glen := 0 } } 0) ∧
    (¬InPerm s false → Faults .cycOpen s .badCommand) ∧
    (InPerm s true → s.seq.glen = 0 → Answers .cycClose s { s with seq := { s.seq with inGroup := false } } 0) ∧
    (InPerm s true → 1 ≤ s.seq.glen →
      ∃ t, Answers .cycClose s t 0 ∧ t = { s with seq := { s.seq with perm := t.seq.perm, inGroup := false } } ∧
        t.seq.perm.fwdAt s.seq.prev = s.seq.first ∧ t.seq.perm.invAt s.seq.first = s.seq.prev ∧
        (∀ j, j ≠ s.seq.prev → t.seq.perm.fwdAt j = s.seq.perm.fwdAt j) ∧
        (∀ j, j ≠ s.seq.first → t.seq.perm.invAt j = s.seq.perm.invAt j)) ∧
    (¬InPerm s true → Faults .cycClose s .badCommand)) ∧
  decode 0x22000000 = .ok .cycOpen ∧ decode 0x24000000 = .ok .cycClose

/-- 41_permutation_lookup.md R117: CYC_SYM takes the next symbol of the open group; an absent and then a repeated symbol fault MalformedCycle. -/
def Obligations.GroupTakesTheNextSymbol : Prop :=
  (∀ (s : State) (c : Sym),
    (¬InPerm s true → Faults (.cycSym c) s .badCommand) ∧
    (InPerm s true → ¬HasSym s.alpha c → Faults (.cycSym c) s .malformedCycle) ∧
    (∀ i, InPerm s true → IsIndexOf s.alpha c i → s.seq.seenAt i = true → Faults (.cycSym c) s .malformedCycle) ∧
    (∀ i, InPerm s true → IsIndexOf s.alpha c i → s.seq.seenAt i = false →
      ∃ t, Answers (.cycSym c) s t 0 ∧
        t = { s with seq := { s.seq with seen := t.seq.seen, perm := t.seq.perm, first := t.seq.first, prev := i,
                                         glen := s.seq.glen + 1 } } ∧
        t.seq.seenAt i = true ∧ (∀ j, j ≠ i → t.seq.seenAt j = s.seq.seenAt j) ∧
        (s.seq.glen = 0 → t.seq.first = i ∧ t.seq.perm = s.seq.perm) ∧
        (s.seq.glen ≠ 0 → t.seq.first = s.seq.first ∧
          t.seq.perm.fwdAt s.seq.prev = i ∧ t.seq.perm.invAt i = s.seq.prev ∧
          (∀ j, j ≠ s.seq.prev → t.seq.perm.fwdAt j = s.seq.perm.fwdAt j) ∧
          (∀ j, j ≠ i → t.seq.perm.invAt j = s.seq.perm.invAt j)))) ∧
  (∀ c : Sym, decode (0x23#8 ++ 0#8 ++ c) = .ok (.cycSym c))

/-- 41_permutation_lookup.md R119: BLD_END commits the staging to the plugboard, or to the catalog entry with setting 0, and refuses a Reflector with a fixed point. That BLD_END
keeps the staging it commits is the model's choice (notes/assumptions/11.md): 93_implementation_defined.md U4 leaves the staging of an ended sequence open. -/
def Obligations.ConstructionCommits : Prop :=
  (∀ s : State,
    (¬InPerm s false → Faults .bldEnd s .badCommand) ∧
    (InPerm s false → s.seq.target ≠ 0xFF → s.seq.kind = .reflector → ¬s.seq.perm.DerangedOn s.alpha.n →
      Faults .bldEnd s .reflectorNotDerangement) ∧
    (InPerm s false → s.seq.target = 0xFF →
      ∃ t, Answers .bldEnd s t 0 ∧ t = { s with plug := t.plug, seq := { s.seq with mode := .idle } } ∧
        (∀ i < s.alpha.n, t.plug.fwdAt i = s.seq.perm.fwdAt i ∧ t.plug.invAt i = s.seq.perm.invAt i) ∧
        ∀ i, s.alpha.n ≤ i → t.plug.fwdAt i = s.plug.fwdAt i ∧ t.plug.invAt i = s.plug.invAt i) ∧
    (InPerm s false → s.seq.target ≠ 0xFF → (s.seq.kind = .reflector → s.seq.perm.DerangedOn s.alpha.n) →
      ∃ t, Answers .bldEnd s t 0 ∧ t = { s with cat := t.cat, seq := { s.seq with mode := .idle } } ∧
        (t.rotor s.seq.target).valid = true ∧ (t.rotor s.seq.target).kind = s.seq.kind ∧
        (t.rotor s.seq.target).setting = 0 ∧
        (∀ i < s.alpha.n, (t.rotor s.seq.target).wiring.fwdAt i = s.seq.perm.fwdAt i ∧
          (t.rotor s.seq.target).wiring.invAt i = s.seq.perm.invAt i ∧
          (t.rotor s.seq.target).notchAt i = s.seq.notchAt i) ∧
        (∀ i, s.alpha.n ≤ i → (t.rotor s.seq.target).wiring.fwdAt i = (s.rotor s.seq.target).wiring.fwdAt i ∧
          (t.rotor s.seq.target).wiring.invAt i = (s.rotor s.seq.target).wiring.invAt i ∧
          (t.rotor s.seq.target).notchAt i = (s.rotor s.seq.target).notchAt i) ∧
        ∀ c, c ≠ s.seq.target → t.rotor c = s.rotor c)) ∧
  decode 0x25000000 = .ok .bldEnd

-- Permutation lookup (41_permutation_lookup.md).

/-- 41_permutation_lookup.md R121, R122: the lookups by index reduce any index mod N and read one element; a target that names nothing faults UnknownRotor. -/
def Obligations.LookupByIndexReducesAndReads : Prop :=
  (∀ (s : State) (a : Nat) (x : Int),
    (∀ p, Ready s → 1 ≤ s.alpha.n → Names s a p → ∃ k, IsMod x s.alpha.n k ∧
      Answers (.permuteIdx a x) s s (BitVec.ofNat 16 (p.fwdAt k)) ∧
      Answers (.invertIdx a x) s s (BitVec.ofNat 16 (p.invAt k))) ∧
    (Ready s → (∀ p, ¬Names s a p) → Faults (.permuteIdx a x) s .unknownRotor ∧ Faults (.invertIdx a x) s .unknownRotor) ∧
    (¬Ready s → Faults (.permuteIdx a x) s .badCommand ∧ Faults (.invertIdx a x) s .badCommand)) ∧
  (∀ (a : Byte) (v : Half), decode (0x30#8 ++ a ++ v) = .ok (.permuteIdx a.toNat (signed16 v)) ∧
    decode (0x31#8 ++ a ++ v) = .ok (.invertIdx a.toNat (signed16 v)))

/-- 41_permutation_lookup.md R123, R124: the lookups by symbol answer the symbol at the element read; UnknownRotor comes before NotInAlphabet. -/
def Obligations.LookupBySymbolAnswersASymbol : Prop :=
  (∀ (s : State) (a : Nat) (c : Sym),
    (∀ p i, Ready s → Names s a p → IsIndexOf s.alpha c i →
      Answers (.permuteSym a c) s s (s.alpha.symAt (p.fwdAt i)) ∧ Answers (.invertSym a c) s s (s.alpha.symAt (p.invAt i))) ∧
    (Ready s → (∀ p, ¬Names s a p) → Faults (.permuteSym a c) s .unknownRotor ∧ Faults (.invertSym a c) s .unknownRotor) ∧
    (∀ p, Ready s → Names s a p → ¬HasSym s.alpha c →
      Faults (.permuteSym a c) s .notInAlphabet ∧ Faults (.invertSym a c) s .notInAlphabet) ∧
    (¬Ready s → Faults (.permuteSym a c) s .badCommand ∧ Faults (.invertSym a c) s .badCommand)) ∧
  (∀ (a : Byte) (c : Sym), decode (0x32#8 ++ a ++ c) = .ok (.permuteSym a.toNat c) ∧
    decode (0x33#8 ++ a ++ c) = .ok (.invertSym a.toNat c))

/-- 41_permutation_lookup.md R125: DERANGED answers 1 when no index below N is a fixed point and 0 when one is. -/
def Obligations.DerangedAnswersTheTest : Prop :=
  (∀ (s : State) (a : Nat),
    (∀ p, Ready s → Names s a p → (∀ i < s.alpha.n, p.fwdAt i ≠ i) → Answers (.deranged a) s s 1) ∧
    (∀ p, Ready s → Names s a p → (∃ i < s.alpha.n, p.fwdAt i = i) → Answers (.deranged a) s s 0) ∧
    (Ready s → (∀ p, ¬Names s a p) → Faults (.deranged a) s .unknownRotor) ∧
    (¬Ready s → Faults (.deranged a) s .badCommand)) ∧
  (∀ a : Byte, decode (0x34#8 ++ a ++ 0#16) = .ok (.deranged a.toNat))

-- Rotors (42_rotor.md).

/-- 42_rotor.md R133, R134, R140 (with R131): ROT_KIND answers the kind code, ROT_GET the setting, ROT_ATNOTCH whether a moving rotor's setting is in its notch set. -/
def Obligations.RotorIsRead : Prop :=
  (∀ (s : State) (a : Nat),
    (Ready s → IsRotor s a → ∃ k : BitVec 2, KindOf k (s.rotor a).kind ∧ Answers (.rotKind a) s s (k.setWidth 16)) ∧
    (Ready s → IsRotor s a → Answers (.rotGet a) s s (BitVec.ofNat 16 (s.rotor a).setting)) ∧
    (Ready s → IsRotor s a → (s.rotor a).kind = .movingRotor → (s.rotor a).notchAt (s.rotor a).setting = true →
      Answers (.rotAtnotch a) s s 1) ∧
    (Ready s → IsRotor s a → ((s.rotor a).kind ≠ .movingRotor ∨ (s.rotor a).notchAt (s.rotor a).setting = false) →
      Answers (.rotAtnotch a) s s 0) ∧
    (Ready s → ¬IsRotor s a →
      Faults (.rotKind a) s .unknownRotor ∧ Faults (.rotGet a) s .unknownRotor ∧ Faults (.rotAtnotch a) s .unknownRotor) ∧
    (¬Ready s →
      Faults (.rotKind a) s .badCommand ∧ Faults (.rotGet a) s .badCommand ∧ Faults (.rotAtnotch a) s .badCommand)) ∧
  (∀ a : Byte, decode (0x40#8 ++ a ++ 0#16) = .ok (.rotKind a.toNat) ∧ decode (0x41#8 ++ a ++ 0#16) = .ok (.rotGet a.toNat) ∧
    decode (0x47#8 ++ a ++ 0#16) = .ok (.rotAtnotch a.toNat))

/-- 42_rotor.md R135: ROT_SET_IDX writes `x[c]` and nothing else; a value out of `[0, N)` and a non-zero value for a Reflector fault OutOfRange. -/
def Obligations.RotorIsSetByIndex : Prop :=
  (∀ (s : State) (a : Nat) (x : Int),
    (Ready s → IsRotor s a → 0 ≤ x → x < s.alpha.n → ((s.rotor a).kind = .reflector → x = 0) →
      ∃ t, Answers (.rotSetIdx a x) s t 0 ∧ t = { s with cat := t.cat } ∧
        t.rotor a = { s.rotor a with setting := x.toNat } ∧ ∀ c, c ≠ a → t.rotor c = s.rotor c) ∧
    (Ready s → IsRotor s a → (x < 0 ∨ s.alpha.n ≤ x) → Faults (.rotSetIdx a x) s .outOfRange) ∧
    (Ready s → IsRotor s a → (s.rotor a).kind = .reflector → x ≠ 0 → Faults (.rotSetIdx a x) s .outOfRange) ∧
    (Ready s → ¬IsRotor s a → Faults (.rotSetIdx a x) s .unknownRotor) ∧
    (¬Ready s → Faults (.rotSetIdx a x) s .badCommand)) ∧
  (∀ (a : Byte) (v : Half), decode (0x42#8 ++ a ++ v) = .ok (.rotSetIdx a.toNat (signed16 v)))

/-- 42_rotor.md R136: ROT_SET_SYM writes the symbol's index to `x[c]` and nothing else; UnknownRotor, NotInAlphabet, OutOfRange in that order. -/
def Obligations.RotorIsSetBySymbol : Prop :=
  (∀ (s : State) (a : Nat) (c : Sym),
    (∀ i, Ready s → IsRotor s a → IsIndexOf s.alpha c i → ((s.rotor a).kind = .reflector → i = 0) →
      ∃ t, Answers (.rotSetSym a c) s t 0 ∧ t = { s with cat := t.cat } ∧
        t.rotor a = { s.rotor a with setting := i } ∧ ∀ b, b ≠ a → t.rotor b = s.rotor b) ∧
    (∀ i, Ready s → IsRotor s a → IsIndexOf s.alpha c i → (s.rotor a).kind = .reflector → i ≠ 0 →
      Faults (.rotSetSym a c) s .outOfRange) ∧
    (Ready s → IsRotor s a → ¬HasSym s.alpha c → Faults (.rotSetSym a c) s .notInAlphabet) ∧
    (Ready s → ¬IsRotor s a → Faults (.rotSetSym a c) s .unknownRotor) ∧
    (¬Ready s → Faults (.rotSetSym a c) s .badCommand)) ∧
  (∀ (a : Byte) (c : Sym), decode (0x43#8 ++ a ++ c) = .ok (.rotSetSym a.toNat c))

/-- 42_rotor.md R137, R138 (with R130): the input shifted by `+x[c]` and reduced, one element read, the result shifted by `-x[c]` and reduced. -/
def Obligations.ContactShiftSurroundsTheWiring : Prop :=
  (∀ (s : State) (a : Nat) (x : Int),
    (Ready s → IsRotor s a → 1 ≤ s.alpha.n → ∃ k, IsMod (x + (s.rotor a).setting) s.alpha.n k ∧
      (∃ m, IsMod (((s.rotor a).wiring.fwdAt k : Int) - (s.rotor a).setting) s.alpha.n m ∧
        Answers (.rotFwd a x) s s (BitVec.ofNat 16 m)) ∧
      (∃ m, IsMod (((s.rotor a).wiring.invAt k : Int) - (s.rotor a).setting) s.alpha.n m ∧
        Answers (.rotBwd a x) s s (BitVec.ofNat 16 m))) ∧
    (Ready s → ¬IsRotor s a → Faults (.rotFwd a x) s .unknownRotor ∧ Faults (.rotBwd a x) s .unknownRotor) ∧
    (¬Ready s → Faults (.rotFwd a x) s .badCommand ∧ Faults (.rotBwd a x) s .badCommand)) ∧
  (∀ (a : Byte) (v : Half), decode (0x44#8 ++ a ++ v) = .ok (.rotFwd a.toNat (signed16 v)) ∧
    decode (0x45#8 ++ a ++ v) = .ok (.rotBwd a.toNat (signed16 v)))

/-- 42_rotor.md R139 (with R132): ROT_ADV moves a MovingRotor one position, N - 1 going to 0, and leaves any other rotor as it is. -/
def Obligations.RotorAdvancesOnePosition : Prop :=
  (∀ (s : State) (a : Nat),
    (Ready s → IsRotor s a → (s.rotor a).kind = .movingRotor → (s.rotor a).setting < s.alpha.n →
      ∃ t, Answers (.rotAdv a) s t 0 ∧ t = { s with cat := t.cat } ∧
        t.rotor a = { s.rotor a with setting := if (s.rotor a).setting + 1 = s.alpha.n then 0 else (s.rotor a).setting + 1 } ∧
        ∀ c, c ≠ a → t.rotor c = s.rotor c) ∧
    (Ready s → IsRotor s a → (s.rotor a).kind ≠ .movingRotor →
      ∃ t, Answers (.rotAdv a) s t 0 ∧ t = { s with cat := t.cat } ∧ ∀ c, t.rotor c = s.rotor c) ∧
    (Ready s → ¬IsRotor s a → Faults (.rotAdv a) s .unknownRotor) ∧
    (¬Ready s → Faults (.rotAdv a) s .badCommand)) ∧
  (∀ a : Byte, decode (0x46#8 ++ a ++ 0#16) = .ok (.rotAdv a.toNat))

-- Machine (43_machine_config.md, 44_stepping_fsm.md, 45_signal_path.md).

/-- 43_machine_config.md R143, R146: INS_BEGIN and SET_BEGIN open their sequences with an empty list; SET_BEGIN needs an inserted machine. -/
def Obligations.ListSequencesBegin : Prop :=
  (∀ s : State,
    (Ready s → Answers .insBegin s { s with seq := { s.seq with count := 0, mode := .ins } } 0) ∧
    (¬Ready s → Faults .insBegin s .badCommand) ∧
    (Ready s → s.inserted = true → Answers .setBegin s { s with seq := { s.seq with count := 0, mode := .set } } 0) ∧
    (¬(Ready s ∧ s.inserted = true) → Faults .setBegin s .badCommand)) ∧
  decode 0x50000000 = .ok .insBegin ∧ decode 0x53000000 = .ok .setBegin

/-- 43_machine_config.md R144: INS_NAME lists the rotor for the next slot; WrongSlotCount, UnknownRotor, DuplicateRotor in that order. -/
def Obligations.InsertionTakesTheNextName : Prop :=
  (∀ (s : State) (a : Nat),
    (s.seq.mode ≠ .ins → Faults (.insName a) s .badCommand) ∧
    (s.seq.mode = .ins → s.seq.count = s.cfg.slots → Faults (.insName a) s .wrongSlotCount) ∧
    (s.seq.mode = .ins → s.seq.count ≠ s.cfg.slots → ¬IsRotor s a → Faults (.insName a) s .unknownRotor) ∧
    (s.seq.mode = .ins → s.seq.count ≠ s.cfg.slots → IsRotor s a → (∃ j < s.seq.count, s.seq.listAt j = a) →
      Faults (.insName a) s .duplicateRotor) ∧
    (s.seq.mode = .ins → s.seq.count ≠ s.cfg.slots → IsRotor s a → (∀ j < s.seq.count, s.seq.listAt j ≠ a) →
      ∃ t, Answers (.insName a) s t 0 ∧ t = { s with seq := { s.seq with list := t.seq.list, count := s.seq.count + 1 } } ∧
        t.seq.listAt s.seq.count = a ∧ ∀ j, j ≠ s.seq.count → t.seq.listAt j = s.seq.listAt j)) ∧
  (∀ a : Byte, decode (0x51#8 ++ a ++ 0#16) = .ok (.insName a.toNat))

/-- 43_machine_config.md R145 (and R150): INS_END fills all R slots from the list in one step and changes no rotor; too few names, then a slot-0 candidate with a fixed point, fault.
That INS_END keeps the list, the count and the other staging is the model's choice (notes/assumptions/11.md): 93_implementation_defined.md U4 leaves the staging of an ended sequence open. -/
def Obligations.InsertionCommits : Prop :=
  (∀ s : State,
    (s.seq.mode ≠ .ins → Faults .insEnd s .badCommand) ∧
    (s.seq.mode = .ins → s.seq.count < s.cfg.slots → Faults .insEnd s .wrongSlotCount) ∧
    (s.seq.mode = .ins → s.cfg.slots ≤ s.seq.count → ¬(s.rotor (s.seq.listAt 0)).wiring.DerangedOn s.alpha.n →
      Faults .insEnd s .reflectorNotDerangement) ∧
    (s.seq.mode = .ins → s.cfg.slots ≤ s.seq.count → (s.rotor (s.seq.listAt 0)).wiring.DerangedOn s.alpha.n →
      ∃ t, Answers .insEnd s t 0 ∧ t = { s with slot := t.slot, inserted := true, seq := { s.seq with mode := .idle } } ∧
        ∀ k < s.cfg.slots, t.slotAt k = s.seq.listAt k)) ∧
  decode 0x52000000 = .ok .insEnd

/-- 43_machine_config.md R147: SET_SYM lists the setting of the next slot; BadSettingLength, NotInAlphabet, OutOfRange in that order; no setting changes yet. -/
def Obligations.SettingTakesTheNextSymbol : Prop :=
  (∀ (s : State) (c : Sym),
    (s.seq.mode ≠ .set → Faults (.setSym c) s .badCommand) ∧
    (s.seq.mode = .set → s.seq.count + 1 = s.cfg.slots → Faults (.setSym c) s .badSettingLength) ∧
    (s.seq.mode = .set → s.seq.count + 1 ≠ s.cfg.slots → ¬HasSym s.alpha c → Faults (.setSym c) s .notInAlphabet) ∧
    (∀ i, s.seq.mode = .set → s.seq.count + 1 ≠ s.cfg.slots → IsIndexOf s.alpha c i →
      (s.rotor (s.slotAt (s.seq.count + 1))).kind = .reflector → i ≠ 0 → Faults (.setSym c) s .outOfRange) ∧
    (∀ i, s.seq.mode = .set → s.seq.count + 1 ≠ s.cfg.slots → IsIndexOf s.alpha c i →
      ((s.rotor (s.slotAt (s.seq.count + 1))).kind = .reflector → i = 0) →
      ∃ t, Answers (.setSym c) s t 0 ∧ t = { s with seq := { s.seq with list := t.seq.list, count := s.seq.count + 1 } } ∧
        t.seq.listAt s.seq.count = i ∧ ∀ j, j ≠ s.seq.count → t.seq.listAt j = s.seq.listAt j)) ∧
  (∀ c : Sym, decode (0x54#8 ++ 0#8 ++ c) = .ok (.setSym c))

/-- 43_machine_config.md R148: SET_END gives the rotors of slots 1 to R-1 their listed settings together and changes nothing else, the rotor of slot 0 included. The slots name pairwise different
rotors in every state that meets the invariant (10_state.md R31). That SET_END keeps the list, the count and the other staging is the model's choice (notes/assumptions/11.md): 93_implementation_defined.md U4 leaves
the staging of an ended sequence open. -/
def Obligations.SettingsCommitTogether : Prop :=
  (∀ s : State,
    (s.seq.mode ≠ .set → Faults .setEnd s .badCommand) ∧
    (s.seq.mode = .set → s.seq.count + 1 < s.cfg.slots → Faults .setEnd s .badSettingLength) ∧
    (s.seq.mode = .set → s.cfg.slots ≤ s.seq.count + 1 → SlotsDiffer s →
      ∃ t, Answers .setEnd s t 0 ∧ t = { s with cat := t.cat, seq := { s.seq with mode := .idle } } ∧
        (∀ j, j + 1 < s.cfg.slots → t.rotor (s.slotAt (j + 1)) = { s.rotor (s.slotAt (j + 1)) with setting := s.seq.listAt j }) ∧
        ∀ c, (∀ j, j + 1 < s.cfg.slots → s.slotAt (j + 1) ≠ c) → t.rotor c = s.rotor c)) ∧
  decode 0x55000000 = .ok .setEnd

/-- 43_machine_config.md R149: SLOT_GET answers the catalog number in a slot below R and faults OutOfRange on any other. -/
def Obligations.SlotIsRead : Prop :=
  (∀ (s : State) (a : Nat),
    (Ready s → s.inserted = true → a < s.cfg.slots → Answers (.slotGet a) s s (BitVec.ofNat 16 (s.slotAt a))) ∧
    (Ready s → s.inserted = true → s.cfg.slots ≤ a → Faults (.slotGet a) s .outOfRange) ∧
    (¬(Ready s ∧ s.inserted = true) → Faults (.slotGet a) s .badCommand)) ∧
  (∀ a : Byte, decode (0x58#8 ++ a ++ 0#16) = .ok (.slotGet a.toNat))

/-- 44_stepping_fsm.md R153 to R157: `step()` advances, in one batch decided on the settings before it, exactly the moving rotors of the slots in the advance set (`Adv`, both modes), each by one
position, and changes nothing else. The slots name pairwise different rotors in every state that meets the invariant. The HISTORICAL half of `Adv` is R157, which the spec marks
as from general knowledge: it is presumed (notes/assumptions/13.md). -/
def Obligations.SteppingIsOneBatch : Prop :=
  ∀ s : State, SlotsDiffer s →
    s.stepRotors = { s with cat := s.stepRotors.cat } ∧
    (∀ k < s.cfg.slots, Adv s k → (s.slotRotor k).kind = .movingRotor →
      s.stepRotors.rotor (s.slotAt k) = { s.slotRotor k with setting := ((s.slotRotor k).setting + 1) % s.alpha.n }) ∧
    (∀ k < s.cfg.slots, (¬Adv s k ∨ (s.slotRotor k).kind ≠ .movingRotor) →
      s.stepRotors.rotor (s.slotAt k) = s.slotRotor k) ∧
    (∀ c, (∀ k < s.cfg.slots, s.slotAt k ≠ c) → s.stepRotors.rotor c = s.rotor c)

/-- 45_signal_path.md R160: `path` is the value after any trace `y` of the two loops, from the first plugboard pass, with the second plugboard pass applied; its result is in `[0, N)`. -/
def Obligations.SignalPathIsTheTwoLoops : Prop :=
  (∀ (s : State) (x : Int) (y : Nat → Nat),
    y 0 = s.plug.permute s.alpha.n x →
    (∀ j < s.cfg.slots, y (j + 1) = (s.slotRotor (s.cfg.slots - 1 - j)).convertForward s.alpha.n (y j)) →
    (∀ j, j + 1 < s.cfg.slots → y (s.cfg.slots + j + 1) = (s.slotRotor (j + 1)).convertBackward s.alpha.n (y (s.cfg.slots + j))) →
    s.path x = s.plug.permute s.alpha.n (y (2 * s.cfg.slots - 1))) ∧
  (∀ (s : State) (x : Int), Inv s → s.inserted = true → s.path x < s.alpha.n)

/-- 45_signal_path.md R161: CONV_IDX steps, then answers the path with the settings after the step; the step writes settings only; it faults BadCommand only; an index and its
reduction answer alike, which is the spec's own inference from R160 and R111. What the step writes to which setting is `SteppingIsOneBatch`. -/
def Obligations.KeystrokeByIndexStepsThenConverts : Prop :=
  (∀ (s : State) (x : Int),
    (Ready s → s.inserted = true → Answers (.convIdx x) s s.stepRotors (BitVec.ofNat 16 (s.stepRotors.path x))) ∧
    (¬(Ready s ∧ s.inserted = true) → Faults (.convIdx x) s .badCommand) ∧
    (∀ k, IsMod x s.alpha.n k → exec (.convIdx x) s = exec (.convIdx k) s)) ∧
  (∀ s : State, s.stepRotors = { s with cat := s.stepRotors.cat } ∧
    ∀ c, s.stepRotors.rotor c = { s.rotor c with setting := (s.stepRotors.rotor c).setting }) ∧
  (∀ v : Half, decode (0x56#8 ++ 0#8 ++ v) = .ok (.convIdx (signed16 v)))

/-- 45_signal_path.md R162: CONV_SYM converts a symbol of the alphabet as CONV_IDX converts its index; an absent symbol faults SymbolNotInAlphabet and moves nothing. -/
def Obligations.KeystrokeBySymbolFailsBeforeStepping : Prop :=
  (∀ (s : State) (c : Sym),
    (∀ i, Ready s → s.inserted = true → IsIndexOf s.alpha c i →
      Answers (.convSym c) s s.stepRotors (s.alpha.symAt (s.stepRotors.path i))) ∧
    (Ready s → s.inserted = true → ¬HasSym s.alpha c → Faults (.convSym c) s .symbolNotInAlphabet) ∧
    (¬(Ready s ∧ s.inserted = true) → Faults (.convSym c) s .badCommand)) ∧
  (∀ c : Sym, decode (0x57#8 ++ 0#8 ++ c) = .ok (.convSym c))

-- Properties the spec draws from the rules.

/-- 00_scope.md R15: `mod` is the floored modulus: for `n >= 1` the unique `r` in `[0, n)` with `a - r` divisible by `n`. -/
def Obligations.ModulusIsFloored : Prop :=
  (∀ (a : Int) (n : Nat), 1 ≤ n → IsMod a n (modN a n) ∧ ∀ r, IsMod a n r → r = modN a n) ∧
  modN (-1) 26 = 25 ∧ modN (-26) 26 = 0 ∧ modN (-27) 26 = 25

/-- 40_alphabet.md R108, the spec's own inference from R100 and R38 (a): `toInt` and `toChar` are mutual inverses. -/
def Obligations.SymbolsAndIndicesAreInverse : Prop :=
  ∀ s : State, Inv s →
    (∀ i < s.alpha.n, s.alpha.toInt? (s.alpha.toChar i) = some i ∧ s.alpha.contains (s.alpha.toChar i) = true) ∧
    (∀ c, s.alpha.contains c = true → ∃ i, s.alpha.toInt? c = some i ∧ s.alpha.toChar i = c)

/-- 41_permutation_lookup.md R113: a committed permutation's `permute` and `invert` undo each other on every integer, up to the modulus, and depend on the index mod N only. -/
def Obligations.LookupsUndoEachOther : Prop :=
  ∀ (s : State) (a : Nat) (p : Perm), Inv s → s.alpha.isSealed = true → Names s a p → ∀ x : Int,
    p.invert s.alpha.n (p.permute s.alpha.n x) = modN x s.alpha.n ∧
    p.permute s.alpha.n (p.invert s.alpha.n x) = modN x s.alpha.n ∧
    p.permute s.alpha.n (x + s.alpha.n) = p.permute s.alpha.n x

/-- 42_rotor.md R141: the two contact shifts undo each other at every setting; a derangement wiring gives a derangement and an involutive one an involution; N advances of a MovingRotor return its
setting. -/
def Obligations.ContactShiftsUndoEachOther : Prop :=
  ∀ (s : State) (c : Nat), Inv s → IsRotor s c →
    (∀ x : Int, (s.rotor c).convertBackward s.alpha.n ((s.rotor c).convertForward s.alpha.n x) = modN x s.alpha.n ∧
      (s.rotor c).convertForward s.alpha.n ((s.rotor c).convertBackward s.alpha.n x) = modN x s.alpha.n) ∧
    ((∃ i < s.alpha.n, (s.rotor c).convertForward s.alpha.n i = i) ↔ ∃ i < s.alpha.n, (s.rotor c).wiring.fwdAt i = i) ∧
    ((s.rotor c).wiring.InvolutionOn s.alpha.n → ∀ i < s.alpha.n,
      (s.rotor c).convertForward s.alpha.n ((s.rotor c).convertForward s.alpha.n i) = i) ∧
    ((fun r : Rotor => r.advance s.alpha.n)^[s.alpha.n] (s.rotor c) = s.rotor c)

/-- 44_stepping_fsm.md R158: the double step. With four slots, three pawls and moving rotors in slots 1 to 3, of which only the middle one is at a notch, one keystroke moves all three, in both modes, and
slot 0 stays. R158 is the spec's own inference from R155 and R156; the HISTORICAL half rests on R157, which is presumed (notes/assumptions/13.md). -/
def Obligations.DoubleStepMovesThreeRotors : Prop :=
  ∀ (s : State) (x : Int), Inv s → Ready s → s.inserted = true → s.cfg.slots = 4 → s.cfg.pawls = 3 →
    (∀ k, 1 ≤ k → k ≤ 3 → (s.slotRotor k).kind = .movingRotor) →
    ¬Notched s 1 → Notched s 2 → ¬Notched s 3 →
    ∃ u v, Answers (.convIdx x) s u v ∧ u.slotRotor 0 = s.slotRotor 0 ∧
      ∀ k, 1 ≤ k → k ≤ 3 → (u.slotRotor k).setting = ((s.slotRotor k).setting + 1) % s.alpha.n

/-- 45_signal_path.md R165: the plugboard does not enter the rotors' path; with the identity the path is the two loops alone, and with a plugboard that swaps `a` and `b` only, a value that is neither enters the
rotors as itself and leaves changed only if the loops give `a` or `b`. -/
def Obligations.PlugboardActsAtTheEndsOnly : Prop :=
  ∀ s : State, Inv s → s.inserted = true →
    (∀ p y, ({ s with plug := p } : State).core y = s.core y) ∧
    ((∀ i < s.alpha.n, s.plug.fwdAt i = i) → ∀ i < s.alpha.n, s.path i = s.core i) ∧
    (∀ a < s.alpha.n, ∀ b < s.alpha.n, a ≠ b → s.plug.fwdAt a = b → s.plug.fwdAt b = a →
      (∀ i < s.alpha.n, i ≠ a → i ≠ b → s.plug.fwdAt i = i) →
      ∀ i < s.alpha.n, i ≠ a → i ≠ b →
        s.path i = if s.core i = a then b else if s.core i = b then a else s.core i)

/-- 45_signal_path.md R166, R163: the settings after a keystroke do not depend on what was converted, nor on which of the two keystroke commands converted it. -/
def Obligations.SteppingIgnoresTheInput : Prop :=
  ∀ (s u u' : State) (v v' : Half) (i j : Instr),
    ((∃ x, i = .convIdx x) ∨ (∃ c, i = .convSym c)) → ((∃ x, j = .convIdx x) ∨ (∃ c, j = .convSym c)) →
    Answers i s u v → Answers j s u' v' → ∀ c, u.rotor c = u'.rotor c

/-- 45_signal_path.md R164: where the wiring in slot 0 and the plugboard are involutions, a keystroke converts no index to itself, and the same keystroke from the same settings converts the output back to the
input. -/
def Obligations.KeystrokeIsSelfReciprocal : Prop :=
  ∀ s : State, Inv s → Ready s → s.inserted = true →
    (s.slotRotor 0).wiring.InvolutionOn s.alpha.n → s.plug.InvolutionOn s.alpha.n →
    ∀ i < s.alpha.n, ∃ u j, j < s.alpha.n ∧ j ≠ i ∧
      Answers (.convIdx (i : Int)) s u (BitVec.ofNat 16 j) ∧ Answers (.convIdx (j : Int)) s u (BitVec.ofNat 16 i)

/-- 41_permutation_lookup.md R110, R120: a well-formed cycle specification, sent as BLD_BEGIN and its groups' commands, is answered OK throughout and leaves in the staging exactly the permutation R110
defines: each symbol of a group maps to the next, the last to the first, every other index to itself. -/
def Obligations.CycleNotationBuildsItsPermutation : Prop :=
  ∀ (s : State) (a : Nat) (k : BitVec 2) (gs : List (List Nat)), Inv s → Ready s →
    ((a = 0xFF ∧ k = 0) ∨ (a < s.cfg.cmax ∧ k ≠ 3 ∧ (s.rotor a).valid = false)) →
    (∀ i ∈ gs.flatten, i < s.alpha.n) → gs.flatten.Nodup →
    ∃ t, AllOk (.bldBegin a k :: gs.flatMap (groupCommands s.alpha)) s t ∧
      t = { s with seq := t.seq, outbox := t.outbox } ∧ t.seq.mode = .perm ∧ t.seq.target = a ∧ t.seq.inGroup = false ∧
      (∀ g ∈ gs, ∀ j < g.length, t.seq.perm.fwdAt (g.getD j 0) = g.getD ((j + 1) % g.length) 0 ∧
        t.seq.perm.invAt (g.getD ((j + 1) % g.length) 0) = g.getD j 0) ∧
      (∀ i < s.alpha.n, i ∉ gs.flatten → t.seq.perm.fwdAt i = i ∧ t.seq.perm.invAt i = i)

/-- 20_memory.md R51, 93_implementation_defined.md U2 to U4: what the spec leaves without a value is never observed. Two reachable states that differ only there take any step to states that differ only
there, with the same responses. So no behaviour rests on the values the model names for them (notes/assumptions/6.md to 11.md). -/
def Obligations.UnspecifiedStateIsNeverObserved : Prop :=
  ∀ s t : State, Inv s → Inv t → LooksLike s t →
    ∃ s' t', step s = .next s' ∧ step t = .next t' ∧ LooksLike s' t'
end

