-- ==== Sys2Proof/Laws/Decode.lean ====
section
/-! SUPPORT. The fields of a packed word and the two field encodings, said once for every proof about words. -/

namespace Sys2Proof

/-- The number of a packed word, its fields side by side. -/
theorem toNat_packWord (op a : Byte) (v : Half) :
    (packWord op a v).toNat = op.toNat * 2 ^ 24 + a.toNat * 2 ^ 16 + v.toNat := by
  unfold packWord
  rw [BitVec.toNat_append, BitVec.toNat_append, ← Nat.shiftLeft_add_eq_or_of_lt v.isLt,
    ← Nat.shiftLeft_add_eq_or_of_lt a.isLt, Nat.shiftLeft_eq, Nat.shiftLeft_eq]
  omega

theorem toNat_opField (w : Word) : (opField w).toNat = w.toNat / 2 ^ 24 := by
  have := w.isLt
  simp only [opField, BitVec.extractLsb_toNat, Nat.shiftRight_eq_div_pow]; omega

theorem toNat_aField (w : Word) : (aField w).toNat = w.toNat / 2 ^ 16 % 2 ^ 8 := by
  simp only [aField, BitVec.extractLsb_toNat, Nat.shiftRight_eq_div_pow]

theorem toNat_vField (w : Word) : (vField w).toNat = w.toNat % 2 ^ 16 := by
  simp only [vField, BitVec.extractLsb_toNat, Nat.shiftRight_eq_div_pow]; omega

@[simp] theorem opField_packWord (op a : Byte) (v : Half) : opField (packWord op a v) = op := by
  apply BitVec.eq_of_toNat_eq
  rw [toNat_opField, toNat_packWord]
  have := op.isLt; have := a.isLt; have := v.isLt; omega

@[simp] theorem aField_packWord (op a : Byte) (v : Half) : aField (packWord op a v) = a := by
  apply BitVec.eq_of_toNat_eq
  rw [toNat_aField, toNat_packWord]
  have := op.isLt; have := a.isLt; have := v.isLt; omega

@[simp] theorem vField_packWord (op a : Byte) (v : Half) : vField (packWord op a v) = v := by
  apply BitVec.eq_of_toNat_eq
  rw [toNat_vField, toNat_packWord]
  have := op.isLt; have := a.isLt; have := v.isLt; omega

/-- A word is its three fields. -/
theorem packWord_fields (w : Word) : packWord (opField w) (aField w) (vField w) = w := by
  apply BitVec.eq_of_toNat_eq
  rw [toNat_packWord, toNat_opField, toNat_aField, toNat_vField]
  have := w.isLt; omega

/-- Decoding a packed word reads its fields. -/
theorem decode_packWord (op a : Byte) (v : Half) : decode (packWord op a v) = decodeFields op a v := by
  simp [decode]

/-- sext_16 gives back an integer in its range. -/
theorem sext16_field16 {i : Int} (h : indexFits i = true) : sext16 (field16 i) = i := by
  simp only [indexFits, Bool.and_eq_true, decide_eq_true_eq] at h
  unfold sext16 field16
  rw [BitVec.toInt_ofInt]
  exact Int.bmod_eq_of_le (by omega) (by omega)

@[simp] theorem field16_sext16 (v : Half) : field16 (sext16 v) = v := by simp [field16, sext16]

theorem indexFits_sext16 (v : Half) : indexFits (sext16 v) = true := by
  have h1 := BitVec.toInt_lt (x := v)
  have h2 := BitVec.le_toInt (x := v)
  have h3 : -32768 ≤ v.toInt := by simpa using h2
  have h4 : v.toInt ≤ 32767 := by have : v.toInt < 32768 := by simpa using h1
                                  omega
  simp [indexFits, sext16, h3, h4]

/-- An 8-bit field gives back a number in its range. -/
theorem toNat_field8 {a : Nat} (h : targetFits a = true) : (field8 a).toNat = a := by
  simp only [targetFits, decide_eq_true_eq] at h
  simp [field8, Nat.mod_eq_of_lt h]

@[simp] theorem field8_toNat (a : Byte) : field8 a.toNat = a := by simp [field8]

theorem targetFits_toNat (a : Byte) : targetFits a.toNat = true := by
  have := a.isLt
  simp only [targetFits, decide_eq_true_eq]; omega

@[simp] theorem kindField_high (k : BitVec 2) : (0#14 ++ k).extractLsb 15 2 = 0#14 := by revert k; decide

@[simp] theorem kindField_low (k : BitVec 2) : (0#14 ++ k).extractLsb 1 0 = k := by revert k; decide

/-- A kind operand whose bits 15:2 are zero is its low two bits. -/
theorem kindField_join {v : Half} (h : v.extractLsb 15 2 = 0) : 0#14 ++ (v.extractLsb 1 0 : BitVec 2) = v := by
  have h' := congrArg BitVec.toNat h
  apply BitVec.eq_of_toNat_eq
  simp only [BitVec.toNat_append, BitVec.extractLsb_toNat, Nat.shiftRight_eq_div_pow] at h' ⊢
  simp at h' ⊢
  have := v.isLt; omega

end Sys2Proof
end

