-- ==== Sys2Proof/Laws/State.lean ====
section
/-! SUPPORT. One lemma per field per update of the state, each true by rfl, so that no proof unfolds a record update. -/

namespace Sys2Proof.Machine.State

@[simp] theorem withAlpha_cfg (s : State) (a : Alphabet) : (s.withAlpha a).cfg = s.cfg := rfl
@[simp] theorem withAlpha_alpha (s : State) (a : Alphabet) : (s.withAlpha a).alpha = a := rfl
@[simp] theorem withAlpha_cat (s : State) (a : Alphabet) : (s.withAlpha a).cat = s.cat := rfl
@[simp] theorem withAlpha_plug (s : State) (a : Alphabet) : (s.withAlpha a).plug = s.plug := rfl
@[simp] theorem withAlpha_inserted (s : State) (a : Alphabet) : (s.withAlpha a).inserted = s.inserted := rfl
@[simp] theorem withAlpha_slot (s : State) (a : Alphabet) : (s.withAlpha a).slot = s.slot := rfl
@[simp] theorem withAlpha_seq (s : State) (a : Alphabet) : (s.withAlpha a).seq = s.seq := rfl
@[simp] theorem withAlpha_fsr (s : State) (a : Alphabet) : (s.withAlpha a).fsr = s.fsr := rfl
@[simp] theorem withAlpha_inbox (s : State) (a : Alphabet) : (s.withAlpha a).inbox = s.inbox := rfl
@[simp] theorem withAlpha_outbox (s : State) (a : Alphabet) : (s.withAlpha a).outbox = s.outbox := rfl

@[simp] theorem withRotor_cfg (s : State) (c : Nat) (r : Rotor) : (s.withRotor c r).cfg = s.cfg := rfl
@[simp] theorem withRotor_alpha (s : State) (c : Nat) (r : Rotor) : (s.withRotor c r).alpha = s.alpha := rfl
@[simp] theorem withRotor_cat (s : State) (c : Nat) (r : Rotor) : (s.withRotor c r).cat = Table.write rotorD s.cat c r := rfl
@[simp] theorem withRotor_plug (s : State) (c : Nat) (r : Rotor) : (s.withRotor c r).plug = s.plug := rfl
@[simp] theorem withRotor_inserted (s : State) (c : Nat) (r : Rotor) : (s.withRotor c r).inserted = s.inserted := rfl
@[simp] theorem withRotor_slot (s : State) (c : Nat) (r : Rotor) : (s.withRotor c r).slot = s.slot := rfl
@[simp] theorem withRotor_seq (s : State) (c : Nat) (r : Rotor) : (s.withRotor c r).seq = s.seq := rfl
@[simp] theorem withRotor_fsr (s : State) (c : Nat) (r : Rotor) : (s.withRotor c r).fsr = s.fsr := rfl
@[simp] theorem withRotor_inbox (s : State) (c : Nat) (r : Rotor) : (s.withRotor c r).inbox = s.inbox := rfl
@[simp] theorem withRotor_outbox (s : State) (c : Nat) (r : Rotor) : (s.withRotor c r).outbox = s.outbox := rfl

@[simp] theorem withCat_cfg (s : State) (t : Table Rotor) : (s.withCat t).cfg = s.cfg := rfl
@[simp] theorem withCat_alpha (s : State) (t : Table Rotor) : (s.withCat t).alpha = s.alpha := rfl
@[simp] theorem withCat_cat (s : State) (t : Table Rotor) : (s.withCat t).cat = t := rfl
@[simp] theorem withCat_plug (s : State) (t : Table Rotor) : (s.withCat t).plug = s.plug := rfl
@[simp] theorem withCat_inserted (s : State) (t : Table Rotor) : (s.withCat t).inserted = s.inserted := rfl
@[simp] theorem withCat_slot (s : State) (t : Table Rotor) : (s.withCat t).slot = s.slot := rfl
@[simp] theorem withCat_seq (s : State) (t : Table Rotor) : (s.withCat t).seq = s.seq := rfl
@[simp] theorem withCat_fsr (s : State) (t : Table Rotor) : (s.withCat t).fsr = s.fsr := rfl
@[simp] theorem withCat_inbox (s : State) (t : Table Rotor) : (s.withCat t).inbox = s.inbox := rfl
@[simp] theorem withCat_outbox (s : State) (t : Table Rotor) : (s.withCat t).outbox = s.outbox := rfl

@[simp] theorem withPlug_cfg (s : State) (p : Perm) : (s.withPlug p).cfg = s.cfg := rfl
@[simp] theorem withPlug_alpha (s : State) (p : Perm) : (s.withPlug p).alpha = s.alpha := rfl
@[simp] theorem withPlug_cat (s : State) (p : Perm) : (s.withPlug p).cat = s.cat := rfl
@[simp] theorem withPlug_plug (s : State) (p : Perm) : (s.withPlug p).plug = p := rfl
@[simp] theorem withPlug_inserted (s : State) (p : Perm) : (s.withPlug p).inserted = s.inserted := rfl
@[simp] theorem withPlug_slot (s : State) (p : Perm) : (s.withPlug p).slot = s.slot := rfl
@[simp] theorem withPlug_seq (s : State) (p : Perm) : (s.withPlug p).seq = s.seq := rfl
@[simp] theorem withPlug_fsr (s : State) (p : Perm) : (s.withPlug p).fsr = s.fsr := rfl
@[simp] theorem withPlug_inbox (s : State) (p : Perm) : (s.withPlug p).inbox = s.inbox := rfl
@[simp] theorem withPlug_outbox (s : State) (p : Perm) : (s.withPlug p).outbox = s.outbox := rfl

@[simp] theorem withSlots_cfg (s : State) (t : Table Nat) : (s.withSlots t).cfg = s.cfg := rfl
@[simp] theorem withSlots_alpha (s : State) (t : Table Nat) : (s.withSlots t).alpha = s.alpha := rfl
@[simp] theorem withSlots_cat (s : State) (t : Table Nat) : (s.withSlots t).cat = s.cat := rfl
@[simp] theorem withSlots_plug (s : State) (t : Table Nat) : (s.withSlots t).plug = s.plug := rfl
@[simp] theorem withSlots_inserted (s : State) (t : Table Nat) : (s.withSlots t).inserted = true := rfl
@[simp] theorem withSlots_slot (s : State) (t : Table Nat) : (s.withSlots t).slot = t := rfl
@[simp] theorem withSlots_seq (s : State) (t : Table Nat) : (s.withSlots t).seq = s.seq := rfl
@[simp] theorem withSlots_fsr (s : State) (t : Table Nat) : (s.withSlots t).fsr = s.fsr := rfl
@[simp] theorem withSlots_inbox (s : State) (t : Table Nat) : (s.withSlots t).inbox = s.inbox := rfl
@[simp] theorem withSlots_outbox (s : State) (t : Table Nat) : (s.withSlots t).outbox = s.outbox := rfl

@[simp] theorem withSeq_cfg (s : State) (q : Seq) : (s.withSeq q).cfg = s.cfg := rfl
@[simp] theorem withSeq_alpha (s : State) (q : Seq) : (s.withSeq q).alpha = s.alpha := rfl
@[simp] theorem withSeq_cat (s : State) (q : Seq) : (s.withSeq q).cat = s.cat := rfl
@[simp] theorem withSeq_plug (s : State) (q : Seq) : (s.withSeq q).plug = s.plug := rfl
@[simp] theorem withSeq_inserted (s : State) (q : Seq) : (s.withSeq q).inserted = s.inserted := rfl
@[simp] theorem withSeq_slot (s : State) (q : Seq) : (s.withSeq q).slot = s.slot := rfl
@[simp] theorem withSeq_seq (s : State) (q : Seq) : (s.withSeq q).seq = q := rfl
@[simp] theorem withSeq_fsr (s : State) (q : Seq) : (s.withSeq q).fsr = s.fsr := rfl
@[simp] theorem withSeq_inbox (s : State) (q : Seq) : (s.withSeq q).inbox = s.inbox := rfl
@[simp] theorem withSeq_outbox (s : State) (q : Seq) : (s.withSeq q).outbox = s.outbox := rfl

@[simp] theorem withMode_cfg (s : State) (m : Mode) : (s.withMode m).cfg = s.cfg := rfl
@[simp] theorem withMode_alpha (s : State) (m : Mode) : (s.withMode m).alpha = s.alpha := rfl
@[simp] theorem withMode_cat (s : State) (m : Mode) : (s.withMode m).cat = s.cat := rfl
@[simp] theorem withMode_plug (s : State) (m : Mode) : (s.withMode m).plug = s.plug := rfl
@[simp] theorem withMode_inserted (s : State) (m : Mode) : (s.withMode m).inserted = s.inserted := rfl
@[simp] theorem withMode_slot (s : State) (m : Mode) : (s.withMode m).slot = s.slot := rfl
@[simp] theorem withMode_seq (s : State) (m : Mode) : (s.withMode m).seq = { s.seq with mode := m } := rfl
@[simp] theorem withMode_fsr (s : State) (m : Mode) : (s.withMode m).fsr = s.fsr := rfl
@[simp] theorem withMode_inbox (s : State) (m : Mode) : (s.withMode m).inbox = s.inbox := rfl
@[simp] theorem withMode_outbox (s : State) (m : Mode) : (s.withMode m).outbox = s.outbox := rfl

@[simp] theorem withInbox_cfg (s : State) (es : List HostEvent) : (s.withInbox es).cfg = s.cfg := rfl
@[simp] theorem withInbox_alpha (s : State) (es : List HostEvent) : (s.withInbox es).alpha = s.alpha := rfl
@[simp] theorem withInbox_cat (s : State) (es : List HostEvent) : (s.withInbox es).cat = s.cat := rfl
@[simp] theorem withInbox_plug (s : State) (es : List HostEvent) : (s.withInbox es).plug = s.plug := rfl
@[simp] theorem withInbox_inserted (s : State) (es : List HostEvent) : (s.withInbox es).inserted = s.inserted := rfl
@[simp] theorem withInbox_slot (s : State) (es : List HostEvent) : (s.withInbox es).slot = s.slot := rfl
@[simp] theorem withInbox_seq (s : State) (es : List HostEvent) : (s.withInbox es).seq = s.seq := rfl
@[simp] theorem withInbox_fsr (s : State) (es : List HostEvent) : (s.withInbox es).fsr = s.fsr := rfl
@[simp] theorem withInbox_inbox (s : State) (es : List HostEvent) : (s.withInbox es).inbox = es := rfl
@[simp] theorem withInbox_outbox (s : State) (es : List HostEvent) : (s.withInbox es).outbox = s.outbox := rfl

@[simp] theorem withSetting_cfg (s : State) (c v : Nat) : (s.withSetting c v).cfg = s.cfg := rfl
@[simp] theorem withSetting_alpha (s : State) (c v : Nat) : (s.withSetting c v).alpha = s.alpha := rfl
@[simp] theorem withSetting_cat (s : State) (c v : Nat) : (s.withSetting c v).cat = Table.write rotorD s.cat c { s.rotor c with setting := v } := rfl
@[simp] theorem withSetting_plug (s : State) (c v : Nat) : (s.withSetting c v).plug = s.plug := rfl
@[simp] theorem withSetting_inserted (s : State) (c v : Nat) : (s.withSetting c v).inserted = s.inserted := rfl
@[simp] theorem withSetting_slot (s : State) (c v : Nat) : (s.withSetting c v).slot = s.slot := rfl
@[simp] theorem withSetting_seq (s : State) (c v : Nat) : (s.withSetting c v).seq = s.seq := rfl
@[simp] theorem withSetting_fsr (s : State) (c v : Nat) : (s.withSetting c v).fsr = s.fsr := rfl
@[simp] theorem withSetting_inbox (s : State) (c v : Nat) : (s.withSetting c v).inbox = s.inbox := rfl
@[simp] theorem withSetting_outbox (s : State) (c v : Nat) : (s.withSetting c v).outbox = s.outbox := rfl

@[simp] theorem reply_cfg (s : State) (w : Word) : (s.reply w).cfg = s.cfg := rfl
@[simp] theorem reply_alpha (s : State) (w : Word) : (s.reply w).alpha = s.alpha := rfl
@[simp] theorem reply_cat (s : State) (w : Word) : (s.reply w).cat = s.cat := rfl
@[simp] theorem reply_plug (s : State) (w : Word) : (s.reply w).plug = s.plug := rfl
@[simp] theorem reply_inserted (s : State) (w : Word) : (s.reply w).inserted = s.inserted := rfl
@[simp] theorem reply_slot (s : State) (w : Word) : (s.reply w).slot = s.slot := rfl
@[simp] theorem reply_seq (s : State) (w : Word) : (s.reply w).seq = s.seq := rfl
@[simp] theorem reply_fsr (s : State) (w : Word) : (s.reply w).fsr = s.fsr := rfl
@[simp] theorem reply_inbox (s : State) (w : Word) : (s.reply w).inbox = s.inbox := rfl
@[simp] theorem reply_outbox (s : State) (w : Word) : (s.reply w).outbox = s.outbox ++ [w] := rfl

@[simp] theorem takeFault_cfg (s : State) (f : FaultCode) : (s.takeFault f).cfg = s.cfg := rfl
@[simp] theorem takeFault_alpha (s : State) (f : FaultCode) : (s.takeFault f).alpha = if s.seq.mode = .alpha then { s.alpha with n := 0 } else s.alpha := rfl
@[simp] theorem takeFault_cat (s : State) (f : FaultCode) : (s.takeFault f).cat = s.cat := rfl
@[simp] theorem takeFault_plug (s : State) (f : FaultCode) : (s.takeFault f).plug = s.plug := rfl
@[simp] theorem takeFault_inserted (s : State) (f : FaultCode) : (s.takeFault f).inserted = s.inserted := rfl
@[simp] theorem takeFault_slot (s : State) (f : FaultCode) : (s.takeFault f).slot = s.slot := rfl
@[simp] theorem takeFault_seq (s : State) (f : FaultCode) : (s.takeFault f).seq = { s.seq with mode := .idle } := rfl
@[simp] theorem takeFault_fsr (s : State) (f : FaultCode) : (s.takeFault f).fsr = s.fsr.record f := rfl
@[simp] theorem takeFault_inbox (s : State) (f : FaultCode) : (s.takeFault f).inbox = s.inbox := rfl
@[simp] theorem takeFault_outbox (s : State) (f : FaultCode) : (s.takeFault f).outbox = s.outbox ++ [faultWord f] := rfl

@[simp] theorem assertReset_cfg (s : State) : s.assertReset.cfg = s.cfg := rfl
@[simp] theorem assertReset_alpha (s : State) : s.assertReset.alpha = { sym := [], n := 0, isSealed := false } := rfl
@[simp] theorem assertReset_cat (s : State) : s.assertReset.cat = [] := rfl
@[simp] theorem assertReset_plug (s : State) : s.assertReset.plug = Perm.identity := rfl
@[simp] theorem assertReset_inserted (s : State) : s.assertReset.inserted = false := rfl
@[simp] theorem assertReset_slot (s : State) : s.assertReset.slot = [] := rfl
@[simp] theorem assertReset_seq (s : State) : s.assertReset.seq = Seq.reset := rfl
@[simp] theorem assertReset_fsr (s : State) : s.assertReset.fsr = { any := false, code := 0 } := rfl
@[simp] theorem assertReset_inbox (s : State) : s.assertReset.inbox = s.inbox := rfl
@[simp] theorem assertReset_outbox (s : State) : s.assertReset.outbox = s.outbox := rfl

end Sys2Proof.Machine.State
end

