-- ==== Sys2Proof/Laws/Table.lean ====
section
/-! SUPPORT. The laws of the table memories: read after write, what a copy leaves, that every operation keeps the canonical form and the
capacity, and that canonical tables that read alike are equal. -/

namespace Sys2Proof.Machine.Table

variable {α : Type}

@[simp] theorem find_nil (i : Nat) : find ([] : Table α) i = none := rfl

@[simp] theorem read_nil (d : Nat → α) (i : Nat) : read d [] i = d i := rfl

theorem find_put_self (t : Table α) (i : Nat) (v : α) : find (put t i v) i = some v := by
  induction t with
  | nil => simp [put, find]
  | cons c t ih =>
    obtain ⟨j, u⟩ := c
    simp only [put]
    split
    · simp [find]
    · split
      · simp [find]
      · simp [find, *]

theorem find_put_ne (t : Table α) {i k : Nat} (h : k ≠ i) (v : α) : find (put t i v) k = find t k := by
  induction t with
  | nil => simp [put, find, h]
  | cons c t ih =>
    obtain ⟨j, u⟩ := c
    simp only [put]
    split
    · simp [find, h]
    · split
      · next hij => subst hij; simp [find, h]
      · simp [find, ih]

theorem find_filter_self (t : Table α) (i : Nat) : find (t.filter (fun c => c.1 ≠ i)) i = none := by
  induction t with
  | nil => rfl
  | cons c t ih =>
    by_cases h : c.1 = i
    · simpa [List.filter_cons, h] using ih
    · simpa [List.filter_cons, h, find, Ne.symm h] using ih

theorem find_filter_ne (t : Table α) {i k : Nat} (h : k ≠ i) :
    find (t.filter (fun c => c.1 ≠ i)) k = find t k := by
  induction t with
  | nil => rfl
  | cons c t ih =>
    by_cases hc : c.1 = i
    · have : k ≠ c.1 := hc ▸ h
      simpa [List.filter_cons, hc, find, h] using ih
    · simp only [List.filter_cons, hc, ne_eq, not_false_eq_true, decide_true, if_true, find]
      simp only [ne_eq] at ih
      rw [ih]

variable [DecidableEq α]

@[simp] theorem read_write_self (d : Nat → α) (t : Table α) (i : Nat) (v : α) : read d (write d t i v) i = v := by
  unfold read write
  split
  · next h => rw [find_filter_self, h]; rfl
  · rw [find_put_self]; rfl

theorem read_write_ne (d : Nat → α) (t : Table α) {i k : Nat} (h : k ≠ i) (v : α) :
    read d (write d t i v) k = read d t k := by
  unfold read write
  split
  · rw [find_filter_ne t h]
  · rw [find_put_ne t h]

/-- Read after write, in one equation. -/
theorem read_write (d : Nat → α) (t : Table α) (i k : Nat) (v : α) :
    read d (write d t i v) k = if k = i then v else read d t k := by
  split
  · next h => subst h; simp
  · next h => exact read_write_ne d t h v

/-- What a copy of the first `n` elements leaves: those of the source below `n`, the old ones from `n` on. -/
theorem read_copyTo (d : Nat → α) (src dst : Table α) (n k : Nat) :
    read d (copyTo d src n dst) k = if k < n then read d src k else read d dst k := by
  induction n with
  | zero => simp [copyTo]
  | succ n ih =>
    rw [copyTo, read_write, ih]
    by_cases h : k = n
    · subst h; simp
    · by_cases h' : k < n
      · simp [h, h', Nat.lt_succ_of_lt h']
      · have : ¬ k < n + 1 := by omega
        simp [h, h', this]

theorem mem_put {t : Table α} {i : Nat} {v : α} {c : Nat × α} (h : c ∈ put t i v) : c = (i, v) ∨ c ∈ t := by
  induction t with
  | nil => simpa [put] using h
  | cons e t ih =>
    obtain ⟨j, u⟩ := e
    simp only [put] at h
    split at h
    · simpa using h
    · split at h
      · simp only [List.mem_cons] at h ⊢; tauto
      · simp only [List.mem_cons] at h ⊢
        rcases h with h | h
        · tauto
        · rcases ih h with h | h <;> tauto

theorem put_sorted {t : Table α} (h : t.Pairwise (fun a b => a.1 < b.1)) (i : Nat) (v : α) :
    (put t i v).Pairwise (fun a b => a.1 < b.1) := by
  induction t with
  | nil => simp [put]
  | cons e t ih =>
    obtain ⟨j, u⟩ := e
    rw [List.pairwise_cons] at h
    simp only [put]
    split
    · next hij =>
      refine List.pairwise_cons.mpr ⟨?_, List.pairwise_cons.mpr h⟩
      intro c hc
      rcases List.mem_cons.mp hc with rfl | hc
      · exact hij
      · exact lt_trans hij (h.1 c hc)
    · split
      · next hij => subst hij; exact List.pairwise_cons.mpr h
      · next h1 h2 =>
        refine List.pairwise_cons.mpr ⟨?_, ih h.2⟩
        intro c hc
        rcases mem_put hc with rfl | hc
        · show j < i; omega
        · exact h.1 c hc

/-- A write keeps the canonical form. -/
theorem wf_write {d : Nat → α} {t : Table α} (h : wf d t) (i : Nat) (v : α) : wf d (write d t i v) := by
  unfold write
  split
  · exact ⟨h.1.filter _, fun c hc => h.2 c (List.mem_of_mem_filter hc)⟩
  · next hv =>
    refine ⟨put_sorted h.1 i v, fun c hc => ?_⟩
    rcases mem_put hc with rfl | hc
    · exact hv
    · exact h.2 c hc

theorem wf_copyTo {d : Nat → α} {src dst : Table α} (h : wf d dst) (n : Nat) : wf d (copyTo d src n dst) := by
  induction n with
  | zero => exact h
  | succ n ih => exact wf_write ih n _

theorem mem_write {d : Nat → α} {t : Table α} {i : Nat} {v : α} {c : Nat × α} (h : c ∈ write d t i v) :
    c = (i, v) ∨ c ∈ t := by
  unfold write at h
  split at h
  · exact .inr (List.mem_of_mem_filter h)
  · exact mem_put h

/-- A write below the capacity keeps the table within it. -/
theorem within_write {d : Nat → α} {t : Table α} {m : Nat} (h : within m t) {i : Nat} (hi : i < m) (v : α) :
    within m (write d t i v) := by
  intro c hc
  rcases mem_write hc with rfl | hc
  · exact hi
  · exact h c hc

theorem within_copyTo {d : Nat → α} {src dst : Table α} {m : Nat} (h : within m dst) {n : Nat} (hn : n ≤ m) :
    within m (copyTo d src n dst) := by
  induction n with
  | zero => exact h
  | succ n ih => exact within_write (ih (by omega)) (by omega) _

omit [DecidableEq α] in
theorem find_of_mem {t : Table α} (h : t.Pairwise (fun a b => a.1 < b.1)) {c : Nat × α} (hc : c ∈ t) :
    find t c.1 = some c.2 := by
  induction t with
  | nil => cases hc
  | cons e t ih =>
    rw [List.pairwise_cons] at h
    rcases List.mem_cons.mp hc with rfl | hc'
    · simp [find]
    · have : c.1 ≠ e.1 := (Nat.ne_of_lt (h.1 c hc')).symm
      simpa [find, this] using ih h.2 hc'

omit [DecidableEq α] in
theorem mem_of_find {t : Table α} {i : Nat} {v : α} (h : find t i = some v) : (i, v) ∈ t := by
  induction t with
  | nil => simp at h
  | cons e t ih =>
    obtain ⟨j, u⟩ := e
    simp only [find] at h
    split at h
    · next hij => subst hij; simp at h; simp [h]
    · exact List.mem_cons_of_mem _ (ih h)

/-- In a canonical table an element is listed exactly when it is not what an unlisted one reads as. -/
theorem find_eq_of_wf {d : Nat → α} {t : Table α} (h : wf d t) (i : Nat) :
    find t i = if read d t i = d i then none else some (read d t i) := by
  unfold read
  cases hf : find t i with
  | none => simp
  | some v =>
    have : v ≠ d i := h.2 _ (mem_of_find hf)
    simp [this]

/-- Canonical tables that read alike are equal. -/
theorem ext_of_wf {d : Nat → α} {t u : Table α} (ht : wf d t) (hu : wf d u) (h : ∀ i, read d t i = read d u i) :
    t = u := by
  have hf : ∀ i, find t i = find u i := fun i => by rw [find_eq_of_wf ht, find_eq_of_wf hu, h i]
  have hm : ∀ c, c ∈ t ↔ c ∈ u := fun c =>
    ⟨fun hc => mem_of_find (by rw [← hf]; exact find_of_mem ht.1 hc),
     fun hc => mem_of_find (by rw [hf]; exact find_of_mem hu.1 hc)⟩
  have irr : ∀ {w : Table α}, w.Pairwise (fun a b => a.1 < b.1) → w.Nodup := fun hw =>
    hw.imp (fun {a b} hab heq => by subst heq; exact Nat.lt_irrefl _ hab)
  have hperm : t.Perm u := (List.perm_ext_iff_of_nodup (irr ht.1) (irr hu.1)).mpr hm
  exact hperm.eq_of_pairwise (fun a b _ _ hab hba => absurd (lt_trans hab hba) (lt_irrefl _)) ht.1 hu.1

end Sys2Proof.Machine.Table
end

