-- ==== Sys2Proof/Laws/Operands.lean ====
section
/-! SUPPORT. One spec lemma for each function of Machine/Operands.lean, Machine/Permutation.lean, Machine/Insertion.lean and Machine/Stepping.lean that a
meaning calls: what it gives, in the words of Safety.lean, so that no proof about a command unfolds it. -/

namespace Sys2Proof.Machine

-- The floored modulus.

theorem modN_lt (a : Int) {n : Nat} (h : 1 ≤ n) : modN a n < n := by
  have h1 := Int.emod_nonneg a (b := (n : Int)) (by omega)
  have h2 := Int.emod_lt_of_pos a (b := (n : Int)) (by omega)
  unfold modN; omega

theorem cast_modN (a : Int) {n : Nat} (h : 1 ≤ n) : ((modN a n : Nat) : Int) = a % (n : Int) :=
  Int.toNat_of_nonneg (Int.emod_nonneg a (by omega))

theorem isMod_modN (a : Int) {n : Nat} (h : 1 ≤ n) : IsMod a n (modN a n) :=
  ⟨modN_lt a h, by rw [cast_modN a h]; exact Int.dvd_self_sub_emod⟩

/-- The modulus is unique (00_scope.md R15). -/
theorem modN_eq {a : Int} {n k : Nat} (h : IsMod a n k) : modN a n = k := by
  obtain ⟨hk, q, hq⟩ := h
  have : a % (n : Int) = k := by
    have ha : a = k + n * q := by omega
    rw [ha, Int.add_mul_emod_self_left]
    exact Int.emod_eq_of_lt (by omega) (by omega)
  unfold modN; omega

@[simp] theorem modN_natCast {k n : Nat} (h : k < n) : modN (k : Int) n = k :=
  modN_eq ⟨h, by simp⟩

/-- Reducing inside a sum changes nothing. -/
theorem modN_modN_add (a b : Int) {n : Nat} (h : 1 ≤ n) : modN ((modN a n : Int) + b) n = modN (a + b) n := by
  have := cast_modN a h
  unfold modN at *
  rw [this, Int.emod_add_emod]

theorem modN_modN (a : Int) {n : Nat} (h : 1 ≤ n) : modN (modN a n : Int) n = modN a n :=
  modN_natCast (modN_lt a h)

-- The alphabet.

theorem toInt?_eq_some {a : Alphabet} {c : Sym} {i : Nat} : a.toInt? c = some i ↔ IsIndexOf a c i := by
  unfold Alphabet.toInt? IsIndexOf
  rw [List.find?_range_eq_some]
  simp only [beq_iff_eq, Bool.not_eq_true', beq_eq_false_iff_ne, ne_eq, List.mem_range]
  tauto

theorem toInt?_eq_none {a : Alphabet} {c : Sym} : a.toInt? c = none ↔ ¬HasSym a c := by
  unfold Alphabet.toInt? HasSym
  simp [List.find?_eq_none]

theorem contains_iff {a : Alphabet} {c : Sym} : a.contains c = true ↔ HasSym a c := by
  have := toInt?_eq_none (a := a) (c := c)
  unfold Alphabet.contains
  cases h : a.toInt? c with
  | none => simpa using this.mp h
  | some i =>
    obtain ⟨hi, hc, -⟩ := toInt?_eq_some.mp h
    exact ⟨fun _ => ⟨i, hi, hc⟩, fun _ => rfl⟩

/-- Where the symbols are pairwise different, an index with the symbol is the index of the symbol. -/
theorem isIndexOf_of_differ {a : Alphabet} (hd : ∀ i < a.n, ∀ j < a.n, a.symAt i = a.symAt j → i = j) {i : Nat}
    (hi : i < a.n) : IsIndexOf a (a.symAt i) i :=
  ⟨hi, rfl, fun j hj h => absurd (hd j (lt_trans hj hi) i hi h) (Nat.ne_of_lt hj)⟩

theorem isReservedSym_iff {c : Sym} : isReservedSym c = true ↔ Reserved c := by
  simp [isReservedSym, Reserved, or_assoc]

-- Permutations, targets and rotors.

theorem derangement_iff {p : Perm} {n : Nat} : p.derangement n = true ↔ p.DerangedOn n := by
  simp [Perm.derangement, Perm.DerangedOn]

theorem isRotor_iff {s : State} {a : Nat} : s.isRotor a = true ↔ IsRotor s a := by
  simp [State.isRotor, IsRotor]

theorem target?_eq_some {s : State} {a : Nat} {p : Perm} : s.target? a = some p ↔ Names s a p := by
  unfold State.target? Names plugTarget
  by_cases h : a = 0xFF
  · simp [h, eq_comm]
  · by_cases h' : s.isRotor a = true
    · have := isRotor_iff.mp h'
      simp [h, h', this, eq_comm]
    · have h'' : ¬IsRotor s a := fun hr => h' (isRotor_iff.mpr hr)
      simp [h, h', h'']

theorem target?_eq_none {s : State} {a : Nat} : s.target? a = none ↔ ∀ p, ¬Names s a p := by
  constructor
  · intro h p hp
    rw [target?_eq_some.mpr hp] at h; cases h
  · intro h
    cases ht : s.target? a with
    | none => rfl
    | some p => exact absurd (target?_eq_some.mp ht) (h p)

theorem Perm.permute_eq {p : Perm} {n k : Nat} {x : Int} (h : IsMod x n k) : p.permute n x = p.fwdAt k := by
  unfold Perm.permute; rw [modN_eq h]

theorem Perm.invert_eq {p : Perm} {n k : Nat} {x : Int} (h : IsMod x n k) : p.invert n x = p.invAt k := by
  unfold Perm.invert; rw [modN_eq h]

theorem Rotor.convertForward_eq {r : Rotor} {n k m : Nat} {x : Int} (h : IsMod (x + r.setting) n k)
    (hm : IsMod ((r.wiring.fwdAt k : Int) - r.setting) n m) : r.convertForward n x = m := by
  unfold Rotor.convertForward; rw [Perm.permute_eq h, modN_eq hm]

theorem Rotor.convertBackward_eq {r : Rotor} {n k m : Nat} {x : Int} (h : IsMod (x + r.setting) n k)
    (hm : IsMod ((r.wiring.invAt k : Int) - r.setting) n m) : r.convertBackward n x = m := by
  unfold Rotor.convertBackward; rw [Perm.invert_eq h, modN_eq hm]

theorem Rotor.atNotch_iff {r : Rotor} : r.atNotch = true ↔ r.kind = .movingRotor ∧ r.notchAt r.setting = true := by
  simp [Rotor.atNotch]

/-- An advance touches the setting only. -/
theorem Rotor.advance_eq (r : Rotor) (n : Nat) :
    r.advance n = { r with setting := if r.kind = .movingRotor then (r.setting + 1) % n else r.setting } := by
  unfold Rotor.advance; split <;> rfl

@[simp] theorem Rotor.advance_valid (r : Rotor) (n : Nat) : (r.advance n).valid = r.valid := by rw [Rotor.advance_eq]
@[simp] theorem Rotor.advance_kind (r : Rotor) (n : Nat) : (r.advance n).kind = r.kind := by rw [Rotor.advance_eq]
@[simp] theorem Rotor.advance_notch (r : Rotor) (n : Nat) : (r.advance n).notch = r.notch := by rw [Rotor.advance_eq]
@[simp] theorem Rotor.advance_wiring (r : Rotor) (n : Nat) : (r.advance n).wiring = r.wiring := by rw [Rotor.advance_eq]
theorem Rotor.advance_setting (r : Rotor) (n : Nat) :
    (r.advance n).setting = if r.kind = .movingRotor then (r.setting + 1) % n else r.setting := by rw [Rotor.advance_eq]

theorem Kind.ofField?_eq_none {k : BitVec 2} : Kind.ofField? k = none ↔ k = 3 := by revert k; decide

theorem Kind.ofField?_eq_some {k : BitVec 2} {kind : Kind} :
    Kind.ofField? k = some kind ↔ k.setWidth 16 = kind.code := by
  revert k; cases kind <;> decide

-- Legality.

theorem ready_iff {s : State} : s.ready = true ↔ Ready s := by simp [State.ready, Ready]

theorem readyInserted_iff {s : State} : s.readyInserted = true ↔ Ready s ∧ s.inserted = true := by
  simp [State.readyInserted, ready_iff]

theorem inMode_iff {s : State} {m : Mode} : s.inMode m = true ↔ s.seq.mode = m := by simp [State.inMode]

-- Reads after the named updates.

@[simp] theorem rotor_withRotor (s : State) (c k : Nat) (r : Rotor) :
    (s.withRotor c r).rotor k = if k = c then r else s.rotor k := by
  simp [State.rotor, Table.read_write]

theorem rotor_withSetting (s : State) (c k v : Nat) :
    (s.withSetting c v).rotor k = if k = c then { s.rotor c with setting := v } else s.rotor k := by
  simp [State.withSetting]

theorem lists_iff {q : Seq} {a : Nat} : q.lists a = true ↔ ∃ j < q.count, q.listAt j = a := by
  simp [Seq.lists]

theorem listAt_push (q : Seq) (v j : Nat) : (q.push v).listAt j = if j = q.count then v else q.listAt j := by
  simp [Seq.push, Seq.listAt, Table.read_write]

@[simp] theorem Perm.fwdAt_copyTo (src dst : Perm) (n i : Nat) :
    (src.copyTo n dst).fwdAt i = if i < n then src.fwdAt i else dst.fwdAt i := by
  simp [Perm.copyTo, Perm.fwdAt, Table.read_copyTo]

@[simp] theorem Perm.invAt_copyTo (src dst : Perm) (n i : Nat) :
    (src.copyTo n dst).invAt i = if i < n then src.invAt i else dst.invAt i := by
  simp [Perm.copyTo, Perm.invAt, Table.read_copyTo]

-- The group in construction: CYC_SYM and CYC_CLOSE.

/-- Closing a non-empty group maps its last symbol to its first (41_permutation_lookup.md R118). -/
theorem closedPerm_at {q : Seq} (h : 1 ≤ q.glen) (i : Nat) :
    q.closedPerm.fwdAt i = (if i = q.prev then q.first else q.perm.fwdAt i) ∧
      q.closedPerm.invAt i = (if i = q.first then q.prev else q.perm.invAt i) := by
  simp [Seq.closedPerm, h, Perm.fwdAt, Perm.invAt, Table.read_write]

theorem closedPerm_empty {q : Seq} (h : q.glen = 0) : q.closedPerm = q.perm := by simp [Seq.closedPerm, h]

@[simp] theorem addToGroup_mode (q : Seq) (i : Nat) : (q.addToGroup i).mode = q.mode := by unfold Seq.addToGroup; split <;> rfl
@[simp] theorem addToGroup_target (q : Seq) (i : Nat) : (q.addToGroup i).target = q.target := by
  unfold Seq.addToGroup; split <;> rfl
@[simp] theorem addToGroup_kind (q : Seq) (i : Nat) : (q.addToGroup i).kind = q.kind := by unfold Seq.addToGroup; split <;> rfl
@[simp] theorem addToGroup_notch (q : Seq) (i : Nat) : (q.addToGroup i).notch = q.notch := by unfold Seq.addToGroup; split <;> rfl
@[simp] theorem addToGroup_inGroup (q : Seq) (i : Nat) : (q.addToGroup i).inGroup = q.inGroup := by
  unfold Seq.addToGroup; split <;> rfl
@[simp] theorem addToGroup_glen (q : Seq) (i : Nat) : (q.addToGroup i).glen = q.glen + 1 := by unfold Seq.addToGroup; split <;> rfl
@[simp] theorem addToGroup_prev (q : Seq) (i : Nat) : (q.addToGroup i).prev = i := by unfold Seq.addToGroup; split <;> rfl
@[simp] theorem addToGroup_seen (q : Seq) (i : Nat) : (q.addToGroup i).seen = Table.write bitD q.seen i true := by
  unfold Seq.addToGroup; split <;> rfl
@[simp] theorem addToGroup_list (q : Seq) (i : Nat) : (q.addToGroup i).list = q.list := by unfold Seq.addToGroup; split <;> rfl
@[simp] theorem addToGroup_count (q : Seq) (i : Nat) : (q.addToGroup i).count = q.count := by unfold Seq.addToGroup; split <;> rfl
theorem addToGroup_first (q : Seq) (i : Nat) : (q.addToGroup i).first = if q.glen = 0 then i else q.first := by
  unfold Seq.addToGroup; split <;> rfl

/-- The link CYC_SYM adds: the latest index of the group maps to the new one (41_permutation_lookup.md R117). -/
theorem fwdAt_addToGroup (q : Seq) (i k : Nat) :
    (q.addToGroup i).perm.fwdAt k = if q.glen ≠ 0 ∧ k = q.prev then i else q.perm.fwdAt k := by
  unfold Seq.addToGroup
  split
  · simp [*]
  · simp [*, Perm.fwdAt, Table.read_write]

theorem invAt_addToGroup (q : Seq) (i k : Nat) :
    (q.addToGroup i).perm.invAt k = if q.glen ≠ 0 ∧ k = i then q.prev else q.perm.invAt k := by
  unfold Seq.addToGroup
  split
  · simp [*]
  · simp [*, Perm.invAt, Table.read_write]

-- The settings commit of SET_END.

/-- The settings commit touches the catalog only. -/
theorem setSlots_eq (s : State) (m : Nat) : s.setSlots m = s.withCat (s.setSlots m).cat := by
  induction m with
  | zero => rfl
  | succ m ih =>
    rw [State.setSlots, State.withSetting, State.withRotor, ih]
    rfl

/-- A rotor no slot `1 .. m` names is untouched. -/
theorem rotor_setSlots_ne (s : State) (m c : Nat) (h : ∀ k, 1 ≤ k → k ≤ m → s.slotAt k ≠ c) :
    (s.setSlots m).rotor c = s.rotor c := by
  induction m with
  | zero => rfl
  | succ m ih =>
    rw [State.setSlots, rotor_withSetting, if_neg (fun e => h (m + 1) (by omega) (by omega) e.symm)]
    exact ih fun k hk hk' => h k hk (by omega)

/-- Only settings are written. -/
theorem rotor_setSlots_fields (s : State) (m c : Nat) :
    (s.setSlots m).rotor c = { s.rotor c with setting := ((s.setSlots m).rotor c).setting } := by
  induction m with
  | zero => rfl
  | succ m ih =>
    rw [State.setSlots, rotor_withSetting]
    split
    · next h => subst h; rw [ih]
    · exact ih

/-- The rotor of slot `j + 1` takes element `j` of the list. -/
theorem setting_setSlots (s : State) (m : Nat)
    (hd : ∀ j < m, ∀ k < m, s.slotAt (j + 1) = s.slotAt (k + 1) → j = k) {j : Nat} (hj : j < m) :
    ((s.setSlots m).rotor (s.slotAt (j + 1))).setting = s.seq.listAt j := by
  induction m with
  | zero => omega
  | succ m ih =>
    rw [State.setSlots, rotor_withSetting]
    by_cases h : j = m
    · subst h; simp
    · have hne : s.slotAt (j + 1) ≠ s.slotAt (m + 1) := fun e => h (hd j (by omega) m (by omega) e)
      rw [if_neg hne]
      exact ih (fun j hj k hk => hd j (by omega) k (by omega)) (by omega)

-- The stepping rule.

theorem eligible_iff {c : Config} {k : Nat} : eligible c k = true ↔ Elig c k := by
  have := c.built
  simp only [eligible, Elig, Bool.and_eq_true, decide_eq_true_eq]; omega

theorem notchedAt_iff {s : State} {k : Nat} : s.notchedAt k = true ↔ Notched s k := Rotor.atNotch_iff

theorem ownNotch_iff {s : State} {k : Nat} :
    s.ownNotch k = true ↔ Notched s k ∧ (s.cfg.stepB = .historical → 2 ≤ k ∧ Elig s.cfg (k - 1)) := by
  unfold State.ownNotch
  cases s.cfg.stepB with
  | literal => simp [notchedAt_iff]
  | historical =>
    simp only [Bool.and_eq_true, notchedAt_iff, decide_eq_true_eq, eligible_iff, forall_const]
    have : 1 ≤ k - 1 ↔ 2 ≤ k := by omega
    rw [this]; tauto

theorem advances_iff {s : State} {k : Nat} (hk : k < s.cfg.slots) : s.advances k = true ↔ Adv s k := by
  unfold State.advances Adv
  simp only [Bool.and_eq_true, Bool.or_eq_true, eligible_iff, ownNotch_iff, notchedAt_iff, beq_iff_eq, decide_eq_true_eq]
  have h1 : k = s.cfg.slots - 1 ↔ k + 1 = s.cfg.slots := by omega
  have h2 : k + 1 ≤ s.cfg.slots - 1 ↔ k + 1 < s.cfg.slots := by omega
  rw [h1, h2, or_assoc]

/-- A rotor in no slot below `m` is untouched by the batch. -/
theorem read_advancedCat_ne (s : State) (m c : Nat) (h : ∀ k < m, s.slotAt k ≠ c) :
    Table.read rotorD (s.advancedCat m) c = s.rotor c := by
  induction m with
  | zero => rfl
  | succ m ih =>
    have hi := ih fun k hk => h k (by omega)
    rw [State.advancedCat]
    split
    · rw [Table.read_write_ne _ _ (Ne.symm (h m (by omega)))]; exact hi
    · exact hi

/-- The batch gives the rotor of slot `k` its advance, computed from the state before, when the slot advances. -/
theorem read_advancedCat (s : State) (m : Nat) (hd : ∀ j < m, ∀ k < m, s.slotAt j = s.slotAt k → j = k) {k : Nat}
    (hk : k < m) :
    Table.read rotorD (s.advancedCat m) (s.slotAt k) =
      if s.advances k then (s.slotRotor k).advance s.alpha.n else s.slotRotor k := by
  induction m with
  | zero => omega
  | succ m ih =>
    rw [State.advancedCat]
    by_cases h : k = m
    · subst h
      have hne : Table.read rotorD (s.advancedCat k) (s.slotAt k) = s.slotRotor k :=
        read_advancedCat_ne s k _ fun j hj e => absurd (hd j (by omega) k (by omega) e) (by omega)
      split
      · next ha => rw [Table.read_write_self]
      · exact hne
    · have hne : s.slotAt k ≠ s.slotAt m := fun e => h (hd k (by omega) m (by omega) e)
      have hi := ih (fun j hj k hk => hd j (by omega) k (by omega)) (by omega)
      split
      · rw [Table.read_write_ne _ _ hne]; exact hi
      · exact hi

/-- The batch writes settings only. -/
theorem read_advancedCat_fields (s : State) (m c : Nat) :
    Table.read rotorD (s.advancedCat m) c =
      { s.rotor c with setting := (Table.read rotorD (s.advancedCat m) c).setting } := by
  induction m with
  | zero => rfl
  | succ m ih =>
    rw [State.advancedCat]
    split
    · rw [Table.read_write]
      split
      · next h => subst h; rw [Rotor.advance_eq]
      · exact ih
    · exact ih

@[simp] theorem stepRotors_cfg (s : State) : s.stepRotors.cfg = s.cfg := rfl
@[simp] theorem stepRotors_alpha (s : State) : s.stepRotors.alpha = s.alpha := rfl
@[simp] theorem stepRotors_cat (s : State) : s.stepRotors.cat = s.advancedCat s.cfg.slots := rfl
@[simp] theorem stepRotors_plug (s : State) : s.stepRotors.plug = s.plug := rfl
@[simp] theorem stepRotors_inserted (s : State) : s.stepRotors.inserted = s.inserted := rfl
@[simp] theorem stepRotors_slot (s : State) : s.stepRotors.slot = s.slot := rfl
@[simp] theorem stepRotors_seq (s : State) : s.stepRotors.seq = s.seq := rfl
@[simp] theorem stepRotors_fsr (s : State) : s.stepRotors.fsr = s.fsr := rfl
@[simp] theorem stepRotors_inbox (s : State) : s.stepRotors.inbox = s.inbox := rfl
@[simp] theorem stepRotors_outbox (s : State) : s.stepRotors.outbox = s.outbox := rfl

theorem rotor_stepRotors_fields (s : State) (c : Nat) :
    s.stepRotors.rotor c = { s.rotor c with setting := (s.stepRotors.rotor c).setting } :=
  read_advancedCat_fields s s.cfg.slots c

@[simp] theorem rotor_stepRotors_valid (s : State) (c : Nat) : (s.stepRotors.rotor c).valid = (s.rotor c).valid := by
  rw [rotor_stepRotors_fields]
@[simp] theorem rotor_stepRotors_kind (s : State) (c : Nat) : (s.stepRotors.rotor c).kind = (s.rotor c).kind := by
  rw [rotor_stepRotors_fields]
@[simp] theorem rotor_stepRotors_notch (s : State) (c : Nat) : (s.stepRotors.rotor c).notch = (s.rotor c).notch := by
  rw [rotor_stepRotors_fields]
@[simp] theorem rotor_stepRotors_wiring (s : State) (c : Nat) : (s.stepRotors.rotor c).wiring = (s.rotor c).wiring := by
  rw [rotor_stepRotors_fields]

theorem rotor_stepRotors_slot (s : State) (hd : SlotsDiffer s) {k : Nat} (hk : k < s.cfg.slots) :
    s.stepRotors.rotor (s.slotAt k) = if s.advances k then (s.slotRotor k).advance s.alpha.n else s.slotRotor k :=
  read_advancedCat s s.cfg.slots hd hk

theorem rotor_stepRotors_ne (s : State) {c : Nat} (h : ∀ k < s.cfg.slots, s.slotAt k ≠ c) :
    s.stepRotors.rotor c = s.rotor c :=
  read_advancedCat_ne s s.cfg.slots c h

end Sys2Proof.Machine
end

