-- ==== Sys2Proof/Laws/Exec.lean ====
section
/-! SUPPORT. What a command can do, said once: it takes a fault, or its checks held and its writes are those listed here. -/

namespace Sys2Proof.Machine

/-- Command `i` passes its checks in state `s`, its writes give `u`, and it responds `v`. -/
def Effect (i : Instr) (s u : State) (v : Half) : Prop :=
  match i with
  | .stat => u = s ∧ v = s.fsr.statValue
  | .alphaBegin => s.seq.mode = .idle ∧ s.alpha.isSealed = false ∧
      u = (s.withAlpha { s.alpha with n := 0 }).withMode .alpha ∧ v = 0
  | .alphaSym c => s.seq.mode = .alpha ∧ ¬Reserved c ∧ ¬HasSym s.alpha c ∧ s.alpha.n ≠ s.cfg.nmax ∧
      u = s.withAlpha { s.alpha with sym := Table.write symD s.alpha.sym s.alpha.n c, n := s.alpha.n + 1 } ∧ v = 0
  | .alphaEnd => s.seq.mode = .alpha ∧ s.alpha.n ≠ 0 ∧
      u = (s.withAlpha { s.alpha with isSealed := true }).withMode .idle ∧ v = 0
  | .alphaSize => Ready s ∧ u = s ∧ v = valOfNat s.alpha.n
  | .alphaTochar i => Ready s ∧ 0 ≤ i ∧ i < s.alpha.n ∧ u = s ∧ v = s.alpha.symAt i.toNat
  | .alphaToint c => Ready s ∧ u = s ∧ ∃ i, IsIndexOf s.alpha c i ∧ v = valOfNat i
  | .alphaHas c => Ready s ∧ u = s ∧ v = valOfBool (s.alpha.contains c)
  | .bldBegin a k => Ready s ∧ v = 0 ∧
      ((a = 0xFF ∧ k = 0 ∧ u = s.withSeq (s.seq.openPerm a .reflector)) ∨
        (a ≠ 0xFF ∧ a < s.cfg.cmax ∧ (s.rotor a).valid = false ∧
          ∃ kind, Kind.ofField? k = some kind ∧ u = s.withSeq (s.seq.openPerm a kind)))
  | .bldNotch c => InPerm s false ∧ s.seq.target ≠ 0xFF ∧ s.seq.kind = .movingRotor ∧ v = 0 ∧
      ∃ i, IsIndexOf s.alpha c i ∧ u = s.withSeq { s.seq with notch := Table.write bitD s.seq.notch i true }
  | .cycOpen => InPerm s false ∧ u = s.withSeq { s.seq with inGroup := true, glen := 0 } ∧ v = 0
  | .cycSym c => InPerm s true ∧ v = 0 ∧
      ∃ i, IsIndexOf s.alpha c i ∧ s.seq.seenAt i = false ∧ u = s.withSeq (s.seq.addToGroup i)
  | .cycClose => InPerm s true ∧ u = s.withSeq { s.seq with perm := s.seq.closedPerm, inGroup := false } ∧ v = 0
  | .bldEnd => InPerm s false ∧ v = 0 ∧
      (s.seq.target ≠ 0xFF → s.seq.kind = .reflector → s.seq.perm.DerangedOn s.alpha.n) ∧
      ((s.seq.target = 0xFF ∧ u = (s.withPlug (s.seq.perm.copyTo s.alpha.n s.plug)).withMode .idle) ∨
        (s.seq.target ≠ 0xFF ∧
          u = (s.withRotor s.seq.target (s.seq.commitTo s.alpha.n (s.rotor s.seq.target))).withMode .idle))
  | .permuteIdx a i => Ready s ∧ u = s ∧ ∃ p, Names s a p ∧ v = valOfNat (p.permute s.alpha.n i)
  | .invertIdx a i => Ready s ∧ u = s ∧ ∃ p, Names s a p ∧ v = valOfNat (p.invert s.alpha.n i)
  | .permuteSym a c => Ready s ∧ u = s ∧
      ∃ p, Names s a p ∧ ∃ i, IsIndexOf s.alpha c i ∧ v = s.alpha.symAt (p.permute s.alpha.n i)
  | .invertSym a c => Ready s ∧ u = s ∧
      ∃ p, Names s a p ∧ ∃ i, IsIndexOf s.alpha c i ∧ v = s.alpha.symAt (p.invert s.alpha.n i)
  | .deranged a => Ready s ∧ u = s ∧ ∃ p, Names s a p ∧ v = valOfBool (p.derangement s.alpha.n)
  | .rotKind a => Ready s ∧ IsRotor s a ∧ u = s ∧ v = (s.rotor a).kind.code
  | .rotGet a => Ready s ∧ IsRotor s a ∧ u = s ∧ v = valOfNat (s.rotor a).setting
  | .rotSetIdx a x => Ready s ∧ IsRotor s a ∧ 0 ≤ x ∧ x < s.alpha.n ∧ ((s.rotor a).kind = .reflector → x = 0) ∧
      u = s.withSetting a x.toNat ∧ v = 0
  | .rotSetSym a c => Ready s ∧ IsRotor s a ∧ v = 0 ∧
      ∃ i, IsIndexOf s.alpha c i ∧ ((s.rotor a).kind = .reflector → i = 0) ∧ u = s.withSetting a i
  | .rotFwd a i => Ready s ∧ IsRotor s a ∧ u = s ∧ v = valOfNat ((s.rotor a).convertForward s.alpha.n i)
  | .rotBwd a i => Ready s ∧ IsRotor s a ∧ u = s ∧ v = valOfNat ((s.rotor a).convertBackward s.alpha.n i)
  | .rotAdv a => Ready s ∧ IsRotor s a ∧ u = s.withRotor a ((s.rotor a).advance s.alpha.n) ∧ v = 0
  | .rotAtnotch a => Ready s ∧ IsRotor s a ∧ u = s ∧ v = valOfBool (s.rotor a).atNotch
  | .insBegin => Ready s ∧ u = s.withSeq { s.seq with count := 0, mode := .ins } ∧ v = 0
  | .insName a => s.seq.mode = .ins ∧ s.seq.count ≠ s.cfg.slots ∧ IsRotor s a ∧
      (∀ j < s.seq.count, s.seq.listAt j ≠ a) ∧ u = s.withSeq (s.seq.push a) ∧ v = 0
  | .insEnd => s.seq.mode = .ins ∧ s.cfg.slots ≤ s.seq.count ∧
      (s.rotor (s.seq.listAt 0)).wiring.DerangedOn s.alpha.n ∧
      u = (s.withSlots (Table.copyTo numD s.seq.list s.cfg.slots s.slot)).withMode .idle ∧ v = 0
  | .setBegin => Ready s ∧ s.inserted = true ∧ u = s.withSeq { s.seq with count := 0, mode := .set } ∧ v = 0
  | .setSym c => s.seq.mode = .set ∧ s.seq.count ≠ s.cfg.slots - 1 ∧ v = 0 ∧
      ∃ i, IsIndexOf s.alpha c i ∧ ((s.slotRotor (s.seq.count + 1)).kind = .reflector → i = 0) ∧
        u = s.withSeq (s.seq.push i)
  | .setEnd => s.seq.mode = .set ∧ s.cfg.slots - 1 ≤ s.seq.count ∧
      u = (s.setSlots (s.cfg.slots - 1)).withMode .idle ∧ v = 0
  | .convIdx i => Ready s ∧ s.inserted = true ∧ u = s.stepRotors ∧ v = valOfNat (s.stepRotors.path i)
  | .convSym c => Ready s ∧ s.inserted = true ∧ u = s.stepRotors ∧
      ∃ i, IsIndexOf s.alpha c i ∧ v = s.alpha.symAt (s.stepRotors.path i)
  | .slotGet a => Ready s ∧ s.inserted = true ∧ a < s.cfg.slots ∧ u = s ∧ v = valOfNat (s.slotAt a)

/-- A result is a fault of `s`, or an answer the command's effect backs. -/
def Covers (i : Instr) (s : State) (r : Result) : Prop :=
  (∃ f, r = .next (s.takeFault f)) ∨ ∃ u v, Effect i s u v ∧ r = .next (u.reply (okWord v))

theorem covers_raise (i : Instr) (s : State) (f : FaultCode) : Covers i s (raise f s) := .inl ⟨f, rfl⟩

theorem covers_respond {i : Instr} {s u : State} {v : Half} (h : Effect i s u v) : Covers i s (respond v u) :=
  .inr ⟨u, v, h, rfl⟩

/-- A check of a meaning: the fault where it holds, the rest where it does not. -/
theorem covers_check {i : Instr} {s : State} {c : Prop} [Decidable c] {f : FaultCode} {r : Result}
    (h : ¬c → Covers i s r) : Covers i s (if c then raise f s else r) := by
  split
  · exact covers_raise i s f
  · exact h ‹_›

/-- A symbol operand of a meaning: the fault where it is absent, the rest with its index where it is not. -/
theorem covers_toInt {i : Instr} {s : State} {c : Sym} {f : FaultCode} {k : Nat → Result}
    (h : ∀ j, IsIndexOf s.alpha c j → Covers i s (k j)) :
    Covers i s (match s.alpha.toInt? c with | none => raise f s | some j => k j) := by
  split
  · exact covers_raise i s f
  · next j hj => exact h j (toInt?_eq_some.mp hj)

/-- A target operand of a meaning: the fault where it names nothing, the rest with its permutation where it does. -/
theorem covers_target {i : Instr} {s : State} {a : Nat} {f : FaultCode} {k : Perm → Result}
    (h : ∀ p, Names s a p → Covers i s (k p)) :
    Covers i s (match s.target? a with | none => raise f s | some p => k p) := by
  split
  · exact covers_raise i s f
  · next p hp => exact h p (target?_eq_some.mp hp)

/-- Everything a command can do. -/
theorem exec_covers (i : Instr) (s : State) : Covers i s (exec i s) := by
  cases i with
  | stat => exact covers_respond ⟨rfl, rfl⟩
  | alphaBegin =>
    refine covers_check fun h => covers_respond ?_
    simpa [Effect, inMode_iff] using h
  | alphaSym c =>
    refine covers_check fun h1 => covers_check fun h2 => covers_check fun h3 => covers_check fun h4 => covers_respond ?_
    simp only [not_not, inMode_iff, isReservedSym_iff, contains_iff] at h1 h2 h3
    exact ⟨h1, h2, h3, h4, rfl, rfl⟩
  | alphaEnd =>
    refine covers_check fun h1 => covers_check fun h2 => covers_respond ?_
    simp only [not_not, inMode_iff] at h1
    exact ⟨h1, h2, rfl, rfl⟩
  | alphaSize =>
    refine covers_check fun h => covers_respond ?_
    simp only [not_not, ready_iff] at h
    exact ⟨h, rfl, rfl⟩
  | alphaTochar x =>
    refine covers_check fun h => covers_check fun h2 => covers_respond ?_
    simp only [not_not, ready_iff] at h
    exact ⟨h, by omega, by omega, rfl, rfl⟩
  | alphaToint c =>
    refine covers_check fun h => covers_toInt fun j hj => covers_respond ?_
    simp only [not_not, ready_iff] at h
    exact ⟨h, rfl, j, hj, rfl⟩
  | alphaHas c =>
    refine covers_check fun h => covers_respond ?_
    simp only [not_not, ready_iff] at h
    exact ⟨h, rfl, rfl⟩
  | bldBegin a k =>
    refine covers_check fun h => ?_
    simp only [not_not, ready_iff] at h
    by_cases ha : a = plugTarget
    · rw [if_pos ha]
      refine covers_check fun hk => covers_respond ?_
      exact ⟨h, rfl, .inl ⟨ha, by simpa using hk, rfl⟩⟩
    · rw [if_neg ha]
      cases hk : Kind.ofField? k with
      | none => exact covers_raise _ _ _
      | some kind =>
        refine covers_check fun h1 => covers_check fun h2 => covers_respond ?_
        exact ⟨h, rfl, .inr ⟨ha, by omega, by simpa using h2, kind, hk, rfl⟩⟩
  | bldNotch c =>
    refine covers_check fun h => covers_toInt fun j hj => covers_respond ?_
    simp only [not_not, inMode_iff, Bool.not_eq_true] at h
    exact ⟨⟨h.1, h.2.1⟩, h.2.2.1, h.2.2.2, rfl, j, hj, rfl⟩
  | cycOpen =>
    refine covers_check fun h => covers_respond ?_
    simp only [not_not, inMode_iff, Bool.not_eq_true] at h
    exact ⟨h, rfl, rfl⟩
  | cycSym c =>
    refine covers_check fun h => covers_toInt fun j hj => covers_check fun h2 => covers_respond ?_
    simp only [not_not, inMode_iff] at h
    exact ⟨h, rfl, j, hj, by simpa using h2, rfl⟩
  | cycClose =>
    refine covers_check fun h => covers_respond ?_
    simp only [not_not, inMode_iff] at h
    exact ⟨h, rfl, rfl⟩
  | bldEnd =>
    refine covers_check fun h => covers_check fun h2 => ?_
    simp only [not_not, inMode_iff, Bool.not_eq_true] at h
    have hd : s.seq.target ≠ 0xFF → s.seq.kind = .reflector → s.seq.perm.DerangedOn s.alpha.n := fun ht hk =>
      derangement_iff.mp (by by_contra hn; exact h2 ⟨ht, hk, hn⟩)
    by_cases ht : s.seq.target = plugTarget
    · rw [if_pos ht]
      exact covers_respond ⟨h, rfl, hd, .inl ⟨ht, rfl⟩⟩
    · rw [if_neg ht]
      exact covers_respond ⟨h, rfl, hd, .inr ⟨ht, rfl⟩⟩
  | permuteIdx a x =>
    refine covers_check fun h => covers_target fun p hp => covers_respond ?_
    simp only [not_not, ready_iff] at h
    exact ⟨h, rfl, p, hp, rfl⟩
  | invertIdx a x =>
    refine covers_check fun h => covers_target fun p hp => covers_respond ?_
    simp only [not_not, ready_iff] at h
    exact ⟨h, rfl, p, hp, rfl⟩
  | permuteSym a c =>
    refine covers_check fun h => covers_target fun p hp => covers_toInt fun j hj => covers_respond ?_
    simp only [not_not, ready_iff] at h
    exact ⟨h, rfl, p, hp, j, hj, rfl⟩
  | invertSym a c =>
    refine covers_check fun h => covers_target fun p hp => covers_toInt fun j hj => covers_respond ?_
    simp only [not_not, ready_iff] at h
    exact ⟨h, rfl, p, hp, j, hj, rfl⟩
  | deranged a =>
    refine covers_check fun h => covers_target fun p hp => covers_respond ?_
    simp only [not_not, ready_iff] at h
    exact ⟨h, rfl, p, hp, rfl⟩
  | rotKind a =>
    refine covers_check fun h => covers_check fun h2 => covers_respond ?_
    simp only [not_not, ready_iff, isRotor_iff] at h h2
    exact ⟨h, h2, rfl, rfl⟩
  | rotGet a =>
    refine covers_check fun h => covers_check fun h2 => covers_respond ?_
    simp only [not_not, ready_iff, isRotor_iff] at h h2
    exact ⟨h, h2, rfl, rfl⟩
  | rotSetIdx a x =>
    refine covers_check fun h => covers_check fun h2 => covers_check fun h3 => covers_check fun h4 => covers_respond ?_
    simp only [not_not, ready_iff, isRotor_iff] at h h2
    exact ⟨h, h2, by omega, by omega, fun hk => by by_contra hx; exact h4 ⟨hk, hx⟩, rfl, rfl⟩
  | rotSetSym a c =>
    refine covers_check fun h => covers_check fun h2 => covers_toInt fun j hj => covers_check fun h4 => covers_respond ?_
    simp only [not_not, ready_iff, isRotor_iff] at h h2
    exact ⟨h, h2, rfl, j, hj, fun hk => by by_contra hx; exact h4 ⟨hk, hx⟩, rfl⟩
  | rotFwd a x =>
    refine covers_check fun h => covers_check fun h2 => covers_respond ?_
    simp only [not_not, ready_iff, isRotor_iff] at h h2
    exact ⟨h, h2, rfl, rfl⟩
  | rotBwd a x =>
    refine covers_check fun h => covers_check fun h2 => covers_respond ?_
    simp only [not_not, ready_iff, isRotor_iff] at h h2
    exact ⟨h, h2, rfl, rfl⟩
  | rotAdv a =>
    refine covers_check fun h => covers_check fun h2 => covers_respond ?_
    simp only [not_not, ready_iff, isRotor_iff] at h h2
    exact ⟨h, h2, rfl, rfl⟩
  | rotAtnotch a =>
    refine covers_check fun h => covers_check fun h2 => covers_respond ?_
    simp only [not_not, ready_iff, isRotor_iff] at h h2
    exact ⟨h, h2, rfl, rfl⟩
  | insBegin =>
    refine covers_check fun h => covers_respond ?_
    simp only [not_not, ready_iff] at h
    exact ⟨h, rfl, rfl⟩
  | insName a =>
    refine covers_check fun h => covers_check fun h2 => covers_check fun h3 => covers_check fun h4 => covers_respond ?_
    simp only [not_not, inMode_iff, isRotor_iff, lists_iff, not_exists, not_and] at h h3 h4
    exact ⟨h, h2, h3, h4, rfl, rfl⟩
  | insEnd =>
    refine covers_check fun h => covers_check fun h2 => covers_check fun h3 => covers_respond ?_
    simp only [not_not, inMode_iff, derangement_iff] at h h3
    exact ⟨h, by omega, h3, rfl, rfl⟩
  | setBegin =>
    refine covers_check fun h => covers_respond ?_
    simp only [not_not, readyInserted_iff] at h
    exact ⟨h.1, h.2, rfl, rfl⟩
  | setSym c =>
    refine covers_check fun h => covers_check fun h2 => covers_toInt fun j hj => covers_check fun h4 => covers_respond ?_
    simp only [not_not, inMode_iff] at h
    exact ⟨h, h2, rfl, j, hj, fun hk => by by_contra hx; exact h4 ⟨hk, hx⟩, rfl⟩
  | setEnd =>
    refine covers_check fun h => covers_check fun h2 => covers_respond ?_
    simp only [not_not, inMode_iff] at h
    exact ⟨h, by omega, rfl, rfl⟩
  | convIdx x =>
    refine covers_check fun h => covers_respond ?_
    simp only [not_not, readyInserted_iff] at h
    exact ⟨h.1, h.2, rfl, rfl⟩
  | convSym c =>
    refine covers_check fun h => covers_toInt fun j hj => covers_respond ?_
    simp only [not_not, readyInserted_iff] at h
    exact ⟨h.1, h.2, rfl, j, hj, rfl⟩
  | slotGet a =>
    refine covers_check fun h => covers_check fun h2 => covers_respond ?_
    simp only [not_not, readyInserted_iff] at h
    exact ⟨h.1, h.2, by omega, rfl, rfl⟩

/-- Inversion of a command that gave a next state. -/
theorem exec_cases {i : Instr} {s t : State} (h : exec i s = .next t) :
    (∃ f, t = s.takeFault f) ∨ ∃ u v, Effect i s u v ∧ t = u.reply (okWord v) := by
  rcases exec_covers i s with ⟨f, hf⟩ | ⟨u, v, hu, hv⟩
  · exact .inl ⟨f, by rw [hf] at h; injection h with h; exact h.symm⟩
  · exact .inr ⟨u, v, hu, by rw [hv] at h; injection h with h; exact h.symm⟩

/-- No effect touches the parameters, the fault register or the two channels. -/
theorem effect_frame {i : Instr} {s u : State} {v : Half} (h : Effect i s u v) :
    u.outbox = s.outbox ∧ u.inbox = s.inbox ∧ u.cfg = s.cfg ∧ u.fsr = s.fsr := by
  cases i <;> simp only [Effect] at h
  case setEnd => rw [h.2.2.1, setSlots_eq]; simp
  all_goals first
  | (obtain ⟨h1, h2⟩ := h; subst h1; simp)
  | (obtain ⟨_, h1, h2⟩ := h; subst h1; simp)
  | (obtain ⟨_, _, h1, h2⟩ := h; subst h1; simp)
  | (obtain ⟨_, _, _, h1, h2⟩ := h; subst h1; simp)
  | (obtain ⟨_, _, _, _, h1, h2⟩ := h; subst h1; simp)
  | (obtain ⟨_, _, _, _, _, h1, h2⟩ := h; subst h1; simp)
  | (obtain ⟨_, _, _, h⟩ := h; rcases h with ⟨_, h⟩ | ⟨_, h⟩ <;> subst h <;> simp)
  | (obtain ⟨_, _, h⟩ := h; rcases h with ⟨_, _, h⟩ | ⟨_, _, _, _, _, h⟩ <;> subst h <;> simp)
  | (obtain ⟨_, _, _, _, i, _, h⟩ := h; subst h; simp)
  | (obtain ⟨_, _, i, _, _, h⟩ := h; subst h; simp)

theorem FaultCode.code_ne_zero (f : FaultCode) : f.code ≠ 0 := by cases f <;> decide

@[simp] theorem opField_okWord (v : Half) : opField (okWord v) = 0 := by simp [okWord]
@[simp] theorem vField_okWord (v : Half) : vField (okWord v) = v := by simp [okWord]
@[simp] theorem opField_faultWord (f : FaultCode) : opField (faultWord f) = f.code := by simp [faultWord]
@[simp] theorem vField_faultWord (f : FaultCode) : vField (faultWord f) = 0 := by simp [faultWord]

theorem okWord_ne_faultWord (v : Half) (f : FaultCode) : okWord v ≠ faultWord f := fun h =>
  f.code_ne_zero (by simpa using (congrArg opField h).symm)

/-- A state and the response it gave are found again in the state after the response. -/
theorem State.reply_inj {t u : State} {w x : Word} (h : t.reply w = u.reply x) : t = u ∧ w = x := by
  have ho : t.outbox ++ [w] = u.outbox ++ [x] := congrArg State.outbox h
  obtain ⟨h1, h2⟩ := List.append_inj' ho rfl
  refine ⟨?_, by simpa using h2⟩
  cases t; cases u
  simp only [State.reply, State.mk.injEq] at h h1 ⊢
  tauto

/-- The response of a command says which of the two ways it ended. -/
theorem exec_word {i : Instr} {s t : State} {w : Word} (h : exec i s = .next t) (ho : t.outbox = s.outbox ++ [w]) :
    (∃ f, t = s.takeFault f ∧ w = faultWord f) ∨ ∃ u v, Effect i s u v ∧ t = u.reply (okWord v) ∧ w = okWord v := by
  rcases exec_cases h with ⟨f, rfl⟩ | ⟨u, v, hu, rfl⟩
  · exact .inl ⟨f, rfl, by simpa using ho.symm⟩
  · exact .inr ⟨u, v, hu, rfl, by simpa [(effect_frame hu).1] using ho.symm⟩

/-- A command that answers had its effect. -/
theorem effect_of_answers {i : Instr} {s t : State} {v : Half} (h : Answers i s t v) : Effect i s t v := by
  rcases exec_cases h with ⟨f, hf⟩ | ⟨u, v', hu, he⟩
  · have ho := congrArg (fun x : State => x.outbox.getLast?) hf
    simp at ho
    exact absurd ho (okWord_ne_faultWord v f)
  · obtain ⟨rfl, hw⟩ := State.reply_inj he
    have : v = v' := by simpa using congrArg vField hw
    exact this ▸ hu

end Sys2Proof.Machine
end

