-- ==== Sys2Proof/Laws/Invariant.lean ====
section
/-! SUPPORT. The predicates of Safety.lean as checks that evaluate, so that a concrete state can be shown to meet the invariant. The catalog is checked
over its listed entries: an unlisted entry is as reset leaves it. -/

namespace Sys2Proof.Machine

/-- `Perm.BijOn`, evaluated. -/
def Perm.bijB (n : Nat) (p : Perm) : Bool :=
  (List.range n).all fun i => decide (p.fwdAt i < n ∧ p.invAt i < n ∧ p.invAt (p.fwdAt i) = i ∧ p.fwdAt (p.invAt i) = i)

theorem Perm.bijB_iff {n : Nat} {p : Perm} : p.bijB n = true ↔ p.BijOn n := by simp [Perm.bijB, Perm.BijOn]

/-- `Perm.DerangedOn`, evaluated. -/
def Perm.derangedB (n : Nat) (p : Perm) : Bool := (List.range n).all fun i => decide (p.fwdAt i ≠ i)

theorem Perm.derangedB_iff {n : Nat} {p : Perm} : p.derangedB n = true ↔ p.DerangedOn n := by
  simp [Perm.derangedB, Perm.DerangedOn]

/-- `Perm.InvolutionOn`, evaluated. -/
def Perm.involutionB (n : Nat) (p : Perm) : Bool := (List.range n).all fun i => decide (p.fwdAt (p.fwdAt i) = i)

theorem Perm.involutionB_iff {n : Nat} {p : Perm} : p.involutionB n = true ↔ p.InvolutionOn n := by
  simp [Perm.involutionB, Perm.InvolutionOn]

/-- `RotorOk`, evaluated. -/
def Rotor.okB (n : Nat) (r : Rotor) : Bool :=
  decide (r.setting < n) && r.wiring.bijB n && (decide (r.kind ≠ .reflector) || (r.setting == 0 && r.wiring.derangedB n)) &&
    (decide (r.kind = .movingRotor) || (List.range n).all fun i => !r.notchAt i)

theorem Rotor.ok_of_okB {n : Nat} {r : Rotor} (h : r.okB n = true) : RotorOk n r := by
  simp only [Rotor.okB, Bool.and_eq_true, Bool.or_eq_true, decide_eq_true_eq, Perm.bijB_iff, Perm.derangedB_iff,
    beq_iff_eq] at h
  obtain ⟨⟨⟨h1, h2⟩, h3⟩, h4⟩ := h
  refine ⟨h1, h2, fun hk => ?_, fun hk i hi => ?_⟩
  · rcases h3 with h3 | h3
    · exact absurd hk h3
    · exact h3
  · rcases h4 with h4 | h4
    · exact absurd h4 hk
    · simpa using List.all_eq_true.mp h4 i (by simpa using hi)

/-- `IsRotor`, evaluated. -/
def State.rotorB (s : State) (a : Nat) : Bool := decide (a < s.cfg.cmax) && (s.rotor a).valid

theorem State.rotorB_iff {s : State} {a : Nat} : s.rotorB a = true ↔ IsRotor s a := by
  simp [State.rotorB, IsRotor]

/-- What the invariant asks of one listed catalog entry. -/
def State.entryB (s : State) (e : Nat × Rotor) : Bool :=
  decide (e.1 < s.cfg.cmax ∧ Table.within s.cfg.nmax e.2.notch ∧ Table.within s.cfg.nmax e.2.wiring.fwd ∧
    Table.within s.cfg.nmax e.2.wiring.inv) && (!e.2.valid || (s.alpha.isSealed && e.2.okB s.alpha.n))

/-- What the invariant asks of every catalog entry, from the listed ones. -/
theorem State.entry_of_entryB {s : State} (h : s.cat.all s.entryB = true) (c : Nat) :
    (Table.within s.cfg.nmax (s.rotor c).notch ∧ Table.within s.cfg.nmax (s.rotor c).wiring.fwd ∧
      Table.within s.cfg.nmax (s.rotor c).wiring.inv) ∧
    ((s.rotor c).valid = true → (s.alpha.isSealed = true ∧ c < s.cfg.cmax) ∧ RotorOk s.alpha.n (s.rotor c)) := by
  unfold State.rotor Table.read
  cases hf : Table.find s.cat c with
  | none => exact ⟨by simp [Rotor.reset, Perm.identity, Table.within], fun hv => by cases hv⟩
  | some r =>
    have he := List.all_eq_true.mp h _ (Table.mem_of_find hf)
    simp only [State.entryB, Bool.and_eq_true, Bool.or_eq_true, decide_eq_true_eq, Bool.not_eq_true'] at he
    refine ⟨he.1.2, fun hv => ?_⟩
    rcases he.2 with h0 | h0
    · exact absurd hv (by simp only [Option.getD_some]; simp [h0])
    · exact ⟨⟨h0.1, he.1.1⟩, Rotor.ok_of_okB h0.2⟩

/-- The tables other than the catalog within their capacity. -/
def State.capacityB (s : State) : Bool :=
  decide (Table.within s.cfg.nmax s.alpha.sym ∧ Table.within s.cfg.cmax s.cat ∧ Table.within s.cfg.nmax s.plug.fwd ∧
    Table.within s.cfg.nmax s.plug.inv ∧ Table.within s.cfg.slots s.slot ∧ Table.within s.cfg.nmax s.seq.perm.fwd ∧
    Table.within s.cfg.nmax s.seq.perm.inv ∧ Table.within s.cfg.nmax s.seq.seen ∧ Table.within s.cfg.nmax s.seq.notch ∧
    Table.within s.cfg.slots s.seq.list)

/-- The alphabet: pairwise different symbols, none reserved, at most NMAX. -/
def State.alphaB (s : State) : Bool :=
  decide (s.alpha.n ≤ s.cfg.nmax) && (s.alpha.isSealed == false || decide (1 ≤ s.alpha.n)) &&
    (List.range s.alpha.n).all fun i => !isReservedSym (s.alpha.symAt i) &&
      (List.range s.alpha.n).all fun j => decide (s.alpha.symAt i = s.alpha.symAt j → i = j)

/-- The insertion. -/
def State.insertionB (s : State) : Bool :=
  (List.range s.cfg.slots).all (fun k => s.rotorB (s.slotAt k)) &&
    (List.range s.cfg.slots).all (fun j => (List.range s.cfg.slots).all fun k => decide (s.slotAt j = s.slotAt k → j = k)) &&
    (s.slotRotor 0).wiring.derangedB s.alpha.n

/-- A state with a sealed alphabet that is between sequences meets the invariant when its parts pass the checks. -/
theorem inv_of_idle {s : State} (ht : Memory.wf s) (hcap : s.capacityB = true) (ha : s.alphaB = true)
    (hs : s.alpha.isSealed = true) (hm : s.seq.mode = .idle) (hp : s.plug.bijB s.alpha.n = true)
    (hc : s.cat.all s.entryB = true) (hi : (!s.inserted || s.insertionB) = true)
    (hf : s.fsr = { any := false, code := 0 }) : Inv s := by
  have hentry := State.entry_of_entryB hc
  simp only [State.capacityB, decide_eq_true_eq] at hcap
  obtain ⟨c1, c2, c3, c4, c5, c6, c7, c8, c9, c10⟩ := hcap
  simp only [State.alphaB, Bool.and_eq_true, Bool.or_eq_true, decide_eq_true_eq, beq_iff_eq, List.all_eq_true,
    List.mem_range, Bool.not_eq_true'] at ha
  obtain ⟨⟨a1, a2⟩, a3⟩ := ha
  have hins : s.inserted = true → InsertionOk s := fun h => by
    simp only [h, Bool.not_true, Bool.false_or, State.insertionB, Bool.and_eq_true, List.all_eq_true, List.mem_range,
      State.rotorB_iff, decide_eq_true_eq, Perm.derangedB_iff] at hi
    exact ⟨hi.1.1, hi.1.2, hi.2⟩
  refine { tables := ht, capacity := ⟨c1, c2, fun c => (hentry c).1, ⟨c3, c4⟩, c5, ⟨c6, c7, c8, c9⟩, c10⟩, size := a1,
           symDiffer := fun i hi => (a3 i hi).2, symFree := fun i hi hr => ?_, sealedSize := fun h => ?_,
           unsealedIdle := fun h => absurd hs (by simp [h]), modeSeal := fun h => absurd hm h,
           plugUnsealed := fun h => absurd hs (by simp [h]), plug := Perm.bijB_iff.mp hp,
           rotorSealed := fun c hv => ((hentry c).2 hv).1, rotors := fun c hv => ((hentry c).2 hv).2,
           insertedSealed := fun _ => hs, insertion := hins, staging := fun h => absurd hm (by simp [h]),
           insList := fun h => absurd hm (by simp [h]), setList := fun h => absurd hm (by simp [h]),
           fsr := .inl ?_ }
  · have := (a3 i hi).1
    simp only [isReservedSym, Bool.or_eq_false_iff, beq_eq_false_iff_ne] at this
    rcases hr with hr | hr | hr
    · exact this.1.1 hr
    · exact this.1.2 hr
    · exact this.2 hr
  · rcases a2 with h0 | h0
    · exact absurd h (by simp [h0])
    · exact h0
  · rw [hf]; exact ⟨rfl, rfl⟩

end Sys2Proof.Machine
end

