-- ==== Sys2Proof/Laws/Memory.lean ====
section
/-! SUPPORT. Every operation over the table memories, and so every way a command or a reset can end, keeps the tables in canonical form, and reset's
tables have it (notes/assumptions/10.md). -/

namespace Sys2Proof.Machine

theorem Rotor.wf_reset : Rotor.reset.wf := by decide

/-- The catalog entry read at any number is in canonical form. -/
theorem Memory.wf_rotor {s : State} (h : Memory.wf s) (c : Nat) : (s.rotor c).wf := by
  unfold State.rotor Table.read
  cases hf : Table.find s.cat c with
  | none => exact Rotor.wf_reset
  | some r => exact h.2.2.1 _ (Table.mem_of_find hf)

theorem Perm.wf_copyTo {src dst : Perm} (h : dst.wf) (n : Nat) : (src.copyTo n dst).wf :=
  ⟨Table.wf_copyTo h.1 n, Table.wf_copyTo h.2 n⟩

theorem Seq.wf_commitTo {q : Seq} {old : Rotor} (h : old.wf) (n : Nat) : (q.commitTo n old).wf :=
  ⟨Table.wf_copyTo h.1 n, Perm.wf_copyTo h.2 n⟩

theorem Seq.wf_closedPerm {q : Seq} (h : q.perm.wf) : q.closedPerm.wf := by
  unfold Seq.closedPerm
  split
  · exact ⟨Table.wf_write h.1 _ _, Table.wf_write h.2 _ _⟩
  · exact h

theorem Memory.wf_withAlpha {s : State} (h : Memory.wf s) {a : Alphabet} (ha : Table.wf symD a.sym) :
    Memory.wf (s.withAlpha a) := ⟨ha, h.2⟩

theorem Memory.wf_withMode {s : State} (h : Memory.wf s) (m : Mode) : Memory.wf (s.withMode m) := h

theorem Memory.wf_withInbox {s : State} (h : Memory.wf s) (es : List HostEvent) : Memory.wf (s.withInbox es) := h

theorem Memory.wf_withRotor {s : State} (h : Memory.wf s) (c : Nat) {r : Rotor} (hr : r.wf) :
    Memory.wf (s.withRotor c r) := by
  refine ⟨h.1, Table.wf_write h.2.1 c r, fun e he => ?_, h.2.2.2⟩
  rcases Table.mem_write he with rfl | he
  · exact hr
  · exact h.2.2.1 e he

theorem Memory.wf_withSetting {s : State} (h : Memory.wf s) (c v : Nat) : Memory.wf (s.withSetting c v) :=
  Memory.wf_withRotor h c (Memory.wf_rotor h c)

theorem Memory.wf_withPlug {s : State} (h : Memory.wf s) {p : Perm} (hp : p.wf) : Memory.wf (s.withPlug p) :=
  ⟨h.1, h.2.1, h.2.2.1, hp, h.2.2.2.2⟩

theorem Memory.wf_withSlots {s : State} (h : Memory.wf s) {t : Table Nat} (ht : Table.wf numD t) :
    Memory.wf (s.withSlots t) := ⟨h.1, h.2.1, h.2.2.1, h.2.2.2.1, ht, h.2.2.2.2.2⟩

theorem Memory.wf_withSeq {s : State} (h : Memory.wf s) {q : Seq} (hp : q.perm.wf) (hs : Table.wf bitD q.seen)
    (hn : Table.wf bitD q.notch) (hl : Table.wf numD q.list) : Memory.wf (s.withSeq q) :=
  ⟨h.1, h.2.1, h.2.2.1, h.2.2.2.1, h.2.2.2.2.1, hp, hs, hn, hl⟩

theorem Memory.wf_reply {s : State} (h : Memory.wf s) (w : Word) : Memory.wf (s.reply w) := h

theorem Memory.wf_takeFault {s : State} (h : Memory.wf s) (f : FaultCode) : Memory.wf (s.takeFault f) := by
  refine ⟨?_, h.2⟩
  simp only [State.takeFault_alpha]
  split <;> exact h.1

theorem Memory.wf_setSlots {s : State} (h : Memory.wf s) (m : Nat) : Memory.wf (s.setSlots m) := by
  induction m with
  | zero => exact h
  | succ m ih => exact Memory.wf_withSetting ih _ _

theorem Memory.wf_advancedCat {s : State} (h : Memory.wf s) (m : Nat) : Memory.wf (s.withCat (s.advancedCat m)) := by
  induction m with
  | zero => exact h
  | succ m ih =>
    rw [State.advancedCat]
    split
    · refine Memory.wf_withRotor ih (s.slotAt m) ?_
      have := Memory.wf_rotor h (s.slotAt m)
      rw [Rotor.advance_eq]; exact this
    · exact ih

theorem Memory.wf_stepRotors {s : State} (h : Memory.wf s) : Memory.wf s.stepRotors := Memory.wf_advancedCat h _

/-- Reset's tables, of every build. -/
theorem Memory.wf_resetWith (cfg : Config) : Memory.wf (State.resetWith cfg) := by
  simp [State.resetWith, Perm.identity, Seq.reset, Memory.wf, Table.wf, Perm.wf]

theorem Memory.wf_reset : Memory.wf State.reset := Memory.wf_resetWith _

theorem Memory.wf_assertReset (s : State) : Memory.wf s.assertReset := Memory.wf_resetWith s.cfg

/-- The effect of every command. -/
theorem Memory.wf_effect {i : Instr} {s u : State} {v : Half} (h : Memory.wf s) (he : Effect i s u v) : Memory.wf u := by
  have hq := h.2.2.2.2.2
  cases i <;> simp only [Effect] at he
  case alphaBegin => rw [he.2.2.1]; exact Memory.wf_withAlpha h h.1
  case alphaSym => rw [he.2.2.2.2.1]; exact Memory.wf_withAlpha h (Table.wf_write h.1 _ _)
  case alphaEnd => rw [he.2.2.1]; exact Memory.wf_withAlpha h h.1
  case bldBegin =>
    have open_wf : ∀ a kind, Memory.wf (s.withSeq (s.seq.openPerm a kind)) := fun a kind =>
      Memory.wf_withSeq h (by simp [Seq.openPerm, Perm.identity, Table.wf]) (by simp [Seq.openPerm, Table.wf])
        (by simp [Seq.openPerm, Table.wf]) hq.2.2.2
    rcases he.2.2 with ⟨_, _, hu⟩ | ⟨_, _, _, kind, _, hu⟩ <;> rw [hu] <;> exact open_wf _ _
  case bldNotch =>
    obtain ⟨_, _, _, _, j, _, rfl⟩ := he
    exact Memory.wf_withSeq h hq.1 hq.2.1 (Table.wf_write hq.2.2.1 j true) hq.2.2.2
  case cycOpen => rw [he.2.1]; exact h
  case cycSym =>
    obtain ⟨_, _, j, _, _, rfl⟩ := he
    unfold Seq.addToGroup
    split
    · exact Memory.wf_withSeq h hq.1 (Table.wf_write hq.2.1 j true) hq.2.2.1 hq.2.2.2
    · exact Memory.wf_withSeq h ⟨Table.wf_write hq.1.1 _ _, Table.wf_write hq.1.2 _ _⟩ (Table.wf_write hq.2.1 j true)
        hq.2.2.1 hq.2.2.2
  case cycClose =>
    rw [he.2.1]
    exact Memory.wf_withSeq h (Seq.wf_closedPerm hq.1) hq.2.1 hq.2.2.1 hq.2.2.2
  case bldEnd =>
    rcases he.2.2.2 with ⟨_, hu⟩ | ⟨_, hu⟩ <;> rw [hu]
    · exact Memory.wf_withPlug h (Perm.wf_copyTo h.2.2.2.1 _)
    · exact Memory.wf_withRotor h _ (Seq.wf_commitTo (Memory.wf_rotor h _) _)
  case rotSetIdx => rw [he.2.2.2.2.2.1]; exact Memory.wf_withSetting h _ _
  case rotSetSym =>
    obtain ⟨_, _, _, j, _, _, rfl⟩ := he
    exact Memory.wf_withSetting h _ _
  case rotAdv =>
    rw [he.2.2.1]
    refine Memory.wf_withRotor h _ ?_
    rw [Rotor.advance_eq]; exact Memory.wf_rotor h _
  case insBegin => rw [he.2.1]; exact h
  case insName =>
    rw [he.2.2.2.2.1]
    exact Memory.wf_withSeq h hq.1 hq.2.1 hq.2.2.1 (Table.wf_write hq.2.2.2 _ _)
  case insEnd => rw [he.2.2.2.1]; exact Memory.wf_withSlots h (Table.wf_copyTo h.2.2.2.2.1 _)
  case setBegin => rw [he.2.2.1]; exact h
  case setSym =>
    obtain ⟨_, _, _, j, _, _, rfl⟩ := he
    exact Memory.wf_withSeq h hq.1 hq.2.1 hq.2.2.1 (Table.wf_write hq.2.2.2 _ _)
  case setEnd => rw [he.2.2.1]; exact Memory.wf_setSlots h _
  case convIdx => rw [he.2.2.1]; exact Memory.wf_stepRotors h
  case convSym => rw [he.2.2.1]; exact Memory.wf_stepRotors h
  case stat => rw [he.1]; exact h
  case alphaSize => rw [he.2.1]; exact h
  case alphaTochar => rw [he.2.2.2.1]; exact h
  case alphaToint => rw [he.2.1]; exact h
  case alphaHas => rw [he.2.1]; exact h
  case permuteIdx => rw [he.2.1]; exact h
  case invertIdx => rw [he.2.1]; exact h
  case permuteSym => rw [he.2.1]; exact h
  case invertSym => rw [he.2.1]; exact h
  case deranged => rw [he.2.1]; exact h
  case rotKind => rw [he.2.2.1]; exact h
  case rotGet => rw [he.2.2.1]; exact h
  case rotFwd => rw [he.2.2.1]; exact h
  case rotBwd => rw [he.2.2.1]; exact h
  case rotAtnotch => rw [he.2.2.1]; exact h
  case slotGet => rw [he.2.2.2.1]; exact h

/-- Every command, however it ends. -/
theorem Memory.wf_exec {i : Instr} {s t : State} (h : Memory.wf s) (he : exec i s = .next t) : Memory.wf t := by
  rcases exec_cases he with ⟨f, rfl⟩ | ⟨u, v, hu, rfl⟩
  · exact Memory.wf_takeFault h f
  · exact Memory.wf_reply (Memory.wf_effect h hu) _

end Sys2Proof.Machine
end

