-- ==== Sys2Proof/Laws/PerInstr.lean ====
section
/-! SUPPORT. One fact per command: its encoding matches its own row of the opcode table under that row's mask (30_encoding.md R75, R77). -/

namespace Sys2Proof.Laws

theorem packWord_and (o a p b : Byte) (v u : Half) : packWord o a v &&& packWord p b u = packWord (o &&& p) (a &&& b) (v &&& u) := by
  unfold packWord
  rw [BitVec.and_append, BitVec.and_append]

/-- The row's match and mask (spec/opcode_table.json). -/
def Row.of : Instr → Word × Word
  | .stat => (0x01000000, 0xFFFFFFFF)
  | .alphaBegin => (0x10000000, 0xFFFFFFFF)
  | .alphaSym _ => (0x11000000, 0xFFFF0000)
  | .alphaEnd => (0x12000000, 0xFFFFFFFF)
  | .alphaSize => (0x13000000, 0xFFFFFFFF)
  | .alphaTochar _ => (0x14000000, 0xFFFF0000)
  | .alphaToint _ => (0x15000000, 0xFFFF0000)
  | .alphaHas _ => (0x16000000, 0xFFFF0000)
  | .bldBegin _ _ => (0x20000000, 0xFF00FFFC)
  | .bldNotch _ => (0x21000000, 0xFFFF0000)
  | .cycOpen => (0x22000000, 0xFFFFFFFF)
  | .cycSym _ => (0x23000000, 0xFFFF0000)
  | .cycClose => (0x24000000, 0xFFFFFFFF)
  | .bldEnd => (0x25000000, 0xFFFFFFFF)
  | .permuteIdx _ _ => (0x30000000, 0xFF000000)
  | .invertIdx _ _ => (0x31000000, 0xFF000000)
  | .permuteSym _ _ => (0x32000000, 0xFF000000)
  | .invertSym _ _ => (0x33000000, 0xFF000000)
  | .deranged _ => (0x34000000, 0xFF00FFFF)
  | .rotKind _ => (0x40000000, 0xFF00FFFF)
  | .rotGet _ => (0x41000000, 0xFF00FFFF)
  | .rotSetIdx _ _ => (0x42000000, 0xFF000000)
  | .rotSetSym _ _ => (0x43000000, 0xFF000000)
  | .rotFwd _ _ => (0x44000000, 0xFF000000)
  | .rotBwd _ _ => (0x45000000, 0xFF000000)
  | .rotAdv _ => (0x46000000, 0xFF00FFFF)
  | .rotAtnotch _ => (0x47000000, 0xFF00FFFF)
  | .insBegin => (0x50000000, 0xFFFFFFFF)
  | .insName _ => (0x51000000, 0xFF00FFFF)
  | .insEnd => (0x52000000, 0xFFFFFFFF)
  | .setBegin => (0x53000000, 0xFFFFFFFF)
  | .setSym _ => (0x54000000, 0xFFFF0000)
  | .setEnd => (0x55000000, 0xFFFFFFFF)
  | .convIdx _ => (0x56000000, 0xFFFF0000)
  | .convSym _ => (0x57000000, 0xFFFF0000)
  | .slotGet _ => (0x58000000, 0xFF00FFFF)

/-- The command's row is in the table, and the command's word matches it. -/
def Row.Statement (i : Instr) : Prop :=
  Row.of i ∈ Machine.opcodeRows ∧ encode i &&& (Row.of i).2 = (Row.of i).1

theorem Row.of_fields {i : Instr} {o p : Byte} {a b : Byte} {v u : Half} {m : Word} (hr : Row.of i ∈ Machine.opcodeRows)
    (he : encode i = packWord o a v) (hp : (Row.of i).2 = packWord p b u) (hm : (Row.of i).1 = m)
    (h : packWord (o &&& p) (a &&& b) (v &&& u) = m) : Row.Statement i :=
  ⟨hr, by rw [he, hp, packWord_and, hm, h]⟩

theorem kind_and (k : BitVec 2) : (0#14 ++ k : Half) &&& 0xFFFC = 0 := by revert k; decide

theorem Row.stat : Row.Statement .stat := ⟨by decide, by decide⟩
theorem Row.alphaBegin : Row.Statement .alphaBegin := ⟨by decide, by decide⟩
theorem Row.alphaSym (s : Sym) : Row.Statement (.alphaSym s) :=
  Row.of_fields (p := 0xFF) (b := 0xFF) (u := 0x0000) (by rw [Row.of]; decide) rfl rfl rfl (by simp; rfl)
theorem Row.alphaEnd : Row.Statement .alphaEnd := ⟨by decide, by decide⟩
theorem Row.alphaSize : Row.Statement .alphaSize := ⟨by decide, by decide⟩
theorem Row.alphaTochar (i : Int) : Row.Statement (.alphaTochar i) :=
  Row.of_fields (p := 0xFF) (b := 0xFF) (u := 0x0000) (by rw [Row.of]; decide) rfl rfl rfl (by simp; rfl)
theorem Row.alphaToint (s : Sym) : Row.Statement (.alphaToint s) :=
  Row.of_fields (p := 0xFF) (b := 0xFF) (u := 0x0000) (by rw [Row.of]; decide) rfl rfl rfl (by simp; rfl)
theorem Row.alphaHas (s : Sym) : Row.Statement (.alphaHas s) :=
  Row.of_fields (p := 0xFF) (b := 0xFF) (u := 0x0000) (by rw [Row.of]; decide) rfl rfl rfl (by simp; rfl)
theorem Row.bldBegin (a : Nat) (kind : BitVec 2) : Row.Statement (.bldBegin a kind) :=
  Row.of_fields (p := 0xFF) (b := 0x00) (u := 0xFFFC) (by rw [Row.of]; decide) rfl rfl rfl (by rw [kind_and]; simp; rfl)
theorem Row.bldNotch (s : Sym) : Row.Statement (.bldNotch s) :=
  Row.of_fields (p := 0xFF) (b := 0xFF) (u := 0x0000) (by rw [Row.of]; decide) rfl rfl rfl (by simp; rfl)
theorem Row.cycOpen : Row.Statement .cycOpen := ⟨by decide, by decide⟩
theorem Row.cycSym (s : Sym) : Row.Statement (.cycSym s) :=
  Row.of_fields (p := 0xFF) (b := 0xFF) (u := 0x0000) (by rw [Row.of]; decide) rfl rfl rfl (by simp; rfl)
theorem Row.cycClose : Row.Statement .cycClose := ⟨by decide, by decide⟩
theorem Row.bldEnd : Row.Statement .bldEnd := ⟨by decide, by decide⟩
theorem Row.permuteIdx (a : Nat) (i : Int) : Row.Statement (.permuteIdx a i) :=
  Row.of_fields (p := 0xFF) (b := 0x00) (u := 0x0000) (by rw [Row.of]; decide) rfl rfl rfl (by simp; rfl)
theorem Row.invertIdx (a : Nat) (i : Int) : Row.Statement (.invertIdx a i) :=
  Row.of_fields (p := 0xFF) (b := 0x00) (u := 0x0000) (by rw [Row.of]; decide) rfl rfl rfl (by simp; rfl)
theorem Row.permuteSym (a : Nat) (s : Sym) : Row.Statement (.permuteSym a s) :=
  Row.of_fields (p := 0xFF) (b := 0x00) (u := 0x0000) (by rw [Row.of]; decide) rfl rfl rfl (by simp; rfl)
theorem Row.invertSym (a : Nat) (s : Sym) : Row.Statement (.invertSym a s) :=
  Row.of_fields (p := 0xFF) (b := 0x00) (u := 0x0000) (by rw [Row.of]; decide) rfl rfl rfl (by simp; rfl)
theorem Row.deranged (a : Nat) : Row.Statement (.deranged a) :=
  Row.of_fields (p := 0xFF) (b := 0x00) (u := 0xFFFF) (by rw [Row.of]; decide) rfl rfl rfl (by simp; rfl)
theorem Row.rotKind (a : Nat) : Row.Statement (.rotKind a) :=
  Row.of_fields (p := 0xFF) (b := 0x00) (u := 0xFFFF) (by rw [Row.of]; decide) rfl rfl rfl (by simp; rfl)
theorem Row.rotGet (a : Nat) : Row.Statement (.rotGet a) :=
  Row.of_fields (p := 0xFF) (b := 0x00) (u := 0xFFFF) (by rw [Row.of]; decide) rfl rfl rfl (by simp; rfl)
theorem Row.rotSetIdx (a : Nat) (i : Int) : Row.Statement (.rotSetIdx a i) :=
  Row.of_fields (p := 0xFF) (b := 0x00) (u := 0x0000) (by rw [Row.of]; decide) rfl rfl rfl (by simp; rfl)
theorem Row.rotSetSym (a : Nat) (s : Sym) : Row.Statement (.rotSetSym a s) :=
  Row.of_fields (p := 0xFF) (b := 0x00) (u := 0x0000) (by rw [Row.of]; decide) rfl rfl rfl (by simp; rfl)
theorem Row.rotFwd (a : Nat) (i : Int) : Row.Statement (.rotFwd a i) :=
  Row.of_fields (p := 0xFF) (b := 0x00) (u := 0x0000) (by rw [Row.of]; decide) rfl rfl rfl (by simp; rfl)
theorem Row.rotBwd (a : Nat) (i : Int) : Row.Statement (.rotBwd a i) :=
  Row.of_fields (p := 0xFF) (b := 0x00) (u := 0x0000) (by rw [Row.of]; decide) rfl rfl rfl (by simp; rfl)
theorem Row.rotAdv (a : Nat) : Row.Statement (.rotAdv a) :=
  Row.of_fields (p := 0xFF) (b := 0x00) (u := 0xFFFF) (by rw [Row.of]; decide) rfl rfl rfl (by simp; rfl)
theorem Row.rotAtnotch (a : Nat) : Row.Statement (.rotAtnotch a) :=
  Row.of_fields (p := 0xFF) (b := 0x00) (u := 0xFFFF) (by rw [Row.of]; decide) rfl rfl rfl (by simp; rfl)
theorem Row.insBegin : Row.Statement .insBegin := ⟨by decide, by decide⟩
theorem Row.insName (a : Nat) : Row.Statement (.insName a) :=
  Row.of_fields (p := 0xFF) (b := 0x00) (u := 0xFFFF) (by rw [Row.of]; decide) rfl rfl rfl (by simp; rfl)
theorem Row.insEnd : Row.Statement .insEnd := ⟨by decide, by decide⟩
theorem Row.setBegin : Row.Statement .setBegin := ⟨by decide, by decide⟩
theorem Row.setSym (s : Sym) : Row.Statement (.setSym s) :=
  Row.of_fields (p := 0xFF) (b := 0xFF) (u := 0x0000) (by rw [Row.of]; decide) rfl rfl rfl (by simp; rfl)
theorem Row.setEnd : Row.Statement .setEnd := ⟨by decide, by decide⟩
theorem Row.convIdx (i : Int) : Row.Statement (.convIdx i) :=
  Row.of_fields (p := 0xFF) (b := 0xFF) (u := 0x0000) (by rw [Row.of]; decide) rfl rfl rfl (by simp; rfl)
theorem Row.convSym (s : Sym) : Row.Statement (.convSym s) :=
  Row.of_fields (p := 0xFF) (b := 0xFF) (u := 0x0000) (by rw [Row.of]; decide) rfl rfl rfl (by simp; rfl)
theorem Row.slotGet (a : Nat) : Row.Statement (.slotGet a) :=
  Row.of_fields (p := 0xFF) (b := 0x00) (u := 0xFFFF) (by rw [Row.of]; decide) rfl rfl rfl (by simp; rfl)

end Sys2Proof.Laws
end

