-- ==== Sys2Proof/Tests/Slice0.lean ====
section
/-! SUPPORT. Tests of the definitions and, for every statement with hypotheses, a witness that they can be met. Expected values are those of
95_test_vectors.md (the vector is named at each test) or are worked by hand from the rule named. States are small and built by the helpers below. -/

set_option linter.unusedSimpArgs false

namespace Sys2Proof.Tests

open Sys2Proof Sys2Proof.Machine

-- Helpers.

/-- An index table from its elements. -/
def tbl (l : List Nat) : Table Nat := (l.zipIdx.map (fun c => (c.2, c.1))).filter (fun c => c.2 ≠ c.1)

/-- A permutation from its two tables. -/
def prm (f g : List Nat) : Perm := { fwd := tbl f, inv := tbl g }

/-- The alphabet of the given codes, sealed. -/
def abc (l : List Nat) : Alphabet := { sym := l.zipIdx.map (fun c => (c.2, BitVec.ofNat 16 c.1)), n := l.length, isSealed := true }

/-- Program P1 of 95_test_vectors.md after its `.SETTING "AA"`: alphabet ABCDEF, three slots, one pawl. -/
def p1 : State :=
  { State.reset with
    alpha := abc [0x41, 0x42, 0x43, 0x44, 0x45, 0x46]
    cat := [(0, { valid := true, kind := .reflector, setting := 0, notch := [],
                  wiring := prm [1, 0, 3, 2, 5, 4] [1, 0, 3, 2, 5, 4] }),
            (1, { valid := true, kind := .fixedRotor, setting := 0, notch := [],
                  wiring := prm [3, 0, 5, 1, 2, 4] [1, 3, 4, 0, 5, 2] }),
            (2, { valid := true, kind := .movingRotor, setting := 0, notch := [(0, true)],
                  wiring := prm [2, 4, 1, 0, 3, 5] [3, 2, 0, 4, 1, 5] })]
    inserted := true
    slot := [(1, 1), (2, 2)] }

/-- P1 with the plugboard `(AB)`. -/
def p1ab : State := { p1 with plug := prm [1, 0] [1, 0] }

/-- P1 before any insertion. -/
def p1un : State := { p1 with inserted := false, slot := [] }

/-- P1 with a construction of a moving rotor 5 open, outside a group. -/
def p1perm : State := { p1 with seq := { Seq.reset with mode := .perm, target := 5, kind := .movingRotor } }

/-- P1 with a construction of the plugboard open. -/
def p1plug : State := { p1 with seq := { Seq.reset with mode := .perm, target := 0xFF } }

/-- P1 with a construction of a Reflector 5 open, no group given: the identity. -/
def p1refl : State := { p1 with seq := { Seq.reset with mode := .perm, target := 5 } }

/-- P1 with the group `(AB` open in the construction of rotor 5. -/
def p1group : State :=
  { p1 with
    seq := { Seq.reset with mode := .perm, target := 5, kind := .movingRotor, inGroup := true, glen := 2, first := 0, prev := 1
                            perm := { fwd := [(0, 1)], inv := [(1, 0)] }, seen := [(0, true), (1, true)] } }

/-- P1 with a group just opened in the construction of rotor 5. -/
def p1open : State :=
  { p1 with seq := { Seq.reset with mode := .perm, target := 5, kind := .movingRotor, inGroup := true } }

/-- P1 with an insertion open, its list filled up to `n` with 0, 1, 2. -/
def p1ins (n : Nat) : State := { p1 with seq := { Seq.reset with mode := .ins, list := [(1, 1), (2, 2)], count := n } }

/-- P1 with a setting sequence open, its list filled up to `n` with C, A. -/
def p1set (n : Nat) : State := { p1 with seq := { Seq.reset with mode := .set, list := [(0, 2)], count := n } }

/-- P1 with `.INSERT 0, 0', 2`, a second Reflector 3 in slot 1 (V-CFG), and a setting sequence open. -/
def p1rr : State :=
  { p1 with
    cat := p1.cat ++ [(3, { valid := true, kind := .reflector, setting := 0, notch := [],
                            wiring := prm [5, 4, 3, 2, 1, 0] [5, 4, 3, 2, 1, 0] })]
    slot := [(1, 3), (2, 2)]
    seq := { Seq.reset with mode := .set } }

/-- P1 with setting `v` of rotor `c`. -/
def p1x (c v : Nat) : State := p1.withSetting c v

/-- A block of two symbols at most, the alphabet sequence open with the first `n` of A and B. -/
def alph (n : Nat) : State :=
  { State.resetWith { nmax := 2, cmax := 2, slots := 1, pawls := 1 } with
    alpha := { sym := [(0, 0x41), (1, 0x42)].take n, n := n, isSealed := false }, seq := { Seq.reset with mode := .alpha } }

/-- Program P3 of 95_test_vectors.md, four slots, under the given pawls, mode and settings of slots 1 to 3. -/
def p3 (cfg : Config) (x1 x2 x3 : Nat) : State :=
  { State.resetWith cfg with
    alpha := abc ((List.range 26).map (fun i => 0x41 + i))
    cat := [(0, { valid := true, kind := .reflector, setting := 0, notch := [], wiring :=
                    prm [24, 17, 20, 7, 16, 18, 11, 3, 15, 23, 13, 6, 14, 10, 12, 8, 4, 1, 5, 25, 2, 22, 21, 9, 0, 19]
                      [24, 17, 20, 7, 16, 18, 11, 3, 15, 23, 13, 6, 14, 10, 12, 8, 4, 1, 5, 25, 2, 22, 21, 9, 0, 19] }),
            (1, { valid := true, kind := .movingRotor, setting := x1, notch := [(16, true)], wiring :=
                    prm [4, 10, 12, 5, 11, 6, 3, 16, 21, 25, 13, 19, 14, 22, 24, 7, 23, 20, 18, 15, 0, 8, 1, 17, 2, 9]
                      [20, 22, 24, 6, 0, 3, 5, 15, 21, 25, 1, 4, 2, 10, 12, 19, 7, 23, 18, 11, 17, 8, 13, 16, 14, 9] }),
            (2, { valid := true, kind := .movingRotor, setting := x2, notch := [(4, true)], wiring :=
                    prm [0, 9, 3, 10, 18, 8, 17, 20, 23, 1, 11, 7, 22, 19, 12, 2, 16, 6, 25, 13, 15, 24, 5, 21, 14, 4]
                      [0, 9, 15, 2, 25, 22, 17, 11, 5, 1, 3, 10, 14, 19, 24, 20, 16, 6, 4, 13, 7, 23, 12, 8, 21, 18] }),
            (3, { valid := true, kind := .movingRotor, setting := x3, notch := [(21, true)], wiring :=
                    prm [1, 3, 5, 7, 9, 11, 2, 15, 17, 19, 23, 21, 25, 13, 24, 4, 8, 22, 6, 0, 10, 12, 20, 18, 16, 14]
                      [19, 0, 6, 1, 15, 2, 18, 3, 16, 4, 20, 5, 21, 13, 25, 7, 24, 8, 23, 9, 22, 11, 17, 10, 14, 12] })]
    inserted := true
    slot := [(1, 1), (2, 2), (3, 3)] }

/-- Four slots, `p` pawls, under a stepping mode. -/
def cfg4 (p : Nat) (m : StepBMode) (h : 0 < p ∧ p ≤ 4 := by decide) : Config :=
  { nmax := 32, cmax := 16, slots := 4, pawls := p, stepB := m, built := ⟨by decide, by decide, by decide, h.1, h.2⟩ }

/-- The next state of one step that takes the command word `w`. -/
def after (s : State) (w : Nat) : State :=
  match step (s.withFetchWord 32 w) with
  | .next t => t
  | _ => s

/-- The response of one step that takes the command word `w`. -/
def answer (s : State) (w : Nat) : Option Word := (after s w).outbox.getLast?

/-- The settings of the rotors in slots 0 to `n - 1`. -/
def settings (s : State) (n : Nat) : List Nat := (List.range n).map (fun k => (s.slotRotor k).setting)

-- WellFormed: an ill-formed term for each check (30_encoding.md R74, R81).

theorem test_wf_target_too_large :
    [Instr.bldBegin 256 0, .permuteIdx 256 0, .invertIdx 256 0, .permuteSym 256 0, .invertSym 256 0, .deranged 256, .rotKind 256,
      .rotGet 256, .rotSetIdx 256 0, .rotSetSym 256 0, .rotFwd 256 0, .rotBwd 256 0, .rotAdv 256, .rotAtnotch 256, .insName 256,
      .slotGet 256].all (fun i => !i.wellFormed) = true := by decide

theorem test_wf_index_too_large :
    [Instr.alphaTochar 32768, .permuteIdx 0 32768, .invertIdx 0 32768, .rotSetIdx 0 32768, .rotFwd 0 32768, .rotBwd 0 32768,
      .convIdx 32768].all (fun i => !i.wellFormed) = true := by decide

theorem test_wf_index_too_small :
    [Instr.alphaTochar (-32769), .permuteIdx 0 (-32769), .invertIdx 0 (-32769), .rotSetIdx 0 (-32769), .rotFwd 0 (-32769),
      .rotBwd 0 (-32769), .convIdx (-32769)].all (fun i => !i.wellFormed) = true := by decide

theorem test_wf_bounds_fit :
    [Instr.permuteIdx 255 (-32768), .rotSetIdx 255 32767, .slotGet 255, .bldBegin 255 3].all (fun i => i.wellFormed) = true := by decide

-- Decoding: one word of every command, from the opcode map and the formats of 30_encoding.md R73, R75, and R77's rejections.

/-- One command of every family, its word bit by bit: OP, A, V (30_encoding.md R71, R75). -/
theorem test_decode_bit_by_bit :
    decode 0b00000001000000000000000000000000 = .ok .stat ∧
    decode 0b00010100000000001111111111111110 = .ok (.alphaTochar (-2)) ∧
    decode 0b00100000000001110000000000000001 = .ok (.bldBegin 7 1) ∧
    decode 0b00110011000001010000000001000011 = .ok (.invertSym 5 0x43) ∧
    decode 0b01000010100000000111111111111111 = .ok (.rotSetIdx 128 32767) ∧
    decode 0b01010001000000110000000000000000 = .ok (.insName 3) ∧
    decode 0b01010110000000001000000000000000 = .ok (.convIdx (-32768)) := by decide

theorem test_decode_alphabet :
    decode 0x10000000 = .ok .alphaBegin ∧ decode 0x11000041 = .ok (.alphaSym 0x41) ∧ decode 0x12000000 = .ok .alphaEnd ∧
    decode 0x13000000 = .ok .alphaSize ∧ decode 0x1400FFFF = .ok (.alphaTochar (-1)) ∧
    decode 0x15000141 = .ok (.alphaToint 0x141) ∧ decode 0x16000028 = .ok (.alphaHas 0x28) := by decide

theorem test_decode_permutation :
    decode 0x20020002 = .ok (.bldBegin 2 2) ∧ decode 0x21000041 = .ok (.bldNotch 0x41) ∧ decode 0x22000000 = .ok .cycOpen ∧
    decode 0x23000041 = .ok (.cycSym 0x41) ∧ decode 0x24000000 = .ok .cycClose ∧ decode 0x25000000 = .ok .bldEnd ∧
    decode 0x30FF8000 = .ok (.permuteIdx 255 (-32768)) ∧ decode 0x31FE0000 = .ok (.invertIdx 254 0) ∧
    decode 0x32FF0055 = .ok (.permuteSym 255 0x55) ∧ decode 0x33FF0045 = .ok (.invertSym 255 0x45) ∧
    decode 0x34FF0000 = .ok (.deranged 255) := by decide

theorem test_decode_rotor :
    decode 0x40090000 = .ok (.rotKind 9) ∧ decode 0x41020000 = .ok (.rotGet 2) ∧ decode 0x4202FFFF = .ok (.rotSetIdx 2 (-1)) ∧
    decode 0x43010043 = .ok (.rotSetSym 1 0x43) ∧ decode 0x4401FFFF = .ok (.rotFwd 1 (-1)) ∧
    decode 0x45010003 = .ok (.rotBwd 1 3) ∧ decode 0x46020000 = .ok (.rotAdv 2) ∧ decode 0x47090000 = .ok (.rotAtnotch 9) := by decide

theorem test_decode_machine :
    decode 0x50000000 = .ok .insBegin ∧ decode 0x51020000 = .ok (.insName 2) ∧ decode 0x52000000 = .ok .insEnd ∧
    decode 0x53000000 = .ok .setBegin ∧ decode 0x54000041 = .ok (.setSym 0x41) ∧ decode 0x55000000 = .ok .setEnd ∧
    decode 0x5600FFFF = .ok (.convIdx (-1)) ∧ decode 0x57000041 = .ok (.convSym 0x41) ∧
    decode 0x58FF0000 = .ok (.slotGet 255) := by decide

theorem test_decode_rejects :
    decode 0x00000000 = .error .undefinedOpcode ∧ decode 0x17000000 = .error .undefinedOpcode ∧
    decode 0x59000000 = .error .undefinedOpcode ∧ decode 0xFF000000 = .error .undefinedOpcode ∧
    decode 0x01000001 = .error .unusedFieldNonZero ∧ decode 0x10010000 = .error .unusedFieldNonZero ∧
    decode 0x20010005 = .error .unusedFieldNonZero ∧ decode 0x40010001 = .error .unusedFieldNonZero := by decide

theorem test_decodeTableWord :
    decodeTableWord 32 0x30FFFFFF = some (.permuteIdx 255 (-1)) ∧ decodeTableWord 32 0x01000001 = none := by decide

theorem test_responses :
    okWord 0x46 = 0x00000046 ∧ faultWord .reflectorNotDerangement = 0x05000000 ∧
    okWord (Fsr.statValue { any := true, code := 5 }) = 0x00000105 := by decide

-- One step. The step of an empty inbox, a reset, and the first fault.

theorem test_step_idle : step State.reset = .next State.reset := rfl

theorem test_step_reset :
    step { p1 with inbox := [.reset] } = .next State.reset := rfl

/-- V-SYS. -/
theorem test_first_fault_is_kept :
    answer State.reset 0x13000000 = some 0x0B000000 ∧ (after State.reset 0xFF000000).fsr = { any := true, code := 0x0B } ∧
    (after { State.reset with fsr := { any := true, code := 5 } } 0xFF000000).fsr = { any := true, code := 5 } := by decide

/-- 46_system.md R170; V-ENC. -/
theorem test_stat :
    answer { p1 with fsr := { any := true, code := 5 } } 0x01000000 = some 0x00000105 ∧ answer p1perm 0x01000000 = some 0 := by decide

/-- V-ALPHA-2. -/
theorem test_alphaBegin :
    answer State.reset 0x10000000 = some 0 ∧ answer p1 0x10000000 = some 0x0B000000 := by decide

/-- V-ALPHA-1, V-ALPHA-2, 40_alphabet.md R102. -/
theorem test_alphaSym :
    answer (alph 1) 0x11000041 = some 0x01000000 ∧ (after (alph 1) 0x11000041).alpha.n = 0 ∧ answer (alph 0) 0x1100002A = some 0x01000000 ∧
      answer (alph 2) 0x11000043 = some 0x0C000000 ∧ (after (alph 1) 0x11000042).alpha = (alph 2).alpha := by decide

/-- V-ALPHA-1. -/
theorem test_alphaEnd :
    answer (alph 0) 0x12000000 = some 0x01000000 ∧ (after (alph 2) 0x12000000).alpha.isSealed = true := by decide

/-- V-ALPHA-3. -/
theorem test_alphaSize :
    answer p1 0x13000000 = some 6 := by decide

/-- V-ALPHA-3. -/
theorem test_alphaTochar :
    answer p1 0x14000005 = some 0x46 ∧ answer p1 0x14000006 = some 0x03000000 ∧ answer p1 0x1400FFFF = some 0x03000000 := by decide

/-- V-ALPHA-3. -/
theorem test_alphaToint :
    answer p1 0x15000046 = some 5 ∧ answer p1 0x15000141 = some 0x02000000 := by decide

/-- V-ALPHA-3. -/
theorem test_alphaHas :
    answer p1 0x16000041 = some 1 ∧ answer p1 0x16000047 = some 0 := by decide

/-- V-PERM-2, V-PERM-3. -/
theorem test_bldBegin :
    answer p1 0x20050001 = some 0 ∧ answer p1 0x20010003 = some 0x0B000000 ∧ answer p1 0x20FF0001 = some 0x0B000000 ∧
      answer p1 0x20100001 = some 0x0C000000 := by decide

/-- V-PERM-2. -/
theorem test_bldNotch :
    answer p1perm 0x2100005A = some 0x02000000 ∧ answer p1plug 0x21000041 = some 0x0B000000 ∧
      (after p1perm 0x21000043).seq.notch = [(2, true)] := by decide

/-- V-PERM-2. -/
theorem test_cycOpen :
    answer p1perm 0x22000000 = some 0 ∧ answer p1open 0x22000000 = some 0x0B000000 := by decide

/-- V-PERM-2, 41_permutation_lookup.md R117. -/
theorem test_cycSym :
    answer p1group 0x23000041 = some 0x04000000 ∧ answer p1perm 0x23000041 = some 0x0B000000 ∧
      (after p1group 0x23000043).seq.perm = { fwd := [(0, 1), (1, 2)], inv := [(1, 0), (2, 1)] } := by decide

/-- V-PERM-2, 41_permutation_lookup.md R118. -/
theorem test_cycClose :
    answer p1perm 0x24000000 = some 0x0B000000 ∧
      (after p1group 0x24000000).seq.perm = { fwd := [(0, 1), (1, 0)], inv := [(0, 1), (1, 0)] } := by decide

/-- V-PERM-2. -/
theorem test_bldEnd :
    answer p1refl 0x25000000 = some 0x05000000 ∧ answer p1group 0x25000000 = some 0x0B000000 ∧
      (after p1perm 0x25000000).rotor 5 = { Rotor.reset with valid := true, kind := .movingRotor } := by decide

/-- P1 tables; V-PERM-2. -/
theorem test_permuteIdx :
    answer p1 0x3001FFFF = some 4 ∧ answer p1 0x30090000 = some 0x06000000 ∧ answer p1ab 0x30FF0006 = some 1 := by decide

/-- P1 tables; V-PERM-2. -/
theorem test_invertIdx :
    answer p1 0x31010000 = some 1 ∧ answer p1 0x31FE0000 = some 0x06000000 := by decide

/-- P1 tables; V-PERM-2. -/
theorem test_permuteSym :
    answer p1 0x32010041 = some 0x44 ∧ answer p1 0x3209005A = some 0x06000000 ∧ answer p1 0x3201005A = some 0x02000000 := by decide

/-- P1 tables; V-PERM-2. -/
theorem test_invertSym :
    answer p1 0x33010041 = some 0x42 ∧ answer p1 0x3301005A = some 0x02000000 := by decide

/-- P1. -/
theorem test_deranged :
    answer p1 0x34000000 = some 1 ∧ answer p1 0x34020000 = some 0 := by decide

/-- V-ROT-2. -/
theorem test_rotKind :
    answer p1 0x40020000 = some 2 ∧ answer p1 0x40FF0000 = some 0x06000000 := by decide

/-- V-ROT-2. -/
theorem test_rotGet :
    answer (p1x 2 5) 0x41020000 = some 5 := by decide

/-- V-ROT-2. -/
theorem test_rotSetIdx :
    (after p1 0x42020005).rotor 2 = (p1x 2 5).rotor 2 ∧ answer p1 0x42020006 = some 0x03000000 ∧ answer p1 0x42000001 = some 0x03000000 := by decide

/-- V-ROT-2. -/
theorem test_rotSetSym :
    (after p1 0x43010043).rotor 1 = (p1x 1 2).rotor 1 ∧ answer p1 0x43000042 = some 0x03000000 ∧ answer p1 0x4302005A = some 0x02000000 := by decide

/-- V-ROT-2. -/
theorem test_rotFwd :
    answer (p1x 1 2) 0x44010005 = some 4 ∧ answer (p1x 1 2) 0x4401FFFF = some 4 ∧ answer (p1x 1 2) 0x44010000 = some 3 := by decide

/-- V-ROT-2. -/
theorem test_rotBwd :
    answer (p1x 1 2) 0x45010003 = some 0 ∧ answer (p1x 1 2) 0x45010000 = some 2 := by decide

/-- V-ROT-2. -/
theorem test_rotAdv :
    (after (p1x 2 5) 0x46020000).rotor 2 = p1.rotor 2 ∧ (after (p1x 1 2) 0x46010000).rotor 1 = (p1x 1 2).rotor 1 := by decide

/-- V-ROT-2. -/
theorem test_rotAtnotch :
    answer p1 0x47020000 = some 1 ∧ answer (p1x 2 5) 0x47020000 = some 0 ∧ answer p1 0x47010000 = some 0 := by decide

/-- V-CFG. -/
theorem test_insBegin :
    answer p1un 0x50000000 = some 0 ∧ answer State.reset 0x50000000 = some 0x0B000000 := by decide

/-- V-CFG. -/
theorem test_insName :
    answer (p1ins 2) 0x51010000 = some 0x07000000 ∧ answer (p1ins 1) 0x51090000 = some 0x06000000 ∧
      answer (p1ins 3) 0x51040000 = some 0x08000000 ∧ (after (p1ins 2) 0x51020000).seq = (p1ins 3).seq := by decide

/-- V-CFG. -/
theorem test_insEnd :
    answer (p1ins 2) 0x52000000 = some 0x08000000 ∧ (after { p1ins 3 with slot := [] } 0x52000000).slot = [(1, 1), (2, 2)] := by decide

/-- V-CFG. -/
theorem test_setBegin :
    answer p1 0x53000000 = some 0 ∧ answer p1un 0x53000000 = some 0x0B000000 := by decide

/-- V-CFG. -/
theorem test_setSym :
    answer (p1set 2) 0x54000041 = some 0x09000000 ∧ answer (p1set 1) 0x5400005A = some 0x02000000 ∧ answer p1rr 0x54000042 = some 0x03000000 ∧
      (after (p1set 1) 0x54000044).seq.list = [(0, 2), (1, 3)] := by decide

/-- V-CFG, V-PATH-5. -/
theorem test_setEnd :
    answer (p1set 1) 0x55000000 = some 0x09000000 ∧ settings (after (p1set 2) 0x55000000) 3 = [0, 2, 0] := by decide

/-- V-CFG. -/
theorem test_slotGet :
    answer p1 0x58020000 = some 2 ∧ answer p1 0x58030000 = some 0x03000000 ∧ answer p1un 0x58000000 = some 0x0B000000 := by decide

/-- V-PATH-2. -/
theorem test_convIdx :
    answer p1 0x56000006 = some 5 ∧ settings (after p1 0x56000006) 3 = [0, 0, 1] := by decide

/-- V-PATH-1, V-PATH-3, V-CFG. -/
theorem test_convSym :
    answer p1 0x57000041 = some 0x46 ∧ answer p1ab 0x57000041 = some 0x45 ∧ answer p1 0x5700005A = some 0x0A000000 ∧
      after p1 0x5700005A = { p1 with fsr := { any := true, code := 0x0A }, outbox := [0x0A000000] } := by decide

/-- V-STEP-1, keys 1 to 3: `ADU`, `ADV`, and the double step from `AEW`, the three rotors of slots 1 to 3 moving together. -/
theorem test_double_step :
    settings (after (p3 (cfg4 3 .literal) 0 3 20) 0x57000041) 4 = [0, 0, 3, 21] ∧
    settings (after (p3 (cfg4 3 .literal) 0 3 21) 0x57000041) 4 = [0, 0, 4, 22] ∧
    settings (after (p3 (cfg4 3 .literal) 0 4 22) 0x57000041) 4 = [0, 1, 5, 23] ∧
    answer (p3 (cfg4 3 .literal) 0 4 22) 0x57000041 = some 0x49 := by decide

/-- V-STEP-2 and V-STEP-4: the two readings of clause (b) differ where the leftmost eligible slot is at its notch. -/
theorem test_step_b_modes :
    settings (after (p3 (cfg4 3 .literal) 16 0 0) 0x57000041) 4 = [0, 17, 0, 1] ∧
    settings (after (p3 (cfg4 3 .historical) 16 0 0) 0x57000041) 4 = [0, 16, 0, 1] ∧
    settings (after (p3 (cfg4 2 .literal) 0 4 0) 0x57000041) 4 = [0, 0, 5, 1] ∧
    settings (after (p3 (cfg4 2 .historical) 0 4 0) 0x57000041) 4 = [0, 0, 4, 1] := by decide

/-- V-STEP-3, V-STEP-5, V-STEP-6: which slots are eligible under 2, 4 and 1 pawls. -/
theorem test_pawls :
    settings (after (p3 (cfg4 2 .historical) 16 4 21) 0x57000041) 4 = [0, 16, 5, 22] ∧
    settings (after (p3 (cfg4 4 .historical) 16 4 21) 0x57000041) 4 = [0, 17, 5, 22] ∧
    settings (after (p3 (cfg4 1 .literal) 16 4 21) 0x57000041) 4 = [0, 16, 4, 22] := by decide

-- Witnesses: for each statement with hypotheses, concrete states and operands that meet them, clause by clause.

theorem inv_p1 : Inv p1 :=
  inv_of_idle (by decide) (by decide) (by decide) rfl rfl (by decide) (by decide) (by decide) rfl

theorem inv_p1ab : Inv p1ab :=
  inv_of_idle (by decide) (by decide) (by decide) rfl rfl (by decide) (by decide) (by decide) rfl

theorem inv_p3 : Inv (p3 (cfg4 3 .literal) 0 4 22) :=
  inv_of_idle (by decide) (by decide) (by decide) rfl rfl (by decide) (by decide) (by decide) rfl

theorem witness_DecodeOfEncodeIsTheCommand :
    (Instr.permuteIdx 255 (-32768)).wellFormed = true ∧
    (Instr.rotSetIdx 0 32767).wellFormed = true ∧
    (Instr.bldBegin 255 3).wellFormed = true := by
  decide

theorem witness_EncodeOfDecodeIsTheWord :
    decode 0x30FF8000 = .ok (.permuteIdx 255 (-32768)) ∧
    decode 0x20010003 = .ok (.bldBegin 1 3) := by
  decide

theorem witness_StepRunsTheDecodedCommand :
    ({ p1 with inbox := [.command 0x57000041] } : State).inbox = .command 0x57000041 :: [] ∧
    decode 0x57000041 = .ok (.convSym 0x41) := by
  decide

theorem witness_WordThatIsNoCommandFaults :
    ({ p1 with inbox := [.command 0x59000000] } : State).inbox = .command 0x59000000 :: [] ∧
    (∀ r ∈ opcodeRows, opField 0x59000000 ≠ opField r.1) ∧
    (∃ r ∈ opcodeRows, opField 0x20010004 = opField r.1 ∧ (0x20010004 : Word) &&& r.2 ≠ r.1) ∧
    (∃ r ∈ opcodeRows, (0x20010003 : Word) &&& r.2 = r.1) := by
  have h : opcodeRows.all (fun r => opField 0x59000000 != opField r.1) = true := by decide
  exact ⟨rfl, fun r hr => by simpa using List.all_eq_true.mp h r hr, ⟨(0x20000000, 0xFF00FFFC), by decide, by decide, by decide⟩,
    (0x20000000, 0xFF00FFFC), by decide, by decide⟩

theorem witness_StepWithoutAnEventHoldsTheState :
    p1.inbox = [] := by
  rfl

theorem witness_StepTakesAReset :
    ({ p1 with inbox := [.reset, .command 0x01000000] } : State).inbox = .reset :: [.command 0x01000000] := by
  rfl

theorem witness_FaultCodesAreTheTwelve :
    (∃ t, exec (.alphaTochar 6) p1 = .next t ∧ t.outbox = p1.outbox ++ [0x03000000]) ∧
    Inv p1 := by
  exact ⟨⟨_, rfl, by decide⟩, inv_p1⟩

theorem witness_FaultChangesNothingElse :
    (∃ t, exec (.alphaSym 0x41) (alph 1) = .next t ∧ t.outbox = (alph 1).outbox ++ [0x01000000]) ∧
    opField 0x01000000 ≠ 0 := by
  exact ⟨⟨_, rfl, by decide⟩, by decide⟩

theorem witness_SequencingIsTheTableOfModes :
    ¬Legal .bldEnd p1group ∧
    Answers .setEnd (p1set 2) ((p1set 2).setSlots 2 |>.withMode .idle) 0 ∧
    Faults (.alphaSym 0x28) (alph 0) .invalidAlphabet ∧
    (∃ t, exec (.alphaSym 0x28) (alph 0) = .next t) := by
  exact ⟨by simp only [Legal, InPerm]; decide, rfl, rfl, _, rfl⟩

theorem witness_FaultRegisterKeepsTheFirstFault :
    (∃ t, exec .alphaSize p1 = .next t ∧ t.outbox = p1.outbox ++ [6]) ∧
    (∃ t, exec .cycOpen { p1 with fsr := { any := true, code := 5 } } = .next t ∧ t.outbox = p1.outbox ++ [0x0B000000]) ∧
    (∃ t, exec .cycOpen p1 = .next t ∧ t.outbox = p1.outbox ++ [0x0B000000]) ∧
    (∃ t, step { p1 with fsr := { any := true, code := 5 }, inbox := [.command 0] } = .next t) ∧
    (∀ es, ({ p1 with inbox := [.command 0] } : State).inbox ≠ .reset :: es) := by
  exact ⟨⟨_, rfl, by decide⟩, ⟨_, rfl, by decide⟩, ⟨_, rfl, by decide⟩, ⟨_, rfl⟩, by simp⟩

theorem witness_StepKeepsTheInvariant :
    Inv { p1 with inbox := [.command 0x57000041] } ∧
    (∃ t, step { p1 with inbox := [.command 0x57000041] } = .next t) := by
  exact ⟨inv_of_idle (by decide) (by decide) (by decide) rfl rfl (by decide) (by decide) (by decide) rfl, _, rfl⟩

theorem witness_SealedAlphabetIsConstant :
    Inv p1 ∧
    p1.alpha.isSealed = true ∧
    (∃ t, exec (.convIdx 0) p1 = .next t) := by
  exact ⟨inv_p1, rfl, _, rfl⟩

theorem witness_DefinedRotorKeepsItsWiring :
    Inv p1 ∧
    (p1.rotor 2).valid = true ∧
    (∃ t, exec (.convIdx 0) p1 = .next t) := by
  exact ⟨inv_p1, by decide, _, rfl⟩

theorem witness_OnlyTheNamedCommandsWriteEachTable :
    (∃ t, exec (.convIdx 0) p1 = .next t) ∧
    (∀ c, Instr.convIdx 0 ≠ .alphaSym c) ∧
    Instr.convIdx 0 ≠ .bldEnd ∧
    (∀ x, Instr.insEnd ≠ .convIdx x) := by
  exact ⟨⟨_, rfl⟩, by simp, by simp, by simp⟩

theorem witness_StatAnswersTheFaultRegister :
    ((0x00 : Byte) ≠ 0 ∨ (0x0001 : Half) ≠ 0) := by
  decide

theorem witness_AlphabetOpensAndSeals :
    (State.reset.seq.mode = .idle ∧ State.reset.alpha.isSealed = false) ∧
    (¬(p1.seq.mode = .idle ∧ p1.alpha.isSealed = false)) ∧
    ((alph 1).seq.mode = .alpha ∧ (alph 1).alpha.n ≠ 0) ∧
    ((alph 0).seq.mode = .alpha ∧ (alph 0).alpha.n = 0) ∧
    p1.seq.mode ≠ .alpha := by
  decide

theorem witness_AlphabetTakesTheNextSymbol :
    p1.seq.mode ≠ .alpha ∧
    ((alph 0).seq.mode = .alpha ∧ Reserved 0x002A ∧ Reserved 0x0028) ∧
    (¬Reserved 0x0027 ∧ ¬Reserved 0x002B) ∧
    HasSym (alph 1).alpha 0x41 ∧
    (¬HasSym (alph 2).alpha 0x43 ∧ ¬Reserved 0x43 ∧ (alph 2).alpha.n = (alph 2).cfg.nmax) ∧
    (¬HasSym (alph 1).alpha 0x42 ∧ ¬Reserved 0x42 ∧ (alph 1).alpha.n ≠ (alph 1).cfg.nmax ∧ (alph 1).seq.mode = .alpha) := by
  simp only [Ready, InPerm, IsRotor, HasSym, IsIndexOf, Reserved, Names, Legal, Perm.DerangedOn,
    Perm.InvolutionOn, SlotsDiffer, IsMod]
  decide

theorem witness_AlphabetSizeAndSymbolAreRead :
    Ready p1 ∧
    ¬Ready State.reset ∧
    ((0 : Int) ≤ 5 ∧ (5 : Int) < p1.alpha.n) ∧
    ((6 : Int) < 0 ∨ (p1.alpha.n : Int) ≤ 6) ∧
    ((-1 : Int) < 0 ∨ (p1.alpha.n : Int) ≤ -1) := by
  simp only [Ready, InPerm, IsRotor, HasSym, IsIndexOf, Reserved, Names, Legal, Perm.DerangedOn,
    Perm.InvolutionOn, SlotsDiffer, IsMod]
  decide

theorem witness_AlphabetIsSearched :
    Ready p1 ∧
    IsIndexOf p1.alpha 0x46 5 ∧
    IsIndexOf p1.alpha 0x41 0 ∧
    HasSym p1.alpha 0x41 ∧
    ¬HasSym p1.alpha 0x47 ∧
    ¬Ready State.reset := by
  simp only [Ready, InPerm, IsRotor, HasSym, IsIndexOf, Reserved, Names, Legal, Perm.DerangedOn,
    Perm.InvolutionOn, SlotsDiffer, IsMod]
  decide

theorem witness_ConstructionBegins :
    ¬Ready p1perm ∧
    (Ready p1 ∧ (1 : BitVec 2) ≠ 0) ∧
    ((15 : Nat) ≠ 0xFF ∧ (3 : BitVec 2) = 3) ∧
    (p1.cfg.cmax ≤ 16 ∧ (2 : BitVec 2) ≠ 3) ∧
    (2 < p1.cfg.cmax ∧ (p1.rotor 2).valid = true) ∧
    (15 < p1.cfg.cmax ∧ (p1.rotor 15).valid = false) := by
  simp only [Ready, InPerm, IsRotor, HasSym, IsIndexOf, Reserved, Names, Legal, Perm.DerangedOn,
    Perm.InvolutionOn, SlotsDiffer, IsMod]
  decide

theorem witness_NotchIsStaged :
    (¬(InPerm p1plug false ∧ p1plug.seq.target ≠ 0xFF ∧ p1plug.seq.kind = .movingRotor)) ∧
    (InPerm p1perm false ∧ p1perm.seq.target ≠ 0xFF ∧ p1perm.seq.kind = .movingRotor) ∧
    ¬HasSym p1perm.alpha 0x47 ∧
    IsIndexOf p1perm.alpha 0x46 5 := by
  simp only [Ready, InPerm, IsRotor, HasSym, IsIndexOf, Reserved, Names, Legal, Perm.DerangedOn,
    Perm.InvolutionOn, SlotsDiffer, IsMod]
  decide

theorem witness_GroupOpensAndCloses :
    InPerm p1perm false ∧
    ¬InPerm p1group false ∧
    (InPerm p1open true ∧ p1open.seq.glen = 0) ∧
    (InPerm p1group true ∧ 1 ≤ p1group.seq.glen) ∧
    ¬InPerm p1perm true := by
  simp only [Ready, InPerm, IsRotor, HasSym, IsIndexOf, Reserved, Names, Legal, Perm.DerangedOn,
    Perm.InvolutionOn, SlotsDiffer, IsMod]
  decide

theorem witness_GroupTakesTheNextSymbol :
    ¬InPerm p1perm true ∧
    InPerm p1group true ∧
    ¬HasSym p1group.alpha 0x47 ∧
    (IsIndexOf p1group.alpha 0x42 1 ∧ p1group.seq.seenAt 1 = true) ∧
    (IsIndexOf p1group.alpha 0x43 2 ∧ p1group.seq.seenAt 2 = false ∧ p1group.seq.glen ≠ 0) ∧
    (InPerm p1open true ∧ p1open.seq.seenAt 0 = false ∧ p1open.seq.glen = 0) := by
  simp only [Ready, InPerm, IsRotor, HasSym, IsIndexOf, Reserved, Names, Legal, Perm.DerangedOn,
    Perm.InvolutionOn, SlotsDiffer, IsMod]
  decide

theorem witness_ConstructionCommits :
    ¬InPerm p1group false ∧
    (InPerm p1refl false ∧ p1refl.seq.target ≠ 0xFF ∧ p1refl.seq.kind = .reflector ∧ ¬p1refl.seq.perm.DerangedOn p1refl.alpha.n) ∧
    (InPerm p1plug false ∧ p1plug.seq.target = 0xFF) ∧
    (InPerm p1perm false ∧ p1perm.seq.target ≠ 0xFF ∧ p1perm.seq.kind ≠ .reflector) ∧
    (prm [1, 0, 3, 2, 5, 4] [1, 0, 3, 2, 5, 4]).DerangedOn p1.alpha.n := by
  simp only [Ready, InPerm, IsRotor, HasSym, IsIndexOf, Reserved, Names, Legal, Perm.DerangedOn,
    Perm.InvolutionOn, SlotsDiffer, IsMod]
  decide

theorem witness_LookupByIndexReducesAndReads :
    (Ready p1 ∧ 1 ≤ p1.alpha.n) ∧
    Names p1 0xFF p1.plug ∧
    Names p1 2 (p1.rotor 2).wiring ∧
    (∀ p, ¬Names p1 9 p) ∧
    ¬Ready State.reset := by
  refine ⟨?_, ?_, ?_, target?_eq_none.mp (by decide), ?_⟩ <;>
    simp only [Ready, InPerm, IsRotor, HasSym, IsIndexOf, Reserved, Names, Legal, Perm.DerangedOn,
    Perm.InvolutionOn, SlotsDiffer, IsMod] <;> decide

theorem witness_LookupBySymbolAnswersASymbol :
    Ready p1 ∧
    (Names p1 2 (p1.rotor 2).wiring ∧ IsIndexOf p1.alpha 0x46 5) ∧
    (∀ p, ¬Names p1 254 p) ∧
    (Names p1 0xFF p1.plug ∧ ¬HasSym p1.alpha 0x5A) ∧
    ¬Ready State.reset := by
  refine ⟨?_, ?_, target?_eq_none.mp (by decide), ?_, ?_⟩ <;>
    simp only [Ready, InPerm, IsRotor, HasSym, IsIndexOf, Reserved, Names, Legal, Perm.DerangedOn,
    Perm.InvolutionOn, SlotsDiffer, IsMod] <;> decide

theorem witness_DerangedAnswersTheTest :
    Ready p1 ∧
    (Names p1 0 (p1.rotor 0).wiring ∧ (∀ i < p1.alpha.n, (p1.rotor 0).wiring.fwdAt i ≠ i)) ∧
    (Names p1 2 (p1.rotor 2).wiring ∧ (∃ i < p1.alpha.n, (p1.rotor 2).wiring.fwdAt i = i)) ∧
    (∀ p, ¬Names p1 3 p) ∧
    ¬Ready State.reset := by
  refine ⟨?_, ?_, ?_, target?_eq_none.mp (by decide), ?_⟩ <;>
    simp only [Ready, InPerm, IsRotor, HasSym, IsIndexOf, Reserved, Names, Legal, Perm.DerangedOn,
    Perm.InvolutionOn, SlotsDiffer, IsMod] <;> decide

theorem witness_RotorIsRead :
    (Ready p1 ∧ IsRotor p1 0 ∧ IsRotor p1 2) ∧
    ((p1.rotor 2).kind = .movingRotor ∧ (p1.rotor 2).notchAt (p1.rotor 2).setting = true) ∧
    ((p1.rotor 1).kind ≠ .movingRotor ∧ IsRotor p1 1) ∧
    ((p1x 2 5).rotor 2).notchAt ((p1x 2 5).rotor 2).setting = false ∧
    ¬IsRotor p1 255 ∧
    ¬Ready State.reset := by
  simp only [Ready, InPerm, IsRotor, HasSym, IsIndexOf, Reserved, Names, Legal, Perm.DerangedOn,
    Perm.InvolutionOn, SlotsDiffer, IsMod]
  decide

theorem witness_RotorIsSetByIndex :
    (Ready p1 ∧ IsRotor p1 2 ∧ (0 : Int) ≤ 5 ∧ (5 : Int) < p1.alpha.n ∧ (p1.rotor 2).kind ≠ .reflector) ∧
    (IsRotor p1 0 ∧ (p1.rotor 0).kind = .reflector) ∧
    ((6 : Int) < 0 ∨ (p1.alpha.n : Int) ≤ 6) ∧
    ((-1 : Int) < 0 ∨ (p1.alpha.n : Int) ≤ -1) ∧
    ¬IsRotor p1 9 ∧
    ¬Ready p1perm := by
  simp only [Ready, InPerm, IsRotor, HasSym, IsIndexOf, Reserved, Names, Legal, Perm.DerangedOn,
    Perm.InvolutionOn, SlotsDiffer, IsMod]
  decide

theorem witness_RotorIsSetBySymbol :
    (Ready p1 ∧ IsRotor p1 1 ∧ IsIndexOf p1.alpha 0x46 5 ∧ (p1.rotor 1).kind ≠ .reflector) ∧
    (IsRotor p1 0 ∧ (p1.rotor 0).kind = .reflector ∧ IsIndexOf p1.alpha 0x42 1) ∧
    IsIndexOf p1.alpha 0x41 0 ∧
    ¬HasSym p1.alpha 0x5A ∧
    ¬IsRotor p1 9 ∧
    ¬Ready p1perm := by
  simp only [Ready, InPerm, IsRotor, HasSym, IsIndexOf, Reserved, Names, Legal, Perm.DerangedOn,
    Perm.InvolutionOn, SlotsDiffer, IsMod]
  decide

theorem witness_ContactShiftSurroundsTheWiring :
    (Ready p1 ∧ IsRotor p1 2 ∧ 1 ≤ p1.alpha.n) ∧
    ¬IsRotor p1 0xFF ∧
    ¬Ready State.reset := by
  simp only [Ready, InPerm, IsRotor, HasSym, IsIndexOf, Reserved, Names, Legal, Perm.DerangedOn,
    Perm.InvolutionOn, SlotsDiffer, IsMod]
  decide

theorem witness_RotorAdvancesOnePosition :
    (Ready (p1x 2 5) ∧ IsRotor (p1x 2 5) 2 ∧ ((p1x 2 5).rotor 2).kind = .movingRotor ∧ ((p1x 2 5).rotor 2).setting + 1 = (p1x 2 5).alpha.n) ∧
    (Ready p1 ∧ (p1.rotor 2).setting < p1.alpha.n) ∧
    (IsRotor p1 1 ∧ (p1.rotor 1).kind ≠ .movingRotor) ∧
    ¬IsRotor p1 9 ∧
    ¬Ready State.reset := by
  simp only [Ready, InPerm, IsRotor, HasSym, IsIndexOf, Reserved, Names, Legal, Perm.DerangedOn,
    Perm.InvolutionOn, SlotsDiffer, IsMod]
  decide

theorem witness_ListSequencesBegin :
    Ready p1un ∧
    ¬Ready State.reset ∧
    (Ready p1 ∧ p1.inserted = true) ∧
    (¬(Ready p1un ∧ p1un.inserted = true)) := by
  simp only [Ready, InPerm, IsRotor, HasSym, IsIndexOf, Reserved, Names, Legal, Perm.DerangedOn,
    Perm.InvolutionOn, SlotsDiffer, IsMod]
  decide

theorem witness_InsertionTakesTheNextName :
    p1.seq.mode ≠ .ins ∧
    ((p1ins 3).seq.mode = .ins ∧ (p1ins 3).seq.count = (p1ins 3).cfg.slots) ∧
    ((p1ins 2).seq.count ≠ (p1ins 2).cfg.slots ∧ ¬IsRotor (p1ins 2) 9) ∧
    (IsRotor (p1ins 2) 1 ∧ (∃ j < (p1ins 2).seq.count, (p1ins 2).seq.listAt j = 1)) ∧
    (IsRotor (p1ins 2) 2 ∧ (∀ j < (p1ins 2).seq.count, (p1ins 2).seq.listAt j ≠ 2)) := by
  simp only [Ready, InPerm, IsRotor, HasSym, IsIndexOf, Reserved, Names, Legal, Perm.DerangedOn,
    Perm.InvolutionOn, SlotsDiffer, IsMod]
  decide

theorem witness_InsertionCommits :
    p1.seq.mode ≠ .ins ∧
    ((p1ins 2).seq.mode = .ins ∧ (p1ins 2).seq.count < (p1ins 2).cfg.slots) ∧
    ((p1ins 3).cfg.slots ≤ (p1ins 3).seq.count ∧ ((p1ins 3).rotor ((p1ins 3).seq.listAt 0)).wiring.DerangedOn (p1ins 3).alpha.n) ∧
    (let s : State := { p1ins 3 with seq := { (p1ins 3).seq with list := [(0, 2), (1, 1)] } };
      s.seq.mode = .ins ∧ s.cfg.slots ≤ s.seq.count ∧ ¬(s.rotor (s.seq.listAt 0)).wiring.DerangedOn s.alpha.n) := by
  simp only [Ready, InPerm, IsRotor, HasSym, IsIndexOf, Reserved, Names, Legal, Perm.DerangedOn,
    Perm.InvolutionOn, SlotsDiffer, IsMod]
  decide

theorem witness_SettingTakesTheNextSymbol :
    p1.seq.mode ≠ .set ∧
    ((p1set 2).seq.mode = .set ∧ (p1set 2).seq.count + 1 = (p1set 2).cfg.slots) ∧
    ((p1set 1).seq.count + 1 ≠ (p1set 1).cfg.slots ∧ ¬HasSym (p1set 1).alpha 0x5A) ∧
    (p1rr.seq.mode = .set ∧ p1rr.seq.count + 1 ≠ p1rr.cfg.slots ∧ IsIndexOf p1rr.alpha 0x42 1 ∧
      (p1rr.rotor (p1rr.slotAt (p1rr.seq.count + 1))).kind = .reflector) ∧
    (IsIndexOf (p1set 1).alpha 0x46 5 ∧ ((p1set 1).rotor ((p1set 1).slotAt 2)).kind ≠ .reflector) ∧
    IsIndexOf p1rr.alpha 0x41 0 := by
  simp only [Ready, InPerm, IsRotor, HasSym, IsIndexOf, Reserved, Names, Legal, Perm.DerangedOn,
    Perm.InvolutionOn, SlotsDiffer, IsMod]
  decide

theorem witness_SettingsCommitTogether :
    p1.seq.mode ≠ .set ∧
    ((p1set 1).seq.mode = .set ∧ (p1set 1).seq.count + 1 < (p1set 1).cfg.slots) ∧
    ((p1set 2).cfg.slots ≤ (p1set 2).seq.count + 1 ∧ SlotsDiffer (p1set 2)) := by
  simp only [Ready, InPerm, IsRotor, HasSym, IsIndexOf, Reserved, Names, Legal, Perm.DerangedOn,
    Perm.InvolutionOn, SlotsDiffer, IsMod]
  decide

theorem witness_SlotIsRead :
    (Ready p1 ∧ p1.inserted = true) ∧
    (2 < p1.cfg.slots ∧ p1.cfg.slots ≤ 3) ∧
    (¬(Ready p1un ∧ p1un.inserted = true)) := by
  simp only [Ready, InPerm, IsRotor, HasSym, IsIndexOf, Reserved, Names, Legal, Perm.DerangedOn,
    Perm.InvolutionOn, SlotsDiffer, IsMod]
  decide

/-- The double step of V-STEP-1; slot 0 and, under HISTORICAL, the leftmost eligible slot at its notch (V-STEP-4) do not advance. -/
theorem witness_SteppingIsOneBatch :
    SlotsDiffer (p3 (cfg4 3 .literal) 0 4 22) ∧
    Adv (p3 (cfg4 3 .literal) 0 4 22) 1 ∧
    Adv (p3 (cfg4 3 .literal) 0 4 22) 3 ∧
    ((p3 (cfg4 3 .literal) 0 4 22).slotRotor 1).kind = .movingRotor ∧
    ¬Adv (p3 (cfg4 3 .literal) 0 4 22) 0 ∧
    ¬Adv (p3 (cfg4 2 .historical) 0 4 0) 2 ∧
    (∀ k < (p3 (cfg4 3 .literal) 0 4 22).cfg.slots, (p3 (cfg4 3 .literal) 0 4 22).slotAt k ≠ 4) := by
  exact ⟨inv_p3.insertion rfl |>.differ, (advances_iff (by decide)).mp (by decide), (advances_iff (by decide)).mp (by decide),
    by decide, fun h => absurd ((advances_iff (by decide)).mpr h) (by decide),
    fun h => absurd ((advances_iff (by decide)).mpr h) (by decide), by decide⟩

/-- V-PATH-1, last row: the trace of F at settings 0, 0, 0. -/
theorem witness_SignalPathIsTheTwoLoops :
    (∃ y : Nat → Nat, y 0 = p1.plug.permute p1.alpha.n 5 ∧
      (∀ j < p1.cfg.slots, y (j + 1) = (p1.slotRotor (p1.cfg.slots - 1 - j)).convertForward p1.alpha.n (y j)) ∧
      ∀ j, j + 1 < p1.cfg.slots → y (p1.cfg.slots + j + 1) = (p1.slotRotor (j + 1)).convertBackward p1.alpha.n (y (p1.cfg.slots + j))) ∧
    (Inv p1 ∧ p1.inserted = true) := by
  refine ⟨⟨fun k => [5, 5, 4, 5, 2, 0].getD k 0, by decide, by decide, fun j hj => ?_⟩, inv_p1, rfl⟩
  have hs : p1.cfg.slots = 3 := rfl
  have : j = 0 ∨ j = 1 := by omega
  rcases this with rfl | rfl <;> decide

theorem witness_KeystrokeByIndexStepsThenConverts :
    (Ready p1 ∧ p1.inserted = true) ∧
    (¬(Ready p1un ∧ p1un.inserted = true)) ∧
    (IsMod (-1) p1.alpha.n 5 ∧ IsMod 6 p1.alpha.n 0) := by
  refine ⟨?_, ?_, ⟨⟨by decide, ⟨-1, by decide⟩⟩, ⟨by decide, ⟨1, by decide⟩⟩⟩⟩ <;>
    simp only [Ready] <;> decide

theorem witness_KeystrokeBySymbolFailsBeforeStepping :
    (Ready p1 ∧ p1.inserted = true) ∧
    IsIndexOf p1.alpha 0x46 5 ∧
    ¬HasSym p1.alpha 0x5A ∧
    (¬(Ready p1un ∧ p1un.inserted = true)) := by
  simp only [Ready, InPerm, IsRotor, HasSym, IsIndexOf, Reserved, Names, Legal, Perm.DerangedOn,
    Perm.InvolutionOn, SlotsDiffer, IsMod]
  decide

theorem witness_ModulusIsFloored :
    1 ≤ (1 : Nat) ∧
    IsMod (-27) 26 25 := by
  exact ⟨by decide, by decide, ⟨-2, by decide⟩⟩

theorem witness_SymbolsAndIndicesAreInverse :
    Inv p1 ∧
    5 < p1.alpha.n ∧
    p1.alpha.contains 0x46 = true := by
  exact ⟨inv_p1, by decide, by decide⟩

theorem witness_LookupsUndoEachOther :
    Inv p1 ∧
    p1.alpha.isSealed = true ∧
    Names p1 2 (p1.rotor 2).wiring := by
  exact ⟨inv_p1, rfl, Or.inr ⟨by decide, State.rotorB_iff.mp (by decide), rfl⟩⟩

theorem witness_ContactShiftsUndoEachOther :
    Inv p1 ∧
    IsRotor p1 2 ∧
    (IsRotor p1 0 ∧ (p1.rotor 0).wiring.InvolutionOn p1.alpha.n) := by
  exact ⟨inv_p1, State.rotorB_iff.mp (by decide), State.rotorB_iff.mp (by decide), Perm.involutionB_iff.mp (by decide)⟩

theorem witness_DoubleStepMovesThreeRotors :
    Inv (p3 (cfg4 3 .literal) 0 4 22) ∧
    Ready (p3 (cfg4 3 .literal) 0 4 22) ∧
    ((p3 (cfg4 3 .literal) 0 4 22).inserted = true ∧ (p3 (cfg4 3 .literal) 0 4 22).cfg.slots = 4 ∧ (p3 (cfg4 3 .literal) 0 4 22).cfg.pawls = 3) ∧
    (∀ k, 1 ≤ k → k ≤ 3 → ((p3 (cfg4 3 .literal) 0 4 22).slotRotor k).kind = .movingRotor) ∧
    (¬Notched (p3 (cfg4 3 .literal) 0 4 22) 1 ∧ Notched (p3 (cfg4 3 .literal) 0 4 22) 2 ∧ ¬Notched (p3 (cfg4 3 .literal) 0 4 22) 3) := by
  refine ⟨inv_p3, by simp only [Ready]; decide, by decide, ?_, by simp only [Notched]; decide⟩
  intro k h1 h3
  have : k = 1 ∨ k = 2 ∨ k = 3 := by omega
  rcases this with rfl | rfl | rfl <;> decide

theorem witness_PlugboardActsAtTheEndsOnly :
    (Inv p1 ∧ p1.inserted = true ∧ (∀ i < p1.alpha.n, p1.plug.fwdAt i = i)) ∧
    (Inv p1ab ∧ p1ab.inserted = true ∧ p1ab.plug.fwdAt 0 = 1 ∧ p1ab.plug.fwdAt 1 = 0 ∧
      (∀ i < p1ab.alpha.n, i ≠ 0 → i ≠ 1 → p1ab.plug.fwdAt i = i)) := by
  exact ⟨⟨inv_p1, rfl, by decide⟩, inv_p1ab, rfl, by decide, by decide, by decide⟩

/-- V-PATH-2 (CONV_IDX 6 and so 0 -> 5); CONV_SYM 'B' worked by hand from the tables of P1: 1, 1, 0, 3, 2, 4, 4, 4. -/
theorem witness_SteppingIgnoresTheInput :
    Answers (.convIdx 0) p1 p1.stepRotors 5 ∧
    Answers (.convSym 0x42) p1 p1.stepRotors 0x45 := by
  exact ⟨rfl, rfl⟩

theorem witness_KeystrokeIsSelfReciprocal :
    (Inv p1ab ∧ Ready p1ab ∧ p1ab.inserted = true) ∧
    (p1ab.slotRotor 0).wiring.InvolutionOn p1ab.alpha.n ∧
    p1ab.plug.InvolutionOn p1ab.alpha.n := by
  exact ⟨⟨inv_p1ab, by simp only [Ready]; decide, rfl⟩, Perm.involutionB_iff.mp (by decide), Perm.involutionB_iff.mp (by decide)⟩

theorem witness_CycleNotationBuildsItsPermutation :
    (Inv p1 ∧ Ready p1) ∧
    (15 < p1.cfg.cmax ∧ (1 : BitVec 2) ≠ 3 ∧ (p1.rotor 15).valid = false) ∧
    ((∀ i ∈ [[0, 3, 1], [], [5]].flatten, i < p1.alpha.n) ∧ [[0, 3, 1], [], [5]].flatten.Nodup) := by
  exact ⟨⟨inv_p1, by simp only [Ready]; decide⟩, by decide, by decide⟩

/-- P1 with other values where the spec leaves none: a symbol above N, an undefined entry's setting and table, and stale staging. -/
def p1other : State :=
  { p1 with
    alpha := { p1.alpha with sym := p1.alpha.sym ++ [(6, 0x5A)] }
    cat := p1.cat ++ [(3, { Rotor.reset with setting := 4, notch := [(2, true)] })]
    seq := { Seq.reset with target := 7, glen := 3, seen := [(1, true)], list := [(0, 9)], count := 2 } }

theorem rotor_p1other (c : Nat) : (p1.rotor c).valid = (p1other.rotor c).valid ∧
    ((p1.rotor c).valid = true → p1.rotor c = p1other.rotor c) := by
  match c with
  | 0 | 1 | 2 | 3 => decide
  | n + 4 => simp [p1other, p1, State.rotor, Table.read, Table.find]

theorem inv_p1other : Inv p1other :=
  inv_of_idle (by decide) (by decide) (by decide) rfl rfl (by decide) (by decide) (by decide) rfl

theorem witness_UnspecifiedStateIsNeverObserved : Inv p1 ∧ Inv p1other ∧ LooksLike p1 p1other ∧ p1 ≠ p1other := by
  refine ⟨inv_p1, inv_p1other, ?_, by decide⟩
  exact
    { cfg := rfl, size := rfl, isSealed := rfl, sym := by decide, valid := fun c => (rotor_p1other c).1,
      rotor := fun c h => by
        rw [← (rotor_p1other c).2 h]
        exact ⟨rfl, rfl, fun _ _ => rfl, fun _ _ => ⟨rfl, rfl⟩⟩
      plug := fun _ _ => ⟨rfl, rfl⟩, inserted := rfl, slot := fun _ _ _ => rfl, mode := rfl, staging := fun h => (by cases h),
      group := fun h => (by cases h), list := fun h => (by rcases h with h | h <;> cases h), fsr := rfl, inbox := rfl, outbox := rfl }

end Sys2Proof.Tests
end

section
/-! The floored modulus and the sealed alphabet (00_scope.md R12, R15). -/

namespace Sys2Proof.Machine

-- The modulus.

/-- Settles O49: `isMod_modN` is existence, `modN_eq` uniqueness; the three values follow from uniqueness. -/
theorem modulusIsFloored : Obligations.ModulusIsFloored := by
  unfold Obligations.ModulusIsFloored
  refine ⟨fun a n hn => ⟨isMod_modN a hn, fun r hr => (modN_eq hr).symm⟩, ?_, ?_, ?_⟩
  · exact modN_eq ⟨by decide, -1, by decide⟩
  · exact modN_eq ⟨by decide, -1, by decide⟩
  · exact modN_eq ⟨by decide, -2, by decide⟩

-- What the alphabet is after a command.

@[simp] theorem setSlots_alpha (s : State) (m : Nat) : (s.setSlots m).alpha = s.alpha := by
  rw [setSlots_eq, State.withCat_alpha]

/-- Only the three commands of the alphabet sequence write the alphabet. -/
theorem effect_alpha {i : Instr} {s u : State} {v : Half} (h : Effect i s u v) (hbegin : i ≠ .alphaBegin)
    (hsym : ∀ c, i ≠ .alphaSym c) (hend : i ≠ .alphaEnd) : u.alpha = s.alpha := by
  cases i <;> simp only [Effect] at h
  case alphaBegin => exact absurd rfl hbegin
  case alphaSym c => exact absurd rfl (hsym c)
  case alphaEnd => exact absurd rfl hend
  case stat => obtain ⟨rfl, -⟩ := h; rfl
  case alphaSize | alphaToint | alphaHas | cycOpen | cycClose | permuteIdx | invertIdx | permuteSym | invertSym |
      deranged | insBegin =>
    obtain ⟨-, rfl, -⟩ := h; rfl
  case rotKind | rotGet | rotFwd | rotBwd | rotAdv | rotAtnotch | setBegin | convIdx | convSym =>
    obtain ⟨-, -, rfl, -⟩ := h; rfl
  case setEnd => obtain ⟨-, -, rfl, -⟩ := h; simp
  case alphaTochar | insEnd | slotGet => obtain ⟨-, -, -, rfl, -⟩ := h; rfl
  case insName => obtain ⟨-, -, -, -, rfl, -⟩ := h; rfl
  case rotSetIdx => obtain ⟨-, -, -, -, -, rfl, -⟩ := h; rfl
  case cycSym => obtain ⟨-, -, j, -, -, rfl⟩ := h; rfl
  case rotSetSym | setSym => obtain ⟨-, -, -, j, -, -, rfl⟩ := h; rfl
  case bldNotch => obtain ⟨-, -, -, -, j, -, rfl⟩ := h; rfl
  case bldBegin => obtain ⟨-, -, ⟨-, -, rfl⟩ | ⟨-, -, -, kind, -, rfl⟩⟩ := h <;> rfl
  case bldEnd => obtain ⟨-, -, -, ⟨-, rfl⟩ | ⟨-, rfl⟩⟩ := h <;> rfl

-- The sealed alphabet.

/-- A sealed alphabet is not under construction. -/
theorem Inv.mode_ne_alpha {s : State} (hI : Inv s) (hs : s.alpha.isSealed = true) : s.seq.mode ≠ .alpha := by
  intro hm
  have hu : s.alpha.isSealed = false := (hI.modeSeal (by simp [hm])).mp hm
  simp [hs] at hu

/-- No effect writes a sealed alphabet: ALPHA_BEGIN needs it unsealed, ALPHA_SYM and ALPHA_END need its construction open. -/
theorem effect_alpha_of_sealed {i : Instr} {s u : State} {v : Half} (hI : Inv s) (hs : s.alpha.isSealed = true)
    (h : Effect i s u v) : u.alpha = s.alpha := by
  refine effect_alpha h ?_ ?_ ?_
  · rintro rfl
    obtain ⟨-, hu, -⟩ := h
    simp [hs] at hu
  · rintro c rfl
    obtain ⟨hm, -⟩ := h
    exact hI.mode_ne_alpha hs hm
  · rintro rfl
    obtain ⟨hm, -⟩ := h
    exact hI.mode_ne_alpha hs hm

/-- No command changes a sealed alphabet, however it ends: the fault entry discards only an alphabet under construction. -/
theorem exec_alpha_of_sealed {i : Instr} {s t : State} (hI : Inv s) (hs : s.alpha.isSealed = true)
    (h : exec i s = .next t) : t.alpha = s.alpha := by
  rcases exec_cases h with ⟨f, rfl⟩ | ⟨u, v, hu, rfl⟩
  · rw [State.takeFault_alpha, if_neg (hI.mode_ne_alpha hs)]
  · rw [State.reply_alpha]
    exact effect_alpha_of_sealed hI hs hu

/-- Settles O18: `exec_alpha_of_sealed`, and the bounds of the invariant. -/
theorem sealedAlphabetIsConstant : Obligations.SealedAlphabetIsConstant := by
  unfold Obligations.SealedAlphabetIsConstant
  intro i s t hI hs h
  exact ⟨exec_alpha_of_sealed hI hs h, hI.sealedSize hs, hI.size⟩

end Sys2Proof.Machine
end

section
/-! Reset, one step, and the fault register (10_state.md R36, R42; 30_encoding.md R70). -/

namespace Sys2Proof.Machine

-- The state after reset.

theorem Perm.bijOn_identity (n : Nat) : Perm.identity.BijOn n := fun _ hi => ⟨hi, hi, rfl, rfl⟩

/-- Settles O8: the fields of `State.resetWith`. -/
theorem resetLeavesTheSpecsValues : Obligations.ResetLeavesTheSpecsValues := by
  unfold Obligations.ResetLeavesTheSpecsValues
  rintro cfg s rfl
  exact ⟨rfl, rfl, rfl, fun _ => rfl, fun _ _ => ⟨rfl, rfl⟩, rfl, rfl, rfl, rfl⟩

theorem Capacity.resetWith (cfg : Config) : Capacity (State.resetWith cfg) := by
  constructor <;> simp [State.resetWith, Perm.identity, Seq.reset, State.rotor, Rotor.reset, Table.within]

/-- Settles O16: every table is empty, no entry is defined and no sequence is open. -/
theorem resetMeetsTheInvariant : Obligations.ResetMeetsTheInvariant := by
  unfold Obligations.ResetMeetsTheInvariant
  intro cfg
  exact
    { tables := Memory.wf_resetWith cfg
      capacity := Capacity.resetWith cfg
      size := Nat.zero_le _
      symDiffer := nofun
      symFree := nofun
      sealedSize := nofun
      unsealedIdle := fun _ _ => rfl
      modeSeal := fun h => absurd rfl h
      plugUnsealed := fun _ _ => ⟨rfl, rfl⟩
      plug := Perm.bijOn_identity 0
      rotorSealed := nofun
      rotors := nofun
      insertedSealed := nofun
      insertion := nofun
      staging := nofun
      insList := nofun
      setList := nofun
      fsr := .inl ⟨rfl, rfl⟩ }

-- One step.

/-- Everything a step can do: nothing, a reset, a command's run, or the fault of a word that is no command. -/
theorem step_cases {s t : State} (h : step s = .next t) :
    (s.inbox = [] ∧ t = s) ∨
    (∃ es, s.inbox = .reset :: es ∧ t = (s.withInbox es).assertReset) ∨
    (∃ w es, s.inbox = .command w :: es ∧
      ((∃ i, decode w = .ok i ∧ exec i (s.withInbox es) = .next t) ∨
        ((∃ r, decode w = .error r) ∧ t = (s.withInbox es).takeFault .badCommand))) := by
  unfold step State.nextEvent at h
  rcases hin : s.inbox with _ | ⟨w | _, es⟩ <;> simp only [hin] at h
  case nil => cases h; exact .inl ⟨rfl, rfl⟩
  case cons.reset => cases h; exact .inr (.inl ⟨es, rfl, rfl⟩)
  case cons.command =>
    refine .inr (.inr ⟨w, es, rfl, ?_⟩)
    cases hw : decode w with
    | ok i => simp only [hw] at h; exact .inl ⟨i, rfl, h⟩
    | error r =>
      simp only [hw] at h
      refine .inr ⟨⟨r, rfl⟩, ?_⟩
      cases r <;> cases h <;> rfl

-- The fault register.

/-- Once a fault is recorded, later ones are not (10_state.md R36). -/
theorem Fsr.record_of_any {r : Fsr} (h : r.any = true) (f : FaultCode) : r.record f = r := if_pos h

theorem Fsr.record_of_clear {r : Fsr} (h : r.any = false) (f : FaultCode) : r.record f = { any := true, code := f.code } :=
  if_neg (by simp [h])

theorem Fsr.toNat_statValue (r : Fsr) : r.statValue.toNat = (if r.any then 256 else 0) + r.code.toNat := by
  unfold Fsr.statValue
  rw [BitVec.toNat_append, BitVec.toNat_append, ← Nat.shiftLeft_add_eq_or_of_lt r.code.isLt]
  cases r.any <;> rfl

/-- No command changes a fault register that holds a fault. -/
theorem exec_fsr_of_any {i : Instr} {s t : State} (ha : s.fsr.any = true) (h : exec i s = .next t) : t.fsr = s.fsr := by
  rcases exec_cases h with ⟨f, rfl⟩ | ⟨u, v, hu, rfl⟩
  · exact Fsr.record_of_any ha f
  · obtain ⟨-, -, -, hf⟩ := effect_frame hu
    exact hf

/-- No step but a reset changes a fault register that holds a fault. -/
theorem step_fsr_of_any {s t : State} (ha : s.fsr.any = true) (hr : ∀ es, s.inbox ≠ .reset :: es) (h : step s = .next t) :
    t.fsr = s.fsr := by
  rcases step_cases h with ⟨-, rfl⟩ | ⟨es, he, -⟩ | ⟨w, es, -, ⟨i, -, hx⟩ | ⟨-, rfl⟩⟩
  · rfl
  · exact absurd he (hr es)
  · exact exec_fsr_of_any (s := s.withInbox es) ha hx
  · exact Fsr.record_of_any (r := s.fsr) ha _

/-- A command's response status says what it did to the fault register (10_state.md R36). -/
theorem exec_fsr {i : Instr} {s t : State} {w : Word} (h : exec i s = .next t) (ho : t.outbox = s.outbox ++ [w]) :
    (opField w = 0 ∧ t.fsr = s.fsr) ∨ ∃ f : FaultCode, opField w = f.code ∧ t.fsr = s.fsr.record f := by
  rcases exec_word h ho with ⟨f, rfl, rfl⟩ | ⟨u, v, hu, rfl, rfl⟩
  · exact .inr ⟨f, opField_faultWord f, rfl⟩
  · obtain ⟨-, -, -, hf⟩ := effect_frame hu
    exact .inl ⟨opField_okWord v, hf⟩

/-- Settles O15: `exec_fsr` for the commands, `step_fsr_of_any` for the steps, `Fsr.toNat_statValue` for STAT. -/
theorem faultRegisterKeepsTheFirstFault : Obligations.FaultRegisterKeepsTheFirstFault := by
  unfold Obligations.FaultRegisterKeepsTheFirstFault
  refine ⟨fun _ => rfl, fun i s t w h ho => ?_, fun s t h ha hr => step_fsr_of_any ha hr h,
    fun s => ⟨s.fsr.statValue, rfl, s.fsr.toNat_statValue⟩⟩
  rcases exec_fsr h ho with ⟨hw, hf⟩ | ⟨f, hw, hf⟩
  · exact ⟨fun _ => hf, fun hn => absurd hw hn, fun hn => absurd hw hn⟩
  · rw [hw, hf]
    exact ⟨fun h0 => absurd h0 f.code_ne_zero, fun _ ha => Fsr.record_of_any ha f, fun _ ha => Fsr.record_of_clear ha f⟩

end Sys2Proof.Machine
end

section
/-! What the construction commands build up: lists of different elements, one by one (40_alphabet.md R102, 43_machine_config.md
R144), and bijections (41_permutation_lookup.md R117 to R119). -/

namespace Sys2Proof.Machine

/-- Different elements, and one more that is none of them, are different elements. -/
theorem differ_of_snoc {α : Type} {f g : Nat → α} {n : Nat} {x : α} (hd : ∀ i < n, ∀ j < n, f i = f j → i = j)
    (hx : ∀ i < n, f i ≠ x) (hg : ∀ k, g k = if k = n then x else f k) : ∀ i < n + 1, ∀ j < n + 1, g i = g j → i = j := by
  intro i hi j hj
  rw [hg, hg]
  rcases Nat.lt_succ_iff_lt_or_eq.mp hi with hi | rfl <;> rcases Nat.lt_succ_iff_lt_or_eq.mp hj with hj | rfl
  · simpa only [hi.ne, hj.ne, if_false] using hd i hi j hj
  · simpa only [hi.ne, if_false, if_true] using fun e => absurd e (hx i hi)
  · simpa only [hj.ne, if_false, if_true] using fun e => absurd e.symm (hx j hj)
  · exact fun _ => rfl

/-- Tables that read alike are bijections alike. -/
theorem Perm.BijOn.congr {n : Nat} {p p' : Perm} (h : p.BijOn n) (hf : ∀ k, p'.fwdAt k = p.fwdAt k)
    (hv : ∀ k, p'.invAt k = p.invAt k) : p'.BijOn n := fun i hi => by
  simpa only [hf, hv] using h i hi

/-- A copy of a bijection's first `n` elements is one, whatever it is copied over. -/
theorem Perm.BijOn.copyTo {n : Nat} {src : Perm} (h : src.BijOn n) (dst : Perm) : (src.copyTo n dst).BijOn n := fun i hi => by
  obtain ⟨h1, h2, h3, h4⟩ := h i hi
  simp [hi, h1, h2, h3, h4]

theorem Perm.DerangedOn.copyTo {n : Nat} {src : Perm} (h : src.DerangedOn n) (dst : Perm) :
    (src.copyTo n dst).DerangedOn n := fun i hi => by simpa [hi] using h i hi

/-- A fixed point `i` of a bijection, put into a cycle between `a` and its image `b`. -/
theorem Perm.BijOn.insert {n a b i : Nat} {p p' : Perm} (h : p.BijOn n) (ha : a < n) (hi : i < n) (hab : p.fwdAt a = b)
    (hfix : p.fwdAt i = i) (hne : i ≠ a)
    (hf : ∀ k, p'.fwdAt k = if k = i then b else if k = a then i else p.fwdAt k)
    (hv : ∀ k, p'.invAt k = if k = b then i else if k = i then a else p.invAt k) : p'.BijOn n := by
  have hb : b < n := hab ▸ (h a ha).1
  have hib : p.invAt b = a := hab ▸ (h a ha).2.2.1
  have hii : p.invAt i = i := by simpa [hfix] using (h i hi).2.2.1
  have hneb : i ≠ b := fun e => hne (by rw [← hii, e, hib])
  intro k hk
  obtain ⟨h1, h2, h3, h4⟩ := h k hk
  refine ⟨?_, ?_, ?_, ?_⟩
  · rw [hf]; split_ifs <;> assumption
  · rw [hv]; split_ifs <;> assumption
  · by_cases hki : k = i
    · simp [hf, hv, hki]
    by_cases hka : k = a
    · simp [hf, hv, hka, hne.symm, hneb]
    have hkb : p.fwdAt k ≠ b := fun e => hka (by rw [← h3, e, hib])
    have hkf : p.fwdAt k ≠ i := fun e => hki (by rw [← h3, e, hii])
    simp only [hf, hv, hki, hka, hkb, hkf, h3, if_false]
  · by_cases hkb : k = b
    · simp [hf, hv, hkb]
    by_cases hki : k = i
    · simp [hf, hv, hki, hne.symm, hneb]
    have hka : p.invAt k ≠ a := fun e => hkb (by rw [← h4, e, hab])
    have hkf : p.invAt k ≠ i := fun e => hki (by rw [← h4, e, hfix])
    simp only [hf, hv, hkb, hki, hka, hkf, h4, if_false]

end Sys2Proof.Machine
end

section
/-! Every kind of write keeps the invariant (10_state.md R38): the channels and the fault register, the alphabet, the staging, the
plugboard, the catalog, the slots. -/

namespace Sys2Proof.Machine

-- The channels and the fault register.

/-- What the invariant asks of the fault register. -/
def FsrOk (r : Fsr) : Prop := (r.any = false ∧ r.code = 0) ∨ (r.any = true ∧ ∃ f : FaultCode, r.code = f.code)

theorem FsrOk.record {r : Fsr} (h : FsrOk r) (f : FaultCode) : FsrOk (r.record f) := by
  unfold Fsr.record
  split
  · exact h
  · exact .inr ⟨rfl, f, rfl⟩

/-- The channels play no part in the invariant, and the fault register only its own. -/
theorem Inv.withFsr {s : State} (h : Inv s) {r : Fsr} (hr : FsrOk r) (es : List HostEvent) (ws : List Word) :
    Inv { s with fsr := r, inbox := es, outbox := ws } :=
  { h with
    capacity := { h.capacity with }
    insertion := fun hi => { h.insertion hi with }
    staging := fun hm => { h.staging hm with }
    insList := fun hm => { h.insList hm with }
    setList := fun hm => { h.setList hm with }
    fsr := hr }

theorem Inv.withInbox {s : State} (h : Inv s) (es : List HostEvent) : Inv (s.withInbox es) := h.withFsr h.fsr es s.outbox

theorem Inv.reply {s : State} (h : Inv s) (w : Word) : Inv (s.reply w) := h.withFsr h.fsr s.inbox (s.outbox ++ [w])

-- The alphabet.

theorem Inv.not_valid_of_unsealed {s : State} (h : Inv s) (hs : s.alpha.isSealed = false) (c : Nat) :
    (s.rotor c).valid ≠ true := fun hv => absurd (h.rotorSealed c hv).1 (by simp [hs])

theorem Inv.not_inserted_of_unsealed {s : State} (h : Inv s) (hs : s.alpha.isSealed = false) : s.inserted ≠ true :=
  fun hi => absurd (h.insertedSealed hi) (by simp [hs])

/-- What the invariant asks of the symbols. -/
structure AlphaOk (c : Config) (a : Alphabet) : Prop where
  within : Table.within c.nmax a.sym
  size : a.n ≤ c.nmax
  differ : ∀ i < a.n, ∀ j < a.n, a.symAt i = a.symAt j → i = j
  free : ∀ i < a.n, ¬Reserved (a.symAt i)

theorem Inv.alphaOk {s : State} (h : Inv s) : AlphaOk s.cfg s.alpha := ⟨h.capacity.sym, h.size, h.symDiffer, h.symFree⟩

theorem AlphaOk.clear {c : Config} {a : Alphabet} (h : AlphaOk c a) : AlphaOk c { a with n := 0 } :=
  ⟨h.within, Nat.zero_le _, nofun, nofun⟩

theorem AlphaOk.seal {c : Config} {a : Alphabet} (h : AlphaOk c a) : AlphaOk c { a with isSealed := true } := { h with }

/-- A new symbol that is neither reserved nor a duplicate, while there is room for it (40_alphabet.md R102). -/
theorem AlphaOk.push {c : Config} {a : Alphabet} (h : AlphaOk c a) {x : Sym} (hr : ¬Reserved x) (hd : ¬HasSym a x)
    (hn : a.n ≠ c.nmax) : AlphaOk c { a with sym := Table.write symD a.sym a.n x, n := a.n + 1 } := by
  have hlt : a.n < c.nmax := Nat.lt_of_le_of_ne h.size hn
  have hread := fun k => Table.read_write symD a.sym a.n k x
  refine ⟨Table.within_write h.within hlt x, hlt, differ_of_snoc h.differ (fun i hi e => hd ⟨i, hi, e⟩) hread,
    fun i (hi : i < a.n + 1) => ?_⟩
  rw [Alphabet.symAt, hread]
  split
  · exact hr
  · exact h.free i (by omega)

/-- While the alphabet is unsealed nothing else holds anything, so only the symbols and the mode have to be right. -/
theorem Inv.withAlpha {s : State} (h : Inv s) (hs : s.alpha.isSealed = false) {a : Alphabet} {m : Mode}
    (ht : Table.wf symD a.sym) (ha : AlphaOk s.cfg a)
    (hm : (a.isSealed = true ∧ 1 ≤ a.n ∧ m = .idle) ∨ (a.isSealed = false ∧ (m = .alpha ∨ m = .idle ∧ a.n = 0))) :
    Inv ((s.withAlpha a).withMode m) := by
  have hv := h.not_valid_of_unsealed hs
  have hi := h.not_inserted_of_unsealed hs
  have hp := h.plugUnsealed hs
  have hmode : m = .idle ∨ m = .alpha := by tauto
  have hsize : a.isSealed = true → 1 ≤ a.n := by grind
  have hidle : a.isSealed = false → m = .idle → a.n = 0 := by grind
  have hseal : m ≠ .idle → (m = .alpha ↔ a.isSealed = false) := by grind
  exact
    { h with
      tables := Memory.wf_withAlpha h.tables ht
      capacity := { h.capacity with sym := ha.within }
      size := ha.size
      symDiffer := ha.differ
      symFree := ha.free
      sealedSize := hsize
      unsealedIdle := hidle
      modeSeal := hseal
      plugUnsealed := fun _ => hp
      plug := (Perm.bijOn_identity a.n).congr (fun k => (hp k).1) (fun k => (hp k).2)
      rotorSealed := fun c hc => absurd hc (hv c)
      rotors := fun c hc => absurd hc (hv c)
      insertedSealed := fun hc => absurd hc hi
      insertion := fun hc => absurd hc hi
      staging := fun (hk : m = .perm) => by simp [hk] at hmode
      insList := fun (hk : m = .ins) => by simp [hk] at hmode
      setList := fun (hk : m = .set) => by simp [hk] at hmode }

-- The sequencer.

/-- What the invariant asks of the sequencer of a block with a sealed alphabet. -/
structure SequenceOk (s : State) : Prop where
  mode : s.seq.mode ≠ .alpha
  perm : s.seq.mode = .perm → StagingOk s
  ins : s.seq.mode = .ins → InsListOk s
  set : s.seq.mode = .set → SetListOk s

theorem SequenceOk.ofIdle {s : State} (hm : s.seq.mode = .idle) : SequenceOk s := by
  constructor <;> simp [hm]

theorem SequenceOk.ofPerm {s : State} (hm : s.seq.mode = .perm) (h : StagingOk s) : SequenceOk s := by
  constructor <;> simp [hm, h]

theorem SequenceOk.ofIns {s : State} (hm : s.seq.mode = .ins) (h : InsListOk s) : SequenceOk s := by
  constructor <;> simp [hm, h]

theorem SequenceOk.ofSet {s : State} (hm : s.seq.mode = .set) (h : SetListOk s) : SequenceOk s := by
  constructor <;> simp [hm, h]

/-- A sequence other than the alphabet's runs with a sealed alphabet only. -/
theorem Inv.sealed_of_mode {s : State} {m : Mode} (h : Inv s) (hm : s.seq.mode = m) (hi : m ≠ .idle := by decide)
    (ha : m ≠ .alpha := by decide) : s.alpha.isSealed = true := by
  subst hm
  simpa using mt (h.modeSeal hi).mpr ha

/-- The staging's tables within their capacity. -/
def Seq.Fits (c : Config) (q : Seq) : Prop :=
  (Table.within c.nmax q.perm.fwd ∧ Table.within c.nmax q.perm.inv ∧ Table.within c.nmax q.seen ∧ Table.within c.nmax q.notch) ∧
    Table.within c.slots q.list

theorem Inv.fits {s : State} (h : Inv s) : s.seq.Fits s.cfg := ⟨h.capacity.staged, h.capacity.list⟩

/-- A new staging, of which the open sequence says what it has to be. -/
theorem Inv.withSeq {s : State} (h : Inv s) (hs : s.alpha.isSealed = true) {q : Seq} (ht : Memory.wf (s.withSeq q))
    (hf : q.Fits s.cfg) (hq : SequenceOk (s.withSeq q)) : Inv (s.withSeq q) :=
  { h with
    tables := ht
    capacity := { h.capacity with staged := hf.1, list := hf.2 }
    unsealedIdle := fun hc => absurd hs (by simpa using hc)
    modeSeal := fun _ => ⟨fun hc => absurd hc hq.mode, fun hc => absurd hs (by simpa using hc)⟩
    insertion := fun hi => { h.insertion hi with }
    staging := hq.perm
    insList := hq.ins
    setList := hq.set }

/-- A sequence may end at any time. -/
theorem Inv.toIdle {s : State} (h : Inv s) (hs : s.alpha.isSealed = true) : Inv (s.withMode .idle) :=
  h.withSeq (q := { s.seq with mode := .idle }) hs h.tables h.fits (.ofIdle rfl)

-- Between sequences: the plugboard, the catalog, the slots.

/-- A new plugboard. -/
theorem Inv.withPlug {s : State} (h : Inv s) (hr : Ready s) {p : Perm} (ht : p.wf)
    (hw : Table.within s.cfg.nmax p.fwd ∧ Table.within s.cfg.nmax p.inv) (hp : p.BijOn s.alpha.n) : Inv (s.withPlug p) := by
  obtain ⟨hm, hs⟩ := hr
  have hq : SequenceOk (s.withPlug p) := .ofIdle hm
  exact
    { h with
      tables := Memory.wf_withPlug h.tables ht
      capacity := { h.capacity with plug := hw }
      plugUnsealed := fun hc => absurd hs (by simpa using hc)
      plug := hp
      insertion := fun hi => { h.insertion hi with }
      staging := hq.perm
      insList := hq.ins
      setList := hq.set }

/-- A new catalog that keeps the defined entries' wiring. -/
theorem Inv.withCat {s : State} (h : Inv s) (hr : Ready s) {t : Table Rotor} (ht : Memory.wf (s.withCat t))
    (hw : Table.within s.cfg.cmax t)
    (hc : ∀ c, Table.within s.cfg.nmax ((s.withCat t).rotor c).notch ∧
      Table.within s.cfg.nmax ((s.withCat t).rotor c).wiring.fwd ∧ Table.within s.cfg.nmax ((s.withCat t).rotor c).wiring.inv)
    (hn : ∀ c, ((s.withCat t).rotor c).valid = true → c < s.cfg.cmax ∧ RotorOk s.alpha.n ((s.withCat t).rotor c))
    (hk : ∀ c, (s.rotor c).valid = true →
      ((s.withCat t).rotor c).valid = true ∧ ((s.withCat t).rotor c).wiring = (s.rotor c).wiring) : Inv (s.withCat t) := by
  obtain ⟨hm, hs⟩ := hr
  have hq : SequenceOk (s.withCat t) := .ofIdle hm
  have hins : s.inserted = true → InsertionOk (s.withCat t) := fun hi => by
    obtain ⟨hv, hd, hg⟩ := h.insertion hi
    have h0 : 0 < s.cfg.slots := by have := s.cfg.built; omega
    refine ⟨fun k hk' => ⟨(hv k hk').1, (hk _ (hv k hk').2).1⟩, hd, ?_⟩
    have := (hk _ (hv 0 h0).2).2
    exact this ▸ hg
  exact
    { h with
      tables := ht
      capacity := { h.capacity with cat := hw, rotor := hc }
      rotorSealed := fun c hv => ⟨hs, (hn c hv).1⟩
      rotors := fun c hv => (hn c hv).2
      insertion := hins
      staging := hq.perm
      insList := hq.ins
      setList := hq.set }

/-- The definition of an undefined entry. -/
theorem Inv.withRotor {s : State} (h : Inv s) (hr : Ready s) {c : Nat} {r : Rotor} (hu : (s.rotor c).valid = false)
    (hc : c < s.cfg.cmax) (ht : r.wf)
    (hw : Table.within s.cfg.nmax r.notch ∧ Table.within s.cfg.nmax r.wiring.fwd ∧ Table.within s.cfg.nmax r.wiring.inv)
    (hok : RotorOk s.alpha.n r) : Inv (s.withRotor c r) := by
  have hread : ∀ k, (s.withCat (Table.write rotorD s.cat c r)).rotor k = if k = c then r else s.rotor k :=
    fun k => rotor_withRotor s c k r
  refine h.withCat hr (Memory.wf_withRotor h.tables c ht) (Table.within_write h.capacity.cat hc r) (fun k => ?_)
    (fun k hv => ?_) (fun k hv => ?_)
  · rw [hread]
    split
    · exact hw
    · exact h.capacity.rotor k
  · by_cases hk : k = c
    · rw [hread, if_pos hk]
      exact ⟨hk ▸ hc, hok⟩
    · rw [hread, if_neg hk] at hv ⊢
      exact ⟨(h.rotorSealed k hv).2, h.rotors k hv⟩
  · have hk : k ≠ c := fun e => absurd hv (by simp [e, hu])
    rw [hread, if_neg hk]
    exact ⟨hv, rfl⟩

/-- New settings of defined rotors, every one that a rotor may have. -/
def SettingsOk (s : State) (t : Table Rotor) : Prop :=
  Table.within s.cfg.cmax t ∧ ∀ c, (s.rotor c).valid = true → RotorOk s.alpha.n (Table.read rotorD t c)

theorem Inv.settingsOk {s : State} (h : Inv s) : SettingsOk s s.cat := ⟨h.capacity.cat, h.rotors⟩

theorem SettingsOk.write {s : State} {t : Table Rotor} (h : SettingsOk s t) {c : Nat} (hc : c < s.cfg.cmax) {r : Rotor}
    (hr : RotorOk s.alpha.n r) : SettingsOk s (Table.write rotorD t c r) := by
  refine ⟨Table.within_write h.1 hc r, fun k hk => ?_⟩
  rw [Table.read_write]
  split
  · exact hr
  · exact h.2 k hk

theorem RotorOk.withSetting {n : Nat} {r : Rotor} (h : RotorOk n r) {v : Nat} (hv : v < n) (hr : r.kind = .reflector → v = 0) :
    RotorOk n { r with setting := v } :=
  { h with
    setting := hv
    reflector := fun hk => ⟨hr hk, (h.reflector hk).2⟩ }

theorem RotorOk.advance {n : Nat} {r : Rotor} (h : RotorOk n r) : RotorOk n (r.advance n) := by
  unfold Rotor.advance
  split
  · next hk => exact h.withSetting (Nat.mod_lt _ (Nat.zero_lt_of_lt h.setting)) fun hr => absurd hr (by simp [hk])
  · exact h

/-- A new catalog that differs from the old one in settings only. -/
theorem Inv.withSettings {s : State} (h : Inv s) (hr : Ready s) {t : Table Rotor} (ht : Memory.wf (s.withCat t))
    (hok : SettingsOk s t)
    (hf : ∀ c, (s.withCat t).rotor c = { s.rotor c with setting := ((s.withCat t).rotor c).setting }) :
    Inv (s.withCat t) := by
  have hval : ∀ c, ((s.withCat t).rotor c).valid = (s.rotor c).valid := fun c => by rw [hf c]
  have hwir : ∀ c, ((s.withCat t).rotor c).wiring = (s.rotor c).wiring := fun c => by rw [hf c]
  refine h.withCat hr ht hok.1 (fun c => ?_) (fun c hv => ?_) (fun c hv => ⟨(hval c).trans hv, hwir c⟩)
  · rw [hf c]; exact h.capacity.rotor c
  · rw [hval c] at hv
    exact ⟨(h.rotorSealed c hv).2, hok.2 c hv⟩

/-- A new insertion. -/
theorem Inv.withSlots {s : State} (h : Inv s) (hr : Ready s) {t : Table Nat} (ht : Table.wf numD t)
    (hw : Table.within s.cfg.slots t) (hi : InsertionOk (s.withSlots t)) : Inv (s.withSlots t) := by
  obtain ⟨hm, hs⟩ := hr
  have hq : SequenceOk (s.withSlots t) := .ofIdle hm
  exact
    { h with
      tables := Memory.wf_withSlots h.tables ht
      capacity := { h.capacity with slot := hw }
      insertedSealed := fun _ => hs
      insertion := fun _ => hi
      staging := hq.perm
      insList := hq.ins
      setList := hq.set }

end Sys2Proof.Machine
end

section
/-! The staging of an open sequence between its commands (10_state.md R34, R35): what each command of a sequence leaves of it. -/

namespace Sys2Proof.Machine

-- Capacity.

theorem Seq.Fits.openPerm {c : Config} {q : Seq} (h : q.Fits c) (a : Nat) (kind : Kind) : (q.openPerm a kind).Fits c :=
  ⟨⟨nofun, nofun, nofun, nofun⟩, h.2⟩

theorem Seq.Fits.notch {c : Config} {q : Seq} (h : q.Fits c) {i : Nat} (hi : i < c.nmax) :
    Seq.Fits c { q with notch := Table.write bitD q.notch i true } := by
  obtain ⟨⟨hf, hv, hs, hn⟩, hl⟩ := h
  exact ⟨⟨hf, hv, hs, Table.within_write (d := bitD) hn hi true⟩, hl⟩

theorem Seq.Fits.addToGroup {c : Config} {q : Seq} (h : q.Fits c) {i : Nat} (hi : i < c.nmax)
    (hp : 1 ≤ q.glen → q.prev < c.nmax) : (q.addToGroup i).Fits c := by
  obtain ⟨⟨hf, hv, hs, hn⟩, hl⟩ := h
  have hs' := Table.within_write (d := bitD) hs hi true
  unfold Seq.addToGroup
  split
  · exact ⟨⟨hf, hv, hs', hn⟩, hl⟩
  · next hg =>
    exact ⟨⟨Table.within_write hf (hp (by omega)) i, Table.within_write hv hi q.prev, hs', hn⟩, hl⟩

theorem Seq.Fits.close {c : Config} {q : Seq} (h : q.Fits c) (hp : 1 ≤ q.glen → q.first < c.nmax ∧ q.prev < c.nmax) :
    Seq.Fits c { q with perm := q.closedPerm, inGroup := false } := by
  obtain ⟨⟨hf, hv, hs, hn⟩, hl⟩ := h
  unfold Seq.closedPerm
  split
  · next hg =>
    obtain ⟨h1, h2⟩ := hp hg
    exact ⟨⟨Table.within_write hf h2 q.first, Table.within_write hv h1 q.prev, hs, hn⟩, hl⟩
  · exact ⟨⟨hf, hv, hs, hn⟩, hl⟩

theorem Seq.Fits.push {c : Config} {q : Seq} (h : q.Fits c) (hc : q.count < c.slots) (v : Nat) : (q.push v).Fits c :=
  ⟨h.1, Table.within_write h.2 hc v⟩

-- The construction sequence (41_permutation_lookup.md R114 to R118).

theorem StagingOk.openPerm (s : State) {a : Nat} {kind : Kind}
    (ht : (a = 0xFF ∧ kind = .reflector) ∨ (a < s.cfg.cmax ∧ (s.rotor a).valid = false)) :
    StagingOk (s.withSeq (s.seq.openPerm a kind)) where
  target := ht
  bij := Perm.bijOn_identity s.alpha.n
  unseen := fun _ _ _ => ⟨rfl, rfl⟩
  group := nofun
  notch := fun _ _ _ => rfl

/-- A notch is staged for a catalog target of kind MovingRotor only (41_permutation_lookup.md R115). -/
theorem StagingOk.notchBit {s : State} (h : StagingOk s) (ht : s.seq.target ≠ 0xFF) (hk : s.seq.kind = .movingRotor) (i : Nat) :
    StagingOk (s.withSeq { s.seq with notch := Table.write bitD s.seq.notch i true }) :=
  { h with
    notch := fun hn => absurd hn (by simp [ht, hk]) }

theorem StagingOk.openGroup {s : State} (h : StagingOk s) (hg : s.seq.inGroup = false) :
    StagingOk (s.withSeq { s.seq with inGroup := true, glen := 0 }) :=
  { h with
    bij := by simpa [hg, Seq.closedPerm] using h.bij
    group := nofun }

/-- The ends of a group that is not empty are indices of the alphabet. -/
theorem StagingOk.ends_lt {s : State} (h : StagingOk s) (hg : s.seq.inGroup = true) (hl : 1 ≤ s.seq.glen) :
    s.seq.first < s.alpha.n ∧ s.seq.prev < s.alpha.n := by
  obtain ⟨hf, -, hp, -⟩ := h.group hg hl
  exact ⟨hf, hp⟩

theorem StagingOk.closedPerm_bij {s : State} (h : StagingOk s) (hg : s.seq.inGroup = true) :
    s.seq.closedPerm.BijOn s.alpha.n := by simpa [hg] using h.bij

/-- Closing the group moves seen indices only. -/
theorem StagingOk.closedPerm_unseen {s : State} (h : StagingOk s) (hg : s.seq.inGroup = true) {i : Nat} (hi : i < s.alpha.n)
    (hu : s.seq.seenAt i = false) : s.seq.closedPerm.fwdAt i = i ∧ s.seq.closedPerm.invAt i = i := by
  rcases Nat.eq_zero_or_pos s.seq.glen with h0 | h1
  · rw [closedPerm_empty h0]
    exact h.unseen i hi hu
  · obtain ⟨-, hfs, -, hps⟩ := h.group hg h1
    have hf : i ≠ s.seq.first := fun e => absurd hfs (by simp [← e, hu])
    have hp : i ≠ s.seq.prev := fun e => absurd hps (by simp [← e, hu])
    obtain ⟨hfwd, hinv⟩ := closedPerm_at h1 i
    rw [hfwd, hinv, if_neg hf, if_neg hp]
    exact h.unseen i hi hu

theorem StagingOk.closeGroup {s : State} (h : StagingOk s) (hg : s.seq.inGroup = true) :
    StagingOk (s.withSeq { s.seq with perm := s.seq.closedPerm, inGroup := false }) :=
  { h with
    bij := h.closedPerm_bij hg
    unseen := fun _ hi hu => h.closedPerm_unseen hg hi hu
    group := nofun }

/-- The first symbol of a group leaves the permutation as it is; every later one is put into the group's cycle
(41_permutation_lookup.md R117). -/
theorem StagingOk.addToGroup_bij {s : State} (h : StagingOk s) (hg : s.seq.inGroup = true) {i : Nat} (hi : i < s.alpha.n)
    (hu : s.seq.seenAt i = false) : (s.seq.addToGroup i).closedPerm.BijOn s.alpha.n := by
  have hclosed := closedPerm_at (q := s.seq.addToGroup i) (by simp)
  simp only [addToGroup_prev, addToGroup_first, fwdAt_addToGroup, invAt_addToGroup] at hclosed
  rcases Nat.eq_zero_or_pos s.seq.glen with h0 | h1
  · obtain ⟨hf, hv⟩ := h.closedPerm_unseen hg hi hu
    have hb := h.closedPerm_bij hg
    rw [closedPerm_empty h0] at hf hv hb
    refine hb.congr (fun k => ?_) (fun k => ?_)
    · rw [(hclosed k).1]; grind
    · rw [(hclosed k).2]; grind
  · obtain ⟨-, -, hp, hps⟩ := h.group hg h1
    have hne : i ≠ s.seq.prev := fun e => absurd hps (by simp [← e, hu])
    have hold := closedPerm_at h1
    refine (h.closedPerm_bij hg).insert (a := s.seq.prev) (b := s.seq.first) hp hi (by simp [(hold _).1])
      (h.closedPerm_unseen hg hi hu).1 hne (fun k => ?_) (fun k => ?_)
    · rw [(hclosed k).1, (hold k).1]; grind
    · rw [(hclosed k).2, (hold k).2]; grind

theorem seenAt_addToGroup (q : Seq) (i k : Nat) : (q.addToGroup i).seenAt k = if k = i then true else q.seenAt k := by
  simp [Seq.seenAt, Table.read_write]

theorem StagingOk.addSymbol {s : State} (h : StagingOk s) (hg : s.seq.inGroup = true) {i : Nat} (hi : i < s.alpha.n)
    (hu : s.seq.seenAt i = false) : StagingOk (s.withSeq (s.seq.addToGroup i)) where
  target := by rw [State.withSeq_seq, addToGroup_target, addToGroup_kind]; exact h.target
  bij := by simpa [hg] using h.addToGroup_bij hg hi hu
  unseen := fun k hk hs => by
    simp only [State.withSeq_seq, seenAt_addToGroup, fwdAt_addToGroup, invAt_addToGroup] at hs ⊢
    have hki : k ≠ i := fun e => absurd hs (by simp [e])
    rw [if_neg hki] at hs
    have hkp : ¬(s.seq.glen ≠ 0 ∧ k = s.seq.prev) := fun e => by
      obtain ⟨-, -, -, hps⟩ := h.group hg (by omega)
      exact absurd hps (by simp [← e.2, hs])
    rw [if_neg hkp, if_neg fun e => hki e.2]
    exact h.unseen k hk hs
  group := fun _ _ => by
    have hseen : ∀ k, k = i ∨ s.seq.seenAt k = true → (s.seq.addToGroup i).seenAt k = true := fun k hk => by
      rw [seenAt_addToGroup]; grind
    simp only [State.withSeq_seq, State.withSeq_alpha, addToGroup_first, addToGroup_prev]
    split
    · exact ⟨hi, hseen i (.inl rfl), hi, hseen i (.inl rfl)⟩
    · next h0 =>
      obtain ⟨hf, hfs, -, -⟩ := h.group hg (by omega)
      exact ⟨hf, hseen _ (.inr hfs), hi, hseen i (.inl rfl)⟩
  notch := by simpa [Seq.notchAt] using h.notch

-- The lists of an insertion and of a setting sequence (43_machine_config.md R144, R147).

theorem InsListOk.empty (s : State) : InsListOk (s.withSeq { s.seq with count := 0, mode := .ins }) :=
  ⟨Nat.zero_le _, nofun, nofun⟩

theorem InsListOk.push {s : State} (h : InsListOk s) {a : Nat} (hc : s.seq.count < s.cfg.slots) (ha : IsRotor s a)
    (hn : ∀ j < s.seq.count, s.seq.listAt j ≠ a) : InsListOk (s.withSeq (s.seq.push a)) where
  count := hc
  valid := fun j (hj : j < s.seq.count + 1) => by
    rw [State.withSeq_seq, listAt_push]
    split
    · exact ha
    · exact h.valid j (by omega)
  differ := differ_of_snoc h.differ hn (listAt_push s.seq a)

theorem SetListOk.empty {s : State} (hi : s.inserted = true) :
    SetListOk (s.withSeq { s.seq with count := 0, mode := .set }) :=
  ⟨hi, Nat.zero_le _, nofun, nofun⟩

theorem SetListOk.push {s : State} (h : SetListOk s) {v : Nat} (hc : s.seq.count ≠ s.cfg.slots - 1) (hv : v < s.alpha.n)
    (hr : (s.slotRotor (s.seq.count + 1)).kind = .reflector → v = 0) : SetListOk (s.withSeq (s.seq.push v)) where
  inserted := h.inserted
  count := Nat.lt_of_le_of_ne h.count hc
  index := fun j (hj : j < s.seq.count + 1) => by
    rw [State.withSeq_seq, listAt_push]
    split
    · exact hv
    · exact h.index j (by omega)
  reflector := fun j (hj : j < s.seq.count + 1) hk => by
    rw [State.withSeq_seq, listAt_push]
    split
    · next e => exact hr (e ▸ hk)
    · exact h.reflector j (by omega) hk

end Sys2Proof.Machine
end

section
/-! The settings a command may write, and the commits that end the sequences, keep the invariant. -/

namespace Sys2Proof.Machine

-- The commands that set settings.

theorem Rotor.advance_fields (r : Rotor) (n : Nat) : r.advance n = { r with setting := (r.advance n).setting } := by
  rw [Rotor.advance_eq]

/-- A new setting of one entry is, of every entry, a new setting at most. -/
theorem rotor_withRotor_fields {s : State} {a : Nat} {r : Rotor} (hr : r = { s.rotor a with setting := r.setting }) (c : Nat) :
    (s.withRotor a r).rotor c = { s.rotor c with setting := ((s.withRotor a r).rotor c).setting } := by
  rw [rotor_withRotor]
  split
  · next e => rw [e]; exact hr
  · rfl

theorem Inv.settingsOk_withSetting {s : State} (h : Inv s) {a v : Nat} (ha : IsRotor s a) (hv : v < s.alpha.n)
    (hr : (s.rotor a).kind = .reflector → v = 0) : SettingsOk s (s.withSetting a v).cat :=
  h.settingsOk.write ha.1 ((h.rotors a ha.2).withSetting hv hr)

theorem Inv.settingsOk_advance {s : State} (h : Inv s) {a : Nat} (ha : IsRotor s a) :
    SettingsOk s (s.withRotor a ((s.rotor a).advance s.alpha.n)).cat :=
  h.settingsOk.write ha.1 (h.rotors a ha.2).advance

/-- A new setting of one rotor. -/
theorem Inv.setSetting {s : State} (h : Inv s) (hr : Ready s) {a : Nat} {r : Rotor} (ht : Memory.wf (s.withRotor a r))
    (hok : SettingsOk s (s.withRotor a r).cat) (hf : r = { s.rotor a with setting := r.setting }) : Inv (s.withRotor a r) :=
  h.withSettings hr ht hok (rotor_withRotor_fields hf)

/-- The batch of a keystroke advances inserted, and so defined, rotors (44_stepping_fsm.md R156). -/
theorem Inv.settingsOk_advancedCat {s : State} (h : Inv s) (hi : s.inserted = true) {m : Nat} (hm : m ≤ s.cfg.slots) :
    SettingsOk s (s.advancedCat m) := by
  induction m with
  | zero => exact h.settingsOk
  | succ k ih =>
    have hk := ih (by omega)
    obtain ⟨hc, hv⟩ := (h.insertion hi).valid k (by omega)
    rw [State.advancedCat]
    split
    · exact hk.write hc (h.rotors _ hv).advance
    · exact hk

/-- SET_END's list holds settings the inserted rotors may have (43_machine_config.md R148). -/
theorem Inv.settingsOk_setSlots {s : State} (h : Inv s) (hl : SetListOk s) {m : Nat} (hm : m ≤ s.seq.count) :
    SettingsOk s (s.setSlots m).cat := by
  induction m with
  | zero => exact h.settingsOk
  | succ k ih =>
    have hk := ih (by omega)
    have hcount := hl.count
    obtain ⟨hc, hv⟩ := (h.insertion hl.inserted).valid (k + 1) (by omega)
    refine hk.write hc ((hk.2 _ hv).withSetting (hl.index k (by omega)) fun hr => hl.reflector k (by omega) ?_)
    have hf := rotor_setSlots_fields s k (s.slotAt (k + 1))
    exact (congrArg Rotor.kind hf).symm.trans hr

-- The commits.

/-- What a construction leaves in its target entry (41_permutation_lookup.md R119). -/
theorem StagingOk.commit_ok {s : State} (h : StagingOk s) (hg : s.seq.inGroup = false) (hn : 1 ≤ s.alpha.n)
    (hd : s.seq.kind = .reflector → s.seq.perm.DerangedOn s.alpha.n) (old : Rotor) :
    RotorOk s.alpha.n (s.seq.commitTo s.alpha.n old) := by
  have hb : s.seq.perm.BijOn s.alpha.n := by simpa [hg] using h.bij
  refine ⟨hn, hb.copyTo _, fun hk => ⟨rfl, (hd hk).copyTo _⟩, fun hk i hi => ?_⟩
  rw [Rotor.notchAt, Seq.commitTo, Table.read_copyTo, if_pos hi]
  exact h.notch (.inr hk) i hi

theorem Inv.commitPlug {s : State} (h : Inv s) (hm : InPerm s false) :
    Inv ((s.withPlug (s.seq.perm.copyTo s.alpha.n s.plug)).withMode .idle) := by
  obtain ⟨hm, hg⟩ := hm
  have hs := h.sealed_of_mode hm
  have hb : s.seq.perm.BijOn s.alpha.n := by simpa [hg] using (h.staging hm).bij
  obtain ⟨hwf, hwi⟩ := h.capacity.plug
  obtain ⟨-, -, -, hplug, -⟩ := h.tables
  exact (h.toIdle hs).withPlug ⟨rfl, hs⟩ (Perm.wf_copyTo hplug _)
    ⟨Table.within_copyTo hwf h.size, Table.within_copyTo hwi h.size⟩ (hb.copyTo _)

theorem Inv.commitRotor {s : State} (h : Inv s) (hm : InPerm s false) (ht : s.seq.target ≠ 0xFF)
    (hd : s.seq.kind = .reflector → s.seq.perm.DerangedOn s.alpha.n) :
    Inv ((s.withRotor s.seq.target (s.seq.commitTo s.alpha.n (s.rotor s.seq.target))).withMode .idle) := by
  obtain ⟨hm, hg⟩ := hm
  have hs := h.sealed_of_mode hm
  have hst := h.staging hm
  obtain ⟨hc, hu⟩ := hst.target.resolve_left fun e => ht e.1
  obtain ⟨hwn, hwf, hwi⟩ := h.capacity.rotor s.seq.target
  exact (h.toIdle hs).withRotor ⟨rfl, hs⟩ hu hc (Seq.wf_commitTo (Memory.wf_rotor h.tables _) _)
    ⟨Table.within_copyTo hwn h.size, Table.within_copyTo hwf h.size, Table.within_copyTo hwi h.size⟩
    (hst.commit_ok hg (h.sealedSize hs) hd _)

/-- What an insertion leaves in the slots (43_machine_config.md R145). -/
theorem InsListOk.commit_ok {s : State} (h : InsListOk s) (hc : s.cfg.slots ≤ s.seq.count)
    (hd : (s.rotor (s.seq.listAt 0)).wiring.DerangedOn s.alpha.n) (dst : Table Nat) :
    InsertionOk (s.withSlots (Table.copyTo numD s.seq.list s.cfg.slots dst)) := by
  have hread : ∀ k < s.cfg.slots,
      (s.withSlots (Table.copyTo numD s.seq.list s.cfg.slots dst)).slotAt k = s.seq.listAt k := fun k hk => by
    rw [State.slotAt, State.withSlots_slot, Table.read_copyTo, if_pos hk]
  have h0 : 0 < s.cfg.slots := by have := s.cfg.built; omega
  refine ⟨fun k hk => ?_, fun j hj k hk => ?_, ?_⟩
  · rw [hread k hk]; exact h.valid k (lt_of_lt_of_le hk hc)
  · rw [hread j hj, hread k hk]; exact h.differ j (lt_of_lt_of_le hj hc) k (lt_of_lt_of_le hk hc)
  · rw [State.slotRotor, hread 0 h0]; exact hd

theorem Inv.commitSlots {s : State} (h : Inv s) (hm : s.seq.mode = .ins) (hc : s.cfg.slots ≤ s.seq.count)
    (hd : (s.rotor (s.seq.listAt 0)).wiring.DerangedOn s.alpha.n) :
    Inv ((s.withSlots (Table.copyTo numD s.seq.list s.cfg.slots s.slot)).withMode .idle) := by
  have hs := h.sealed_of_mode hm
  have hi := (h.insList hm).commit_ok hc hd s.slot
  obtain ⟨-, -, -, -, hslot, -⟩ := h.tables
  exact (h.toIdle hs).withSlots ⟨rfl, hs⟩ (Table.wf_copyTo hslot _)
    (Table.within_copyTo h.capacity.slot (le_refl _)) { hi with }

theorem Inv.commitSettings {s : State} (h : Inv s) (hm : s.seq.mode = .set) (hc : s.cfg.slots - 1 ≤ s.seq.count) :
    Inv ((s.setSlots (s.cfg.slots - 1)).withMode .idle) := by
  have hs := h.sealed_of_mode hm
  have hok := h.settingsOk_setSlots (h.setList hm) hc
  have ht := Memory.wf_setSlots h.tables (s.cfg.slots - 1)
  have hf := rotor_setSlots_fields s (s.cfg.slots - 1)
  rw [setSlots_eq] at ht ⊢
  exact (h.toIdle hs).withSettings ⟨rfl, hs⟩ (Memory.wf_withMode ht .idle) hok hf

theorem Inv.stepRotors {s : State} (h : Inv s) (hr : Ready s) (hi : s.inserted = true) : Inv s.stepRotors :=
  h.withSettings hr (Memory.wf_stepRotors h.tables) (h.settingsOk_advancedCat hi (le_refl _)) (rotor_stepRotors_fields s)

end Sys2Proof.Machine
end

section
/-! Every command, and so every step, keeps the invariant (10_state.md R38), and of a defined rotor all but the setting (R25 to R28,
R41). -/

namespace Sys2Proof.Machine

-- The two ways a command ends.

/-- The fault entry abandons an open sequence, and with it an alphabet under construction; where the alphabet is unsealed and not under
construction it has no symbol to lose (60_exceptions.md R194). -/
theorem Inv.takeFault {s : State} (h : Inv s) (f : FaultCode) : Inv (s.takeFault f) := by
  have hf : FsrOk (s.fsr.record f) := FsrOk.record h.fsr f
  cases hs : s.alpha.isSealed with
  | true =>
    have he : s.takeFault f =
        { s.withMode .idle with fsr := s.fsr.record f, outbox := s.outbox ++ [faultWord f] } := by
      simp [State.takeFault, State.withMode, h.mode_ne_alpha hs]
    rw [he]
    exact (h.toIdle hs).withFsr hf s.inbox _
  | false =>
    have ha : (s.takeFault f).alpha = { s.alpha with n := 0 } := by
      rw [State.takeFault_alpha]
      split
      · rfl
      · next hm =>
        have hidle : s.seq.mode = .idle := by_contra fun hne => hm ((h.modeSeal hne).mpr hs)
        rw [← h.unsealedIdle hs hidle]
    have he : s.takeFault f = { (s.withAlpha { s.alpha with n := 0 }).withMode .idle with
        fsr := s.fsr.record f, outbox := s.outbox ++ [faultWord f] } := by
      rw [← ha]; rfl
    rw [he]
    have hi := h.withAlpha (m := .idle) (a := { s.alpha with n := 0 }) hs h.tables.1 h.alphaOk.clear
      (.inr ⟨hs, .inr ⟨rfl, rfl⟩⟩)
    exact hi.withFsr hf s.inbox _

/-- An alphabet under construction is not sealed. -/
theorem Inv.unsealed_of_alpha {s : State} (h : Inv s) (hm : s.seq.mode = .alpha) : s.alpha.isSealed = false :=
  (h.modeSeal (by simp [hm])).mp hm

/-- The effect of every command. -/
theorem Inv.effect {i : Instr} {s u : State} {v : Half} (h : Inv s) (he : Effect i s u v) : Inv u := by
  have ht := Memory.wf_effect h.tables he
  cases i <;> simp only [Effect] at he
  case stat => obtain ⟨rfl, -⟩ := he; exact h
  case alphaSize | alphaToint | alphaHas | permuteIdx | invertIdx | permuteSym | invertSym | deranged =>
    obtain ⟨-, rfl, -⟩ := he; exact h
  case rotKind | rotGet | rotFwd | rotBwd | rotAtnotch => obtain ⟨-, -, rfl, -⟩ := he; exact h
  case alphaTochar | slotGet => obtain ⟨-, -, -, rfl, -⟩ := he; exact h
  case alphaBegin =>
    obtain ⟨-, hs, rfl, -⟩ := he
    exact h.withAlpha hs h.tables.1 h.alphaOk.clear (.inr ⟨hs, .inl rfl⟩)
  case alphaSym c =>
    obtain ⟨hm, hr, hd, hn, rfl, -⟩ := he
    have hs := h.unsealed_of_alpha hm
    have := h.withAlpha hs ht.1 (h.alphaOk.push hr hd hn) (.inr ⟨hs, .inl rfl⟩)
    rwa [← hm] at this
  case alphaEnd =>
    obtain ⟨hm, hn, rfl, -⟩ := he
    exact h.withAlpha (h.unsealed_of_alpha hm) h.tables.1 h.alphaOk.seal (.inl ⟨rfl, Nat.pos_of_ne_zero hn, rfl⟩)
  case bldBegin a k =>
    obtain ⟨⟨-, hs⟩, -, ⟨ha, -, rfl⟩ | ⟨-, hc, hv, kind, -, rfl⟩⟩ := he
    · exact h.withSeq hs ht (h.fits.openPerm _ _) (.ofPerm rfl (.openPerm s (.inl ⟨ha, rfl⟩)))
    · exact h.withSeq hs ht (h.fits.openPerm _ _) (.ofPerm rfl (.openPerm s (.inr ⟨hc, hv⟩)))
  case bldNotch c =>
    obtain ⟨⟨hm, -⟩, hT, hk, -, j, ⟨hj, -⟩, rfl⟩ := he
    exact h.withSeq (h.sealed_of_mode hm) ht (h.fits.notch (lt_of_lt_of_le hj h.size))
      (.ofPerm hm ((h.staging hm).notchBit hT hk j))
  case cycOpen =>
    obtain ⟨⟨hm, hg⟩, rfl, -⟩ := he
    exact h.withSeq (h.sealed_of_mode hm) ht h.fits (.ofPerm hm ((h.staging hm).openGroup hg))
  case cycSym c =>
    obtain ⟨⟨hm, hg⟩, -, j, ⟨hj, -⟩, hu, rfl⟩ := he
    have hst := h.staging hm
    exact h.withSeq (h.sealed_of_mode hm) ht
      (h.fits.addToGroup (lt_of_lt_of_le hj h.size) fun hl => lt_of_lt_of_le (hst.ends_lt hg hl).2 h.size)
      (.ofPerm (by simpa using hm) (hst.addSymbol hg hj hu))
  case cycClose =>
    obtain ⟨⟨hm, hg⟩, rfl, -⟩ := he
    have hst := h.staging hm
    exact h.withSeq (h.sealed_of_mode hm) ht
      (h.fits.close fun hl =>
        ⟨lt_of_lt_of_le (hst.ends_lt hg hl).1 h.size, lt_of_lt_of_le (hst.ends_lt hg hl).2 h.size⟩)
      (.ofPerm hm (hst.closeGroup hg))
  case bldEnd =>
    obtain ⟨hm, -, hd, ⟨-, rfl⟩ | ⟨hT, rfl⟩⟩ := he
    · exact h.commitPlug hm
    · exact h.commitRotor hm hT (hd hT)
  case rotSetIdx a x =>
    obtain ⟨hr, ha, h0, hn, hz, rfl, -⟩ := he
    exact h.setSetting hr ht (h.settingsOk_withSetting ha (by omega) fun hk => by simp [hz hk]) rfl
  case rotSetSym a c =>
    obtain ⟨hr, ha, -, j, ⟨hj, -⟩, hz, rfl⟩ := he
    exact h.setSetting hr ht (h.settingsOk_withSetting ha hj hz) rfl
  case rotAdv a =>
    obtain ⟨hr, ha, rfl, -⟩ := he
    exact h.setSetting hr ht (h.settingsOk_advance ha) (Rotor.advance_fields _ _)
  case insBegin =>
    obtain ⟨⟨-, hs⟩, rfl, -⟩ := he
    exact h.withSeq hs ht h.fits (.ofIns rfl (.empty s))
  case insName a =>
    obtain ⟨hm, hc, ha, hd, rfl, -⟩ := he
    have hl := h.insList hm
    have hc := Nat.lt_of_le_of_ne hl.count hc
    exact h.withSeq (h.sealed_of_mode hm) ht (h.fits.push hc a) (.ofIns hm (hl.push hc ha hd))
  case insEnd =>
    obtain ⟨hm, hc, hd, rfl, -⟩ := he
    exact h.commitSlots hm hc hd
  case setBegin =>
    obtain ⟨⟨-, hs⟩, hi, rfl, -⟩ := he
    exact h.withSeq hs ht h.fits (.ofSet rfl (.empty hi))
  case setSym c =>
    obtain ⟨hm, hc, -, j, ⟨hj, -⟩, hz, rfl⟩ := he
    have hl := h.setList hm
    have hcount := hl.count
    exact h.withSeq (h.sealed_of_mode hm) ht (h.fits.push (by omega) j) (.ofSet hm (hl.push hc hj hz))
  case setEnd =>
    obtain ⟨hm, hc, rfl, -⟩ := he
    exact h.commitSettings hm hc
  case convIdx | convSym =>
    obtain ⟨hr, hi, rfl, -⟩ := he
    exact h.stepRotors hr hi

/-- Every command, however it ends. -/
theorem Inv.exec {i : Instr} {s t : State} (h : Inv s) (he : exec i s = .next t) : Inv t := by
  rcases exec_cases he with ⟨f, rfl⟩ | ⟨u, v, hu, rfl⟩
  · exact h.takeFault f
  · exact (h.effect hu).reply _

/-- Settles O17: a step holds the state, resets it, runs a command, or faults a word that is no command. -/
theorem stepKeepsTheInvariant : Obligations.StepKeepsTheInvariant := by
  unfold Obligations.StepKeepsTheInvariant
  intro s t h ht
  rcases step_cases ht with ⟨-, rfl⟩ | ⟨es, -, rfl⟩ | ⟨w, es, -, ⟨i, -, hx⟩ | ⟨-, rfl⟩⟩
  · exact h
  · have hr := resetMeetsTheInvariant s.cfg
    exact hr.withFsr hr.fsr es s.outbox
  · exact (h.withInbox es).exec hx
  · exact (h.withInbox es).takeFault .badCommand

-- What a command leaves of a rotor.

@[simp] theorem rotor_withMode (s : State) (m : Mode) (c : Nat) : (s.withMode m).rotor c = s.rotor c := rfl

/-- Only BLD_END writes more of an entry than its setting, and only of its target. -/
theorem effect_rotor {i : Instr} {s u : State} {v : Half} (he : Effect i s u v) (c : Nat) :
    u.rotor c = { s.rotor c with setting := (u.rotor c).setting } ∨
      (i = .bldEnd ∧ s.seq.mode = .perm ∧ s.seq.target ≠ 0xFF ∧ c = s.seq.target) := by
  cases i <;> simp only [Effect] at he
  case bldEnd =>
    obtain ⟨⟨hm, -⟩, -, -, ⟨-, rfl⟩ | ⟨hT, hu⟩⟩ := he
    · exact .inl rfl
    · by_cases hc : c = s.seq.target
      · exact .inr ⟨rfl, hm, hT, hc⟩
      · have hr : u.rotor c = s.rotor c := by rw [hu, rotor_withMode, rotor_withRotor, if_neg hc]
        exact .inl (by rw [hr])
  all_goals left
  case rotSetIdx a x => obtain ⟨-, -, -, -, -, rfl, -⟩ := he; exact rotor_withRotor_fields rfl c
  case rotSetSym a x => obtain ⟨-, -, -, j, -, -, rfl⟩ := he; exact rotor_withRotor_fields rfl c
  case rotAdv a => obtain ⟨-, -, rfl, -⟩ := he; exact rotor_withRotor_fields (Rotor.advance_fields _ _) c
  case setEnd => obtain ⟨-, -, rfl, -⟩ := he; exact rotor_setSlots_fields s (s.cfg.slots - 1) c
  case convIdx | convSym => obtain ⟨-, -, rfl, -⟩ := he; exact rotor_stepRotors_fields s c
  case stat => obtain ⟨rfl, -⟩ := he; rfl
  case alphaSize | alphaToint | alphaHas | cycOpen | cycClose | permuteIdx | invertIdx | permuteSym | invertSym |
      deranged | insBegin =>
    obtain ⟨-, rfl, -⟩ := he; rfl
  case alphaBegin | alphaEnd | rotKind | rotGet | rotFwd | rotBwd | rotAtnotch | setBegin =>
    obtain ⟨-, -, rfl, -⟩ := he; rfl
  case alphaTochar | insEnd | slotGet => obtain ⟨-, -, -, rfl, -⟩ := he; rfl
  case alphaSym | insName => obtain ⟨-, -, -, -, rfl, -⟩ := he; rfl
  case cycSym => obtain ⟨-, -, j, -, -, rfl⟩ := he; rfl
  case setSym => obtain ⟨-, -, -, j, -, -, rfl⟩ := he; rfl
  case bldNotch => obtain ⟨-, -, -, -, j, -, rfl⟩ := he; rfl
  case bldBegin => obtain ⟨-, -, ⟨-, -, rfl⟩ | ⟨-, -, -, kind, -, rfl⟩⟩ := he <;> rfl

/-- Settles O19: BLD_END's target is an entry not yet defined (`StagingOk.target`), and nothing else writes more than a setting. -/
theorem definedRotorKeepsItsWiring : Obligations.DefinedRotorKeepsItsWiring := by
  unfold Obligations.DefinedRotorKeepsItsWiring
  intro i s t c hI hv h
  rcases exec_cases h with ⟨f, rfl⟩ | ⟨u, v, hu, rfl⟩
  · rfl
  rcases effect_rotor hu c with hr | ⟨-, hm, hT, rfl⟩
  · exact hr
  · obtain ⟨-, hinv⟩ := (hI.staging hm).target.resolve_left fun e => hT e.1
    exact absurd hv (by simp [hinv])

end Sys2Proof.Machine
end

section
/-! What agrees below N is read alike, and every write of agreeing values keeps the agreement (20_memory.md R51, 93_implementation_defined.md
U2 to U4): permutations, rotors, the staging. -/

namespace Sys2Proof.Machine

-- Permutations.

theorem Perm.AgreeOn.permute {n : Nat} {p q : Perm} (h : p.AgreeOn n q) (hn : 1 ≤ n) (x : Int) :
    p.permute n x = q.permute n x := (h _ (modN_lt x hn)).1

theorem Perm.AgreeOn.invert {n : Nat} {p q : Perm} (h : p.AgreeOn n q) (hn : 1 ≤ n) (x : Int) :
    p.invert n x = q.invert n x := (h _ (modN_lt x hn)).2

theorem Perm.AgreeOn.derangement {n : Nat} {p q : Perm} (h : p.AgreeOn n q) : p.derangement n = q.derangement n := by
  rw [Bool.eq_iff_iff, derangement_iff, derangement_iff]
  exact forall₂_congr fun i hi => by rw [(h i hi).1]

theorem Perm.AgreeOn.copyTo {n : Nat} {p q : Perm} (h : p.AgreeOn n q) (d e : Perm) :
    (p.copyTo n d).AgreeOn n (q.copyTo n e) := fun i hi => by
  simpa [hi] using h i hi

theorem Perm.BijOn.permute_lt {n : Nat} {p : Perm} (h : p.BijOn n) (hn : 1 ≤ n) (x : Int) : p.permute n x < n :=
  (h _ (modN_lt x hn)).1

theorem Perm.BijOn.invert_lt {n : Nat} {p : Perm} (h : p.BijOn n) (hn : 1 ≤ n) (x : Int) : p.invert n x < n :=
  (h _ (modN_lt x hn)).2.1

-- Rotors.

/-- What `LooksLike` asks of two entries that are defined. -/
structure Rotor.AgreeOn (n : Nat) (r q : Rotor) : Prop where
  kind : r.kind = q.kind
  setting : r.setting = q.setting
  notch : ∀ i < n, r.notchAt i = q.notchAt i
  wiring : r.wiring.AgreeOn n q.wiring

theorem Rotor.AgreeOn.convertForward {n : Nat} {r q : Rotor} (h : r.AgreeOn n q) (hn : 1 ≤ n) (x : Int) :
    r.convertForward n x = q.convertForward n x := by
  rw [Rotor.convertForward, Rotor.convertForward, h.setting, h.wiring.permute hn]

theorem Rotor.AgreeOn.convertBackward {n : Nat} {r q : Rotor} (h : r.AgreeOn n q) (hn : 1 ≤ n) (x : Int) :
    r.convertBackward n x = q.convertBackward n x := by
  rw [Rotor.convertBackward, Rotor.convertBackward, h.setting, h.wiring.invert hn]

theorem Rotor.AgreeOn.atNotch {n : Nat} {r q : Rotor} (h : r.AgreeOn n q) (hr : r.setting < n) : r.atNotch = q.atNotch := by
  rw [Rotor.atNotch, Rotor.atNotch, h.kind, h.notch _ hr, h.setting]

theorem Rotor.AgreeOn.withSetting {n : Nat} {r q : Rotor} (h : r.AgreeOn n q) (v : Nat) :
    Rotor.AgreeOn n { r with setting := v } { q with setting := v } := { h with setting := rfl }

theorem Rotor.AgreeOn.advance {n : Nat} {r q : Rotor} (h : r.AgreeOn n q) : (r.advance n).AgreeOn n (q.advance n) where
  kind := by simpa using h.kind
  setting := by rw [Rotor.advance_setting, Rotor.advance_setting, h.kind, h.setting]
  notch := by simpa [Rotor.notchAt] using h.notch
  wiring := by simpa using h.wiring

-- The staging.

/-- What `LooksLike` asks of the sequencers. -/
structure Seq.AgreeOn (n : Nat) (p q : Seq) : Prop where
  mode : p.mode = q.mode
  staging : p.mode = .perm → p.target = q.target ∧ p.kind = q.kind ∧ p.inGroup = q.inGroup ∧ p.perm.AgreeOn n q.perm ∧
    (∀ i < n, p.seenAt i = q.seenAt i ∧ p.notchAt i = q.notchAt i)
  group : p.mode = .perm → p.inGroup = true → p.glen = q.glen ∧ (1 ≤ p.glen → p.first = q.first ∧ p.prev = q.prev)
  list : p.mode = .ins ∨ p.mode = .set → p.count = q.count ∧ ∀ j < p.count, p.listAt j = q.listAt j

/-- Between sequences, and while the alphabet is built, nothing is staged. -/
theorem Seq.AgreeOn.unstaged (n : Nat) {p q : Seq} (hm : p.mode = q.mode) (hi : p.mode = .idle ∨ p.mode = .alpha) :
    p.AgreeOn n q where
  mode := hm
  staging := fun h => by simp [h] at hi
  group := fun h => by simp [h] at hi
  list := fun h => by rcases h with h | h <;> simp [h] at hi

theorem Seq.AgreeOn.openPerm (n : Nat) (p q : Seq) (a : Nat) (kind : Kind) : (p.openPerm a kind).AgreeOn n (q.openPerm a kind) where
  mode := rfl
  staging := fun _ => ⟨rfl, rfl, rfl, fun _ _ => ⟨rfl, rfl⟩, fun _ _ => ⟨rfl, rfl⟩⟩
  group := fun _ => nofun
  list := nofun

theorem Seq.AgreeOn.openList (n : Nat) (p q : Seq) {m : Mode} (hm : m ≠ .perm) :
    Seq.AgreeOn n { p with count := 0, mode := m } { q with count := 0, mode := m } where
  mode := rfl
  staging := fun h => absurd h hm
  group := fun h => absurd h hm
  list := fun _ => ⟨rfl, nofun⟩

theorem Seq.AgreeOn.notchBit {n : Nat} {p q : Seq} (h : p.AgreeOn n q) (i : Nat) :
    Seq.AgreeOn n { p with notch := Table.write bitD p.notch i true } { q with notch := Table.write bitD q.notch i true } :=
  { h with
    staging := fun hm => by
      obtain ⟨ht, hk, hg, hp, hb⟩ := h.staging hm
      refine ⟨ht, hk, hg, hp, fun k hk => ⟨(hb k hk).1, ?_⟩⟩
      simp only [Seq.notchAt, Table.read_write]
      exact congrArg (if k = i then true else ·) (hb k hk).2 }

theorem Seq.AgreeOn.openGroup {n : Nat} {p q : Seq} (h : p.AgreeOn n q) :
    Seq.AgreeOn n { p with inGroup := true, glen := 0 } { q with inGroup := true, glen := 0 } :=
  { h with
    staging := fun hm => by
      obtain ⟨ht, hk, -, hp, hb⟩ := h.staging hm
      exact ⟨ht, hk, rfl, hp, hb⟩
    group := fun _ _ => ⟨rfl, nofun⟩ }

/-- Closing a group reads its two ends where it has any. -/
theorem Seq.AgreeOn.closedPerm {n : Nat} {p q : Seq} (h : p.AgreeOn n q) (hm : p.mode = .perm) (hg : p.inGroup = true) :
    p.closedPerm.AgreeOn n q.closedPerm := by
  obtain ⟨-, -, -, hp, -⟩ := h.staging hm
  obtain ⟨hl, he⟩ := h.group hm hg
  rcases Nat.eq_zero_or_pos p.glen with h0 | h1
  · rw [closedPerm_empty h0, closedPerm_empty (hl ▸ h0)]
    exact hp
  · obtain ⟨hf, hv⟩ := he h1
    intro i hi
    obtain ⟨hpf, hpv⟩ := closedPerm_at h1 i
    obtain ⟨hqf, hqv⟩ := closedPerm_at (q := q) (hl ▸ h1) i
    rw [hpf, hpv, hqf, hqv, hf, hv, (hp i hi).1, (hp i hi).2]
    exact ⟨rfl, rfl⟩

theorem Seq.AgreeOn.closeGroup {n : Nat} {p q : Seq} (h : p.AgreeOn n q) (hm : p.mode = .perm) (hg : p.inGroup = true) :
    Seq.AgreeOn n { p with perm := p.closedPerm, inGroup := false } { q with perm := q.closedPerm, inGroup := false } :=
  { h with
    staging := fun _ => by
      obtain ⟨ht, hk, -, -, hb⟩ := h.staging hm
      exact ⟨ht, hk, rfl, h.closedPerm hm hg, hb⟩
    group := fun _ => nofun }

/-- A symbol joins a group by its latest index where it has any. -/
theorem Seq.AgreeOn.addToGroup_perm {n : Nat} {p q : Seq} (h : p.AgreeOn n q) (hm : p.mode = .perm) (hg : p.inGroup = true)
    (i : Nat) : (p.addToGroup i).perm.AgreeOn n (q.addToGroup i).perm := by
  obtain ⟨-, -, -, hp, -⟩ := h.staging hm
  obtain ⟨hl, he⟩ := h.group hm hg
  intro k hk
  rw [fwdAt_addToGroup, fwdAt_addToGroup, invAt_addToGroup, invAt_addToGroup, ← hl, (hp k hk).1, (hp k hk).2]
  rcases Nat.eq_zero_or_pos p.glen with h0 | h1
  · simp [h0]
  · rw [(he h1).2]
    exact ⟨rfl, rfl⟩

theorem Seq.AgreeOn.addToGroup {n : Nat} {p q : Seq} (h : p.AgreeOn n q) (hm : p.mode = .perm) (hg : p.inGroup = true) (i : Nat) :
    (p.addToGroup i).AgreeOn n (q.addToGroup i) where
  mode := by simpa using h.mode
  staging := fun _ => by
    obtain ⟨ht, hk, hin, -, hb⟩ := h.staging hm
    simp only [addToGroup_target, addToGroup_kind, addToGroup_inGroup, seenAt_addToGroup, Seq.notchAt, addToGroup_notch]
    exact ⟨ht, hk, hin, h.addToGroup_perm hm hg i, fun k hk => ⟨by rw [(hb k hk).1], (hb k hk).2⟩⟩
  group := fun _ _ => by
    obtain ⟨hl, he⟩ := h.group hm hg
    simp only [addToGroup_glen, addToGroup_first, addToGroup_prev, ← hl]
    refine ⟨trivial, fun _ => ⟨?_, trivial⟩⟩
    split
    · rfl
    · exact (he (by omega)).1
  list := fun hl => by
    rw [addToGroup_mode, hm] at hl
    simp at hl

theorem Seq.AgreeOn.push {n : Nat} {p q : Seq} (h : p.AgreeOn n q) (hm : p.mode = .ins ∨ p.mode = .set) (v : Nat) :
    (p.push v).AgreeOn n (q.push v) :=
  { h with
    list := fun _ => by
      obtain ⟨hc, hl⟩ := h.list hm
      refine ⟨congrArg (· + 1) hc, fun j (hj : j < p.count + 1) => ?_⟩
      rw [listAt_push, listAt_push, ← hc]
      split
      · rfl
      · exact hl j (by omega) }

theorem Seq.AgreeOn.lists {n : Nat} {p q : Seq} (h : p.AgreeOn n q) (hm : p.mode = .ins ∨ p.mode = .set) (a : Nat) :
    p.lists a = q.lists a := by
  obtain ⟨hc, hl⟩ := h.list hm
  rw [Bool.eq_iff_iff, lists_iff, lists_iff, ← hc]
  exact exists_congr fun j => and_congr_right fun hj => by rw [hl j hj]

/-- A construction without an open group commits what it staged. -/
theorem Seq.AgreeOn.commitTo {n : Nat} {p q : Seq} (h : p.AgreeOn n q) (hm : p.mode = .perm) (d e : Rotor) :
    (p.commitTo n d).AgreeOn n (q.commitTo n e) := by
  obtain ⟨-, hk, -, hp, hb⟩ := h.staging hm
  refine ⟨hk, rfl, fun i hi => ?_, hp.copyTo _ _⟩
  rw [Rotor.notchAt, Rotor.notchAt, Seq.commitTo, Seq.commitTo, Table.read_copyTo, Table.read_copyTo, if_pos hi, if_pos hi]
  exact (hb i hi).2

end Sys2Proof.Machine
end

section
/-! States that look alike: what they read alike, and the updates after which they still do (20_memory.md R51, 93_implementation_defined.md
U2 to U4). -/

namespace Sys2Proof.Machine

theorem LooksLike.refl (s : State) : LooksLike s s := by constructor <;> simp [Perm.AgreeOn]

-- Updates.

theorem LooksLike.withInbox {s t : State} (h : LooksLike s t) (es : List HostEvent) :
    LooksLike (s.withInbox es) (t.withInbox es) := { h with inbox := rfl }

theorem LooksLike.reply {s t : State} (h : LooksLike s t) (w : Word) : LooksLike (s.reply w) (t.reply w) :=
  { h with outbox := congrArg (· ++ [w]) h.outbox }

/-- An alphabet without symbols has nothing below its size to agree on. -/
theorem LooksLike.clearAlpha {s t : State} (h : LooksLike s t) :
    LooksLike (s.withAlpha { s.alpha with n := 0 }) (t.withAlpha { t.alpha with n := 0 }) :=
  { h with
    size := rfl
    sym := nofun
    rotor := fun c hv => by
      obtain ⟨hk, hx, -, -⟩ := h.rotor c hv
      exact ⟨hk, hx, nofun, nofun⟩
    plug := nofun
    staging := fun hm => by
      obtain ⟨ht, hk, hg, -, -⟩ := h.staging hm
      exact ⟨ht, hk, hg, nofun, nofun⟩ }

theorem LooksLike.sealAlpha {s t : State} (h : LooksLike s t) :
    LooksLike (s.withAlpha { s.alpha with isSealed := true }) (t.withAlpha { t.alpha with isSealed := true }) :=
  { h with isSealed := rfl }

/-- A new symbol moves N up while no rotor is defined and the plugboard is the identity everywhere. -/
theorem LooksLike.pushSymbol {s t : State} (h : LooksLike s t) (hs : Inv s) (ht : Inv t) (hm : s.seq.mode = .alpha) (x : Sym) :
    LooksLike (s.withAlpha { s.alpha with sym := Table.write symD s.alpha.sym s.alpha.n x, n := s.alpha.n + 1 })
      (t.withAlpha { t.alpha with sym := Table.write symD t.alpha.sym t.alpha.n x, n := t.alpha.n + 1 }) := by
  have hu := hs.unsealed_of_alpha hm
  have hp := hs.plugUnsealed hu
  have hq := ht.plugUnsealed (h.isSealed ▸ hu)
  exact
    { h with
      size := congrArg (· + 1) h.size
      sym := fun i (hi : i < s.alpha.n + 1) => by
        simp only [State.withAlpha_alpha, Alphabet.symAt, Table.read_write, ← h.size]
        split
        · rfl
        · exact h.sym i (by omega)
      rotor := fun c hv => absurd hv (hs.not_valid_of_unsealed hu c)
      plug := fun i _ => ⟨(hp i).1.trans (hq i).1.symm, (hp i).2.trans (hq i).2.symm⟩
      staging := fun hc : s.seq.mode = .perm => by simp [hm] at hc }

theorem LooksLike.seqAgree {s t : State} (h : LooksLike s t) : s.seq.AgreeOn s.alpha.n t.seq := ⟨h.mode, h.staging, h.group, h.list⟩

theorem LooksLike.withSeq {s t : State} (h : LooksLike s t) {p q : Seq} (hq : p.AgreeOn s.alpha.n q) :
    LooksLike (s.withSeq p) (t.withSeq q) :=
  { h with mode := hq.mode, staging := hq.staging, group := hq.group, list := hq.list }

theorem LooksLike.withMode {s t : State} (h : LooksLike s t) {m : Mode} (hm : m = .idle ∨ m = .alpha) :
    LooksLike (s.withMode m) (t.withMode m) := h.withSeq (.unstaged _ rfl hm)

/-- The fault entry clears an alphabet under construction and abandons the open sequence (60_exceptions.md R194). -/
theorem LooksLike.takeFault {s t : State} (h : LooksLike s t) (f : FaultCode) : LooksLike (s.takeFault f) (t.takeFault f) := by
  have hfsr : s.fsr.record f = t.fsr.record f := congrArg (·.record f) h.fsr
  have hout : s.outbox ++ [faultWord f] = t.outbox ++ [faultWord f] := congrArg (· ++ _) h.outbox
  unfold State.takeFault
  by_cases hm : s.seq.mode = .alpha
  · rw [if_pos hm, if_pos (h.mode ▸ hm)]
    exact { h.clearAlpha.withMode (.inl rfl) with fsr := hfsr, outbox := hout }
  · rw [if_neg hm, if_neg (h.mode ▸ hm)]
    exact { h.withMode (.inl rfl) with fsr := hfsr, outbox := hout }

theorem LooksLike.withPlug {s t : State} (h : LooksLike s t) {p q : Perm} (hp : p.AgreeOn s.alpha.n q) :
    LooksLike (s.withPlug p) (t.withPlug q) := { h with plug := hp }

theorem LooksLike.withSlots {s t : State} (h : LooksLike s t) {a b : Table Nat}
    (hk : ∀ k < s.cfg.slots, Table.read numD a k = Table.read numD b k) : LooksLike (s.withSlots a) (t.withSlots b) :=
  { h with inserted := rfl, slot := fun _ => hk }

theorem LooksLike.rotorAgree {s t : State} (h : LooksLike s t) {a : Nat} (ha : (s.rotor a).valid = true) :
    (s.rotor a).AgreeOn s.alpha.n (t.rotor a) := by
  obtain ⟨hk, hs, hn, hw⟩ := h.rotor a ha
  exact ⟨hk, hs, hn, hw⟩

/-- An entry is replaced by entries that agree, if they are defined. -/
theorem LooksLike.withRotor {s t : State} (h : LooksLike s t) (a : Nat) {r q : Rotor} (hv : r.valid = q.valid)
    (hr : r.valid = true → r.AgreeOn s.alpha.n q) : LooksLike (s.withRotor a r) (t.withRotor a q) :=
  { h with
    valid := fun c => by
      rw [rotor_withRotor, rotor_withRotor]
      split
      · exact hv
      · exact h.valid c
    rotor := fun c hc => by
      rw [rotor_withRotor, rotor_withRotor]
      split
      · next e =>
        obtain ⟨hk, hs, hn, hw⟩ := hr (by simpa [e] using hc)
        exact ⟨hk, hs, hn, hw⟩
      · next e => exact h.rotor c (by simpa [e] using hc) }

theorem LooksLike.withSetting {s t : State} (h : LooksLike s t) (a v : Nat) : LooksLike (s.withSetting a v) (t.withSetting a v) :=
  h.withRotor a (h.valid a) fun hv => (h.rotorAgree hv).withSetting v

theorem LooksLike.withAdvance {s t : State} (h : LooksLike s t) (a : Nat) :
    LooksLike (s.withRotor a ((s.rotor a).advance s.alpha.n)) (t.withRotor a ((t.rotor a).advance t.alpha.n)) := by
  rw [← h.size]
  exact h.withRotor a (by simpa using h.valid a) fun hv => (h.rotorAgree (by simpa using hv)).advance

/-- SET_END writes the listed settings to the inserted rotors (43_machine_config.md R148). -/
theorem LooksLike.setSlots {s t : State} (h : LooksLike s t) (hs : Inv s) (hm : s.seq.mode = .set) {m : Nat}
    (hc : m ≤ s.seq.count) : LooksLike (s.setSlots m) (t.setSlots m) := by
  obtain ⟨hi, hcount, -, -⟩ := hs.setList hm
  obtain ⟨-, hlist⟩ := h.list (.inr hm)
  induction m with
  | zero => exact h
  | succ m ih =>
    rw [State.setSlots, State.setSlots, ← h.slot hi (m + 1) (by omega), ← hlist m hc]
    exact (ih (by omega)).withSetting _ _

-- Reads.

theorem LooksLike.toInt? {s t : State} (h : LooksLike s t) (c : Sym) : s.alpha.toInt? c = t.alpha.toInt? c := by
  refine Option.ext fun i => ?_
  rw [toInt?_eq_some, toInt?_eq_some, IsIndexOf, IsIndexOf, ← h.size]
  refine and_congr_right fun hi => ?_
  rw [h.sym i hi]
  exact and_congr_right fun _ => forall₂_congr fun j hj => by rw [h.sym j (lt_trans hj hi)]

theorem LooksLike.contains {s t : State} (h : LooksLike s t) (c : Sym) : s.alpha.contains c = t.alpha.contains c := by
  rw [Alphabet.contains, Alphabet.contains, h.toInt? c]

theorem LooksLike.ready {s t : State} (h : LooksLike s t) : s.ready = t.ready := by
  rw [State.ready, State.ready, h.mode, h.isSealed]

theorem LooksLike.inGroup {s t : State} (h : LooksLike s t) (hm : s.seq.mode = .perm) : s.seq.inGroup = t.seq.inGroup := by
  obtain ⟨-, -, hg, -⟩ := h.staging hm
  exact hg

theorem LooksLike.isRotor {s t : State} (h : LooksLike s t) (a : Nat) : s.isRotor a = t.isRotor a := by
  rw [State.isRotor, State.isRotor, h.cfg, h.valid a]

/-- A target names nothing in both states, or permutations that agree. -/
theorem LooksLike.target? {s t : State} (h : LooksLike s t) (a : Nat) :
    (s.target? a = none ∧ t.target? a = none) ∨
      ∃ p q, s.target? a = some p ∧ t.target? a = some q ∧ p.AgreeOn s.alpha.n q := by
  unfold State.target?
  rw [← h.isRotor a]
  split_ifs with hp hr
  · exact .inr ⟨_, _, rfl, rfl, h.plug⟩
  · obtain ⟨-, hv⟩ := isRotor_iff.mp hr
    exact .inr ⟨_, _, rfl, rfl, (h.rotorAgree hv).wiring⟩
  · exact .inl ⟨rfl, rfl⟩

theorem Inv.bijOn_of_names {s : State} (h : Inv s) {a : Nat} {p : Perm} (hp : Names s a p) : p.BijOn s.alpha.n := by
  obtain ⟨-, rfl⟩ | ⟨-, ⟨-, hv⟩, rfl⟩ := hp
  · exact h.plug
  · exact (h.rotors a hv).wiring

theorem Inv.one_le {s : State} (h : Inv s) (hr : Ready s) : 1 ≤ s.alpha.n := h.sealedSize hr.2

theorem LooksLike.slotRotor {s t : State} (h : LooksLike s t) (hs : Inv s) (hi : s.inserted = true) {k : Nat}
    (hk : k < s.cfg.slots) : (s.slotRotor k).AgreeOn s.alpha.n (t.slotRotor k) := by
  rw [State.slotRotor, State.slotRotor, ← h.slot hi k hk]
  exact h.rotorAgree ((hs.insertion hi).valid k hk).2

-- The keystroke (44_stepping_fsm.md R153 to R157, 45_signal_path.md R160).

theorem LooksLike.notchedAt {s t : State} (h : LooksLike s t) (hs : Inv s) (hi : s.inserted = true) {k : Nat}
    (hk : k < s.cfg.slots) : s.notchedAt k = t.notchedAt k :=
  (h.slotRotor hs hi hk).atNotch (hs.rotors _ ((hs.insertion hi).valid k hk).2).setting

theorem LooksLike.advances {s t : State} (h : LooksLike s t) (hs : Inv s) (hi : s.inserted = true) {k : Nat}
    (hk : k < s.cfg.slots) : s.advances k = t.advances k := by
  have hown : s.ownNotch k = t.ownNotch k := by
    rw [State.ownNotch, State.ownNotch, ← h.cfg, h.notchedAt hs hi hk]
  have hright : (k + 1 ≤ s.cfg.slots - 1 && s.notchedAt (k + 1)) = (k + 1 ≤ s.cfg.slots - 1 && t.notchedAt (k + 1)) := by
    by_cases hk1 : k + 1 ≤ s.cfg.slots - 1
    · rw [h.notchedAt hs hi (by omega)]
    · simp [hk1]
  rw [State.advances, State.advances, hown, hright, ← h.cfg]

theorem LooksLike.advancedCat {s t : State} (h : LooksLike s t) (hs : Inv s) (hi : s.inserted = true) {m : Nat}
    (hm : m ≤ s.cfg.slots) : LooksLike (s.withCat (s.advancedCat m)) (t.withCat (t.advancedCat m)) := by
  induction m with
  | zero => exact h
  | succ k ih =>
    have hk := ih (by omega)
    have hr := h.slotRotor hs hi (k := k) (by omega)
    rw [State.advancedCat, State.advancedCat, ← h.advances hs hi (by omega), ← h.slot hi k (by omega), ← h.size]
    split
    · refine hk.withRotor (s.slotAt k) ?_ fun _ => hr.advance
      rw [Rotor.advance_valid, Rotor.advance_valid, State.slotRotor, State.slotRotor, ← h.slot hi k (by omega)]
      exact h.valid _
    · exact hk

theorem LooksLike.stepRotors {s t : State} (h : LooksLike s t) (hs : Inv s) (hi : s.inserted = true) :
    LooksLike s.stepRotors t.stepRotors := by
  rw [State.stepRotors, State.stepRotors, ← h.cfg]
  exact h.advancedCat hs hi le_rfl

theorem LooksLike.pathDown {s t : State} (h : LooksLike s t) (hs : Inv s) (hr : Ready s) (hi : s.inserted = true) {m : Nat}
    (hm : m ≤ s.cfg.slots) (y : Nat) : s.pathDown m y = t.pathDown m y := by
  induction m generalizing y with
  | zero => rfl
  | succ k ih =>
    rw [State.pathDown, State.pathDown, (h.slotRotor hs hi hm).convertForward (hs.one_le hr), h.size]
    exact ih (by omega) _

theorem LooksLike.pathUp {s t : State} (h : LooksLike s t) (hs : Inv s) (hr : Ready s) (hi : s.inserted = true) {m : Nat}
    (hm : m < s.cfg.slots) (y : Nat) : s.pathUp m y = t.pathUp m y := by
  induction m with
  | zero => rfl
  | succ k ih =>
    rw [State.pathUp, State.pathUp, (h.slotRotor hs hi hm).convertBackward (hs.one_le hr), h.size, ih (by omega)]

theorem LooksLike.path {s t : State} (h : LooksLike s t) (hs : Inv s) (hr : Ready s) (hi : s.inserted = true) (x : Int) :
    s.path x = t.path x := by
  have h0 : s.cfg.slots - 1 < s.cfg.slots := by have := s.cfg.built; omega
  have hn := hs.one_le hr
  rw [State.path, State.path, State.core, State.core, ← h.cfg, ← h.size, h.plug.permute hn, h.plug.permute hn,
    h.pathDown hs hr hi le_rfl, h.pathUp hs hr hi h0]

theorem Inv.path_lt {s : State} (h : Inv s) (hr : Ready s) (x : Int) : s.path x < s.alpha.n := h.plug.permute_lt (h.one_le hr) _

end Sys2Proof.Machine
end

section
/-! Every command, and so every step, takes states that look alike to states that do, with the same response (20_memory.md R51). -/

namespace Sys2Proof.Machine

/-- Both results are next states, and they look alike. -/
def Alike (r r' : Result) : Prop := ∃ u v, r = .next u ∧ r' = .next v ∧ LooksLike u v

-- The two ways a command ends, and the checks of the meanings: the same outcome in both states.

theorem LooksLike.raise {s t : State} (h : LooksLike s t) (f : FaultCode) : Alike (raise f s) (raise f t) :=
  ⟨_, _, rfl, rfl, h.takeFault f⟩

theorem LooksLike.respond {s t : State} (h : LooksLike s t) {x y : Half} (hxy : x = y) : Alike (respond x s) (respond y t) :=
  hxy ▸ ⟨_, _, rfl, rfl, h.reply _⟩

theorem LooksLike.check {s t : State} (h : LooksLike s t) {c d : Prop} [Decidable c] [Decidable d] {f : FaultCode} {r r' : Result}
    (hcd : c ↔ d) (hr : ¬c → Alike r r') : Alike (if c then Machine.raise f s else r) (if d then Machine.raise f t else r') := by
  by_cases hc : c
  · rw [if_pos hc, if_pos (hcd.mp hc)]
    exact h.raise f
  · rw [if_neg hc, if_neg (mt hcd.mpr hc)]
    exact hr hc

theorem LooksLike.checkReady {s t : State} (h : LooksLike s t) {f : FaultCode} {r r' : Result} (hr : Ready s → Alike r r') :
    Alike (if ¬s.ready then Machine.raise f s else r) (if ¬t.ready then Machine.raise f t else r') :=
  h.check (by rw [h.ready]) fun hc => hr (ready_iff.mp (not_not.mp hc))

theorem LooksLike.checkReadyInserted {s t : State} (h : LooksLike s t) {f : FaultCode} {r r' : Result}
    (hr : Ready s → s.inserted = true → Alike r r') :
    Alike (if ¬s.readyInserted then Machine.raise f s else r) (if ¬t.readyInserted then Machine.raise f t else r') :=
  h.check (by rw [State.readyInserted, State.readyInserted, h.ready, h.inserted]) fun hc => by
    obtain ⟨h1, h2⟩ := readyInserted_iff.mp (not_not.mp hc)
    exact hr h1 h2

theorem LooksLike.checkMode {s t : State} (h : LooksLike s t) {m : Mode} {f : FaultCode} {r r' : Result}
    (hr : s.seq.mode = m → Alike r r') :
    Alike (if ¬s.inMode m then Machine.raise f s else r) (if ¬t.inMode m then Machine.raise f t else r') :=
  h.check (by rw [State.inMode, State.inMode, h.mode]) fun hc => hr (inMode_iff.mp (not_not.mp hc))

theorem LooksLike.checkRotor {s t : State} (h : LooksLike s t) {a : Nat} {f : FaultCode} {r r' : Result}
    (hr : IsRotor s a → Alike r r') :
    Alike (if ¬s.isRotor a then Machine.raise f s else r) (if ¬t.isRotor a then Machine.raise f t else r') :=
  h.check (by rw [h.isRotor a]) fun hc => hr (isRotor_iff.mp (not_not.mp hc))

/-- Legality inside a construction, with a condition on its staging. -/
theorem LooksLike.checkPerm {s t : State} (h : LooksLike s t) {c d : Prop} [Decidable c] [Decidable d] {f : FaultCode}
    {r r' : Result} (hcd : s.seq.mode = .perm → (c ↔ d)) (hr : s.seq.mode = .perm → c → Alike r r') :
    Alike (if ¬(s.inMode .perm ∧ c) then Machine.raise f s else r) (if ¬(t.inMode .perm ∧ d) then Machine.raise f t else r') := by
  refine h.check ?_ fun hc => ?_
  · rw [inMode_iff, inMode_iff, ← h.mode]
    exact not_congr (and_congr_right hcd)
  · obtain ⟨hm, hc⟩ := not_not.mp hc
    exact hr (inMode_iff.mp hm) hc

theorem LooksLike.onSymbol {s t : State} (h : LooksLike s t) {c : Sym} {f : FaultCode} {k l : Nat → Result}
    (hk : ∀ j < s.alpha.n, Alike (k j) (l j)) :
    Alike (match s.alpha.toInt? c with | none => Machine.raise f s | some j => k j)
      (match t.alpha.toInt? c with | none => Machine.raise f t | some j => l j) := by
  rw [← h.toInt? c]
  cases hj : s.alpha.toInt? c with
  | none => exact h.raise f
  | some j => exact hk j (toInt?_eq_some.mp hj).1

theorem LooksLike.onTarget {s t : State} (h : LooksLike s t) (hs : Inv s) {a : Nat} {f : FaultCode} {k l : Perm → Result}
    (hk : ∀ p q, p.BijOn s.alpha.n → p.AgreeOn s.alpha.n q → Alike (k p) (l q)) :
    Alike (match s.target? a with | none => Machine.raise f s | some p => k p)
      (match t.target? a with | none => Machine.raise f t | some p => l p) := by
  rcases h.target? a with ⟨hp, hq⟩ | ⟨p, q, hp, hq, hpq⟩
  · rw [hp, hq]
    exact h.raise f
  · rw [hp, hq]
    exact hk p q (hs.bijOn_of_names (target?_eq_some.mp hp)) hpq

-- The commands.

/-- Every command. -/
theorem LooksLike.exec {s t : State} (h : LooksLike s t) (hs : Inv s) (ht : Inv t) (i : Instr) : Alike (exec i s) (exec i t) := by
  cases i with
  | stat => exact h.respond (by rw [h.fsr])
  | alphaBegin =>
    exact h.check (by rw [State.inMode, State.inMode, h.mode, h.isSealed]) fun _ =>
      (h.clearAlpha.withMode (.inr rfl)).respond rfl
  | alphaSym c =>
    refine h.checkMode fun hm => h.check Iff.rfl fun _ => h.check (by rw [h.contains c]) fun _ =>
      h.check (by rw [h.size, h.cfg]) fun _ => ?_
    exact (h.pushSymbol hs ht hm c).respond rfl
  | alphaEnd =>
    exact h.checkMode fun _ => h.check (by rw [h.size]) fun _ => (h.sealAlpha.withMode (.inl rfl)).respond rfl
  | alphaSize => exact h.checkReady fun _ => h.respond (by rw [h.size])
  | alphaTochar x =>
    exact h.checkReady fun _ => h.check (by rw [h.size]) fun hx => h.respond (h.sym _ (by omega))
  | alphaToint c => exact h.checkReady fun _ => h.onSymbol fun _ _ => h.respond rfl
  | alphaHas c => exact h.checkReady fun _ => h.respond (by rw [h.contains c])
  | bldBegin a k =>
    refine h.checkReady fun _ => ?_
    by_cases ha : a = plugTarget
    · rw [if_pos ha, if_pos ha]
      exact h.check Iff.rfl fun _ => (h.withSeq (.openPerm _ _ _ a .reflector)).respond rfl
    · rw [if_neg ha, if_neg ha]
      cases Kind.ofField? k with
      | none => exact h.raise _
      | some kind =>
        exact h.check (by rw [h.cfg]) fun _ => h.check (by rw [h.valid a]) fun _ =>
          (h.withSeq (.openPerm _ _ _ a kind)).respond rfl
  | bldNotch c =>
    refine h.checkPerm (fun hm => ?_) fun _ _ => h.onSymbol fun j _ => (h.withSeq (h.seqAgree.notchBit j)).respond rfl
    obtain ⟨hT, hk, hg, -⟩ := h.staging hm
    rw [hT, hk, hg]
  | cycOpen =>
    exact h.checkPerm (fun hm => by rw [h.inGroup hm]) fun _ _ => (h.withSeq h.seqAgree.openGroup).respond rfl
  | cycSym c =>
    refine h.checkPerm (fun hm => by rw [h.inGroup hm]) fun hm hg => h.onSymbol fun j hj => ?_
    obtain ⟨-, -, -, -, hseen⟩ := h.staging hm
    exact h.check (by rw [(hseen j hj).1]) fun _ => (h.withSeq (h.seqAgree.addToGroup hm hg j)).respond rfl
  | cycClose =>
    exact h.checkPerm (fun hm => by rw [h.inGroup hm]) fun hm hg =>
      (h.withSeq (h.seqAgree.closeGroup hm hg)).respond rfl
  | bldEnd =>
    refine h.checkPerm (fun hm => by rw [h.inGroup hm]) fun hm _ => ?_
    obtain ⟨hT, hk, -, hp, -⟩ := h.staging hm
    refine h.check (by rw [← hT, ← hk, ← h.size, hp.derangement]) fun _ => ?_
    rw [← hT, ← h.size]
    split
    · exact ((h.withPlug (hp.copyTo _ _)).withMode (.inl rfl)).respond rfl
    · refine ((h.withRotor _ ?_ fun _ => h.seqAgree.commitTo hm _ _).withMode (.inl rfl)).respond rfl
      rfl
  | permuteIdx a x =>
    exact h.checkReady fun hr => h.onTarget hs fun p q _ hpq => h.respond (by rw [← h.size, hpq.permute (hs.one_le hr)])
  | invertIdx a x =>
    exact h.checkReady fun hr => h.onTarget hs fun p q _ hpq => h.respond (by rw [← h.size, hpq.invert (hs.one_le hr)])
  | permuteSym a c =>
    refine h.checkReady fun hr => h.onTarget hs fun p q hp hpq => h.onSymbol fun j _ => h.respond ?_
    rw [← h.size, ← hpq.permute (hs.one_le hr)]
    exact h.sym _ (hp.permute_lt (hs.one_le hr) j)
  | invertSym a c =>
    refine h.checkReady fun hr => h.onTarget hs fun p q hp hpq => h.onSymbol fun j _ => h.respond ?_
    rw [← h.size, ← hpq.invert (hs.one_le hr)]
    exact h.sym _ (hp.invert_lt (hs.one_le hr) j)
  | deranged a => exact h.checkReady fun _ => h.onTarget hs fun p q _ hpq => h.respond (by rw [← h.size, hpq.derangement])
  | rotKind a =>
    exact h.checkReady fun _ => h.checkRotor fun ha => h.respond (congrArg _ (h.rotorAgree ha.2).kind)
  | rotGet a =>
    exact h.checkReady fun _ => h.checkRotor fun ha => h.respond (congrArg _ (h.rotorAgree ha.2).setting)
  | rotSetIdx a x =>
    refine h.checkReady fun _ => h.checkRotor fun ha => h.check (by rw [h.size]) fun _ =>
      h.check (by rw [(h.rotorAgree ha.2).kind]) fun _ => ?_
    exact (h.withSetting a _).respond rfl
  | rotSetSym a c =>
    refine h.checkReady fun _ => h.checkRotor fun ha => h.onSymbol fun j _ => h.check (by rw [(h.rotorAgree ha.2).kind]) fun _ => ?_
    exact (h.withSetting a j).respond rfl
  | rotFwd a x =>
    exact h.checkReady fun hr => h.checkRotor fun ha =>
      h.respond (by rw [← h.size, (h.rotorAgree ha.2).convertForward (hs.one_le hr)])
  | rotBwd a x =>
    exact h.checkReady fun hr => h.checkRotor fun ha =>
      h.respond (by rw [← h.size, (h.rotorAgree ha.2).convertBackward (hs.one_le hr)])
  | rotAdv a => exact h.checkReady fun _ => h.checkRotor fun _ => (h.withAdvance a).respond rfl
  | rotAtnotch a =>
    exact h.checkReady fun _ => h.checkRotor fun ha =>
      h.respond (by rw [(h.rotorAgree ha.2).atNotch (hs.rotors a ha.2).setting])
  | insBegin => exact h.checkReady fun _ => (h.withSeq (.openList _ _ _ (by decide))).respond rfl
  | insName a =>
    refine h.checkMode fun hm => ?_
    obtain ⟨hc, -⟩ := h.list (.inl hm)
    refine h.check (by rw [hc, h.cfg]) fun _ => h.checkRotor fun _ =>
      h.check (by rw [h.seqAgree.lists (.inl hm) a]) fun _ => ?_
    exact (h.withSeq (h.seqAgree.push (.inl hm) a)).respond rfl
  | insEnd =>
    refine h.checkMode fun hm => ?_
    obtain ⟨hc, hl⟩ := h.list (.inl hm)
    refine h.check (by rw [hc, h.cfg]) fun hlen => ?_
    have h0 : 0 < s.seq.count := by have := s.cfg.built; omega
    have hd := (h.rotorAgree ((hs.insList hm).valid 0 h0).2).wiring.derangement
    refine h.check (by rw [hd, hl 0 h0, h.size]) fun _ => ?_
    rw [← h.cfg]
    refine ((h.withSlots fun k hk => ?_).withMode (.inl rfl)).respond rfl
    rw [Table.read_copyTo, Table.read_copyTo, if_pos hk, if_pos hk]
    exact hl k (by omega)
  | setBegin => exact h.checkReadyInserted fun _ _ => (h.withSeq (.openList _ _ _ (by decide))).respond rfl
  | setSym c =>
    refine h.checkMode fun hm => ?_
    obtain ⟨hi, hcount, -, -⟩ := hs.setList hm
    obtain ⟨hc, -⟩ := h.list (.inr hm)
    refine h.check (by rw [hc, h.cfg]) fun hlen => h.onSymbol fun j _ => ?_
    have hr := (h.slotRotor hs hi (k := s.seq.count + 1) (by omega)).kind
    exact h.check (by rw [hr, hc]) fun _ => (h.withSeq (h.seqAgree.push (.inr hm) j)).respond rfl
  | setEnd =>
    refine h.checkMode fun hm => ?_
    obtain ⟨hc, -⟩ := h.list (.inr hm)
    refine h.check (by rw [hc, h.cfg]) fun hlen => ?_
    rw [← h.cfg]
    exact ((h.setSlots hs hm (by omega)).withMode (.inl rfl)).respond rfl
  | convIdx x =>
    refine h.checkReadyInserted fun hr hi => ?_
    have hu := h.stepRotors hs hi
    exact hu.respond (by rw [hu.path (hs.stepRotors hr hi) hr hi])
  | convSym c =>
    refine h.checkReadyInserted fun hr hi => h.onSymbol fun j _ => ?_
    have hu := h.stepRotors hs hi
    have hI := hs.stepRotors hr hi
    refine hu.respond ?_
    rw [← hu.path hI hr hi]
    exact h.sym _ (hI.path_lt hr j)
  | slotGet a =>
    exact h.checkReadyInserted fun _ hi => h.check (by rw [h.cfg]) fun ha => h.respond (by rw [h.slot hi a (by omega)])

-- One step.

/-- After a reset nothing is left of what came before but the parameters and the channels (70_reset_and_hazards.md R205). -/
theorem LooksLike.assertReset {s t : State} (h : LooksLike s t) : LooksLike s.assertReset t.assertReset := by
  rw [State.assertReset, State.assertReset, h.cfg, h.inbox, h.outbox]
  exact .refl _

theorem rejectCommand_eq (r : Reject) (s : State) : rejectCommand r s = raise .badCommand s := by cases r <;> rfl

/-- A step holds both states, resets both, runs the same command in both, or faults both. -/
theorem LooksLike.step {s t : State} (h : LooksLike s t) (hs : Inv s) (ht : Inv t) : Alike (step s) (step t) := by
  unfold Machine.step State.nextEvent
  rw [← h.inbox]
  rcases s.inbox with _ | ⟨w | _, es⟩
  case nil => exact ⟨s, t, rfl, rfl, h⟩
  case cons.reset => exact ⟨_, _, rfl, rfl, (h.withInbox es).assertReset⟩
  case cons.command =>
    have hes := h.withInbox es
    cases hw : decode w with
    | ok i => simpa only [hw] using hes.exec (hs.withInbox es) (ht.withInbox es) i
    | error r => simpa only [hw, rejectCommand_eq] using hes.raise .badCommand

/-- Settles O58: a simulation of one step by the other, command by command (`LooksLike.exec`). -/
theorem unspecifiedStateIsNeverObserved : Obligations.UnspecifiedStateIsNeverObserved := by
  unfold Obligations.UnspecifiedStateIsNeverObserved
  exact fun _ _ hs ht h => h.step hs ht

end Sys2Proof.Machine
end

section
/-! Which command writes which part of the state (20_memory.md R52, 10_state.md R21, R29, R31). -/

namespace Sys2Proof.Machine

/-- Command `i` takes `s` to `t`, and each table and flag is another one only if `i` is a command that writes it. -/
structure WritesOnly (i : Instr) (s t : State) : Prop where
  sym : (∀ c, i ≠ .alphaSym c) → t.alpha.sym = s.alpha.sym
  isSealed : i ≠ .alphaEnd → t.alpha.isSealed = s.alpha.isSealed
  plug : i ≠ .bldEnd → t.plug = s.plug
  slots : i ≠ .insEnd → t.inserted = s.inserted ∧ t.slot = s.slot
  cat : (i ≠ .bldEnd ∧ (∀ a x, i ≠ .rotSetIdx a x) ∧ (∀ a c, i ≠ .rotSetSym a c) ∧ (∀ a, i ≠ .rotAdv a) ∧ i ≠ .setEnd ∧
    (∀ x, i ≠ .convIdx x) ∧ (∀ c, i ≠ .convSym c)) → t.cat = s.cat
  perm : (∀ a k, i ≠ .bldBegin a k) ∧ (∀ c, i ≠ .cycSym c) ∧ i ≠ .cycClose → t.seq.perm = s.seq.perm
  seen : (∀ a k, i ≠ .bldBegin a k) ∧ (∀ c, i ≠ .cycSym c) → t.seq.seen = s.seq.seen
  notch : (∀ a k, i ≠ .bldBegin a k) ∧ (∀ c, i ≠ .bldNotch c) → t.seq.notch = s.seq.notch
  list : (∀ a, i ≠ .insName a) ∧ (∀ c, i ≠ .setSym c) → t.seq.list = s.seq.list

theorem WritesOnly.refl (i : Instr) (s : State) : WritesOnly i s s :=
  ⟨fun _ => rfl, fun _ => rfl, fun _ => rfl, fun _ => ⟨rfl, rfl⟩, fun _ => rfl, fun _ => rfl, fun _ => rfl, fun _ => rfl,
    fun _ => rfl⟩

/-- BLD_BEGIN writes the three staged tables of a construction. -/
theorem WritesOnly.openPerm (a : Nat) (k : BitVec 2) (s : State) (kind : Kind) :
    WritesOnly (.bldBegin a k) s (s.withSeq (s.seq.openPerm a kind)) :=
  { WritesOnly.refl _ s with
    perm := fun ⟨h, _⟩ => absurd rfl (h a k)
    seen := fun ⟨h, _⟩ => absurd rfl (h a k)
    notch := fun ⟨h, _⟩ => absurd rfl (h a k) }

/-- What each command writes, and that it writes nothing else. -/
theorem effect_writesOnly {i : Instr} {s u : State} {v : Half} (he : Effect i s u v) : WritesOnly i s u := by
  have h := WritesOnly.refl i s
  cases i <;> simp only [Effect] at he
  case stat => obtain ⟨rfl, -⟩ := he; exact h
  case alphaSize | alphaToint | alphaHas | permuteIdx | invertIdx | permuteSym | invertSym | deranged =>
    obtain ⟨-, rfl, -⟩ := he; exact h
  case rotKind | rotGet | rotFwd | rotBwd | rotAtnotch => obtain ⟨-, -, rfl, -⟩ := he; exact h
  case alphaTochar | slotGet => obtain ⟨-, -, -, rfl, -⟩ := he; exact h
  case alphaBegin => obtain ⟨-, -, rfl, -⟩ := he; exact { h with }
  case alphaSym c =>
    obtain ⟨-, -, -, -, rfl, -⟩ := he
    exact { h with sym := fun hi => absurd rfl (hi c) }
  case alphaEnd =>
    obtain ⟨-, -, rfl, -⟩ := he
    exact { h with isSealed := fun hi => absurd rfl hi }
  case bldBegin a k =>
    obtain ⟨-, -, ⟨-, -, rfl⟩ | ⟨-, -, -, kind, -, rfl⟩⟩ := he
    · exact .openPerm a k s .reflector
    · exact .openPerm a k s kind
  case bldNotch c =>
    obtain ⟨-, -, -, -, j, -, rfl⟩ := he
    exact { h with notch := fun ⟨_, hi⟩ => absurd rfl (hi c) }
  case cycOpen | insBegin => obtain ⟨-, rfl, -⟩ := he; exact { h with }
  case setBegin => obtain ⟨-, -, rfl, -⟩ := he; exact { h with }
  case cycSym c =>
    obtain ⟨-, -, j, -, -, rfl⟩ := he
    exact
      { h with
        perm := fun ⟨_, hi, _⟩ => absurd rfl (hi c)
        seen := fun ⟨_, hi⟩ => absurd rfl (hi c)
        notch := fun _ => addToGroup_notch s.seq j
        list := fun _ => addToGroup_list s.seq j }
  case cycClose =>
    obtain ⟨-, rfl, -⟩ := he
    exact { h with perm := fun ⟨_, _, hi⟩ => absurd rfl hi }
  case bldEnd =>
    obtain ⟨-, -, -, ⟨-, rfl⟩ | ⟨-, rfl⟩⟩ := he
    · exact { h with plug := fun hi => absurd rfl hi }
    · exact { h with cat := fun ⟨hi, _⟩ => absurd rfl hi }
  case rotSetIdx a x =>
    obtain ⟨-, -, -, -, -, rfl, -⟩ := he
    exact { h with cat := fun ⟨_, hi, _⟩ => absurd rfl (hi a x) }
  case rotSetSym a c =>
    obtain ⟨-, -, -, j, -, -, rfl⟩ := he
    exact { h with cat := fun ⟨_, _, hi, _⟩ => absurd rfl (hi a c) }
  case rotAdv a =>
    obtain ⟨-, -, rfl, -⟩ := he
    exact { h with cat := fun ⟨_, _, _, hi, _⟩ => absurd rfl (hi a) }
  case insName a =>
    obtain ⟨-, -, -, -, rfl, -⟩ := he
    exact { h with list := fun ⟨hi, _⟩ => absurd rfl (hi a) }
  case insEnd =>
    obtain ⟨-, -, -, rfl, -⟩ := he
    exact { h with slots := fun hi => absurd rfl hi }
  case setSym c =>
    obtain ⟨-, -, -, j, -, -, rfl⟩ := he
    exact { h with list := fun ⟨_, hi⟩ => absurd rfl (hi c) }
  case setEnd =>
    obtain ⟨-, -, rfl, -⟩ := he
    rw [setSlots_eq]
    exact { h with cat := fun ⟨_, _, _, _, hi, _⟩ => absurd rfl hi }
  case convIdx x =>
    obtain ⟨-, -, rfl, -⟩ := he
    exact { h with cat := fun ⟨_, _, _, _, _, hi, _⟩ => absurd rfl (hi x) }
  case convSym c =>
    obtain ⟨-, -, rfl, -⟩ := he
    exact { h with cat := fun ⟨_, _, _, _, _, _, hi⟩ => absurd rfl (hi c) }

/-- The fault entry clears the size of an alphabet under construction, and no table. -/
theorem WritesOnly.takeFault (i : Instr) (s : State) (f : FaultCode) : WritesOnly i s (s.takeFault f) :=
  { WritesOnly.refl i s with
    sym := fun _ => by rw [State.takeFault_alpha]; split <;> rfl
    isSealed := fun _ => by rw [State.takeFault_alpha]; split <;> rfl }

theorem exec_writesOnly {i : Instr} {s t : State} (h : exec i s = .next t) : WritesOnly i s t := by
  rcases exec_cases h with ⟨f, rfl⟩ | ⟨u, v, hu, rfl⟩
  · exact .takeFault i s f
  · exact { effect_writesOnly hu with }

/-- Settles O20: the tables a command does not write are the same, so they read the same. -/
theorem onlyTheNamedCommandsWriteEachTable : Obligations.OnlyTheNamedCommandsWriteEachTable := by
  unfold Obligations.OnlyTheNamedCommandsWriteEachTable
  intro i s t h
  have hw := exec_writesOnly h
  refine ⟨fun hi j => ?_, hw.isSealed, fun hi j => ?_, fun hi => ?_, fun hi c => ?_, fun hi j => ?_, fun hi j => ?_,
    fun hi j => ?_, fun hi j => ?_⟩
  · rw [Alphabet.symAt, hw.sym hi]
  · rw [hw.plug hi]
    exact ⟨rfl, rfl⟩
  · obtain ⟨hins, hslot⟩ := hw.slots hi
    exact ⟨hins, fun k => by rw [State.slotAt, hslot]⟩
  · rw [State.rotor, hw.cat hi]
  · rw [hw.perm hi]
    exact ⟨rfl, rfl⟩
  · rw [Seq.seenAt, hw.seen hi]
  · rw [Seq.notchAt, hw.notch hi]
  · rw [Seq.listAt, hw.list hi]

end Sys2Proof.Machine
end

section
/-! The decoder inverts the encoder (30_encoding.md R71, R73 to R75): every format reads back the fields it is given. -/

namespace Sys2Proof

-- The seven formats on the fields the encoder writes.

theorem formatZ_zero (i : Instr) : formatZ 0 0 i = .ok i := if_pos ⟨rfl, rfl⟩

theorem formatS_zero (s : Sym) (mk : Sym → Instr) : formatS 0 s mk = .ok (mk s) := if_pos rfl

theorem formatX_field16 {x : Int} (hx : indexFits x = true) (mk : Int → Instr) : formatX 0 (field16 x) mk = .ok (mk x) := by
  rw [formatX, if_pos rfl, sext16_field16 hx]

theorem formatT_field8 {a : Nat} (ha : targetFits a = true) (mk : Nat → Instr) : formatT (field8 a) 0 mk = .ok (mk a) := by
  rw [formatT, if_pos rfl, toNat_field8 ha]

theorem formatTS_field8 {a : Nat} (ha : targetFits a = true) (s : Sym) (mk : Nat → Sym → Instr) :
    formatTS (field8 a) s mk = .ok (mk a s) := by
  rw [formatTS, toNat_field8 ha]

theorem formatTX_fields {a : Nat} {x : Int} (h : (targetFits a && indexFits x) = true) (mk : Nat → Int → Instr) :
    formatTX (field8 a) (field16 x) mk = .ok (mk a x) := by
  obtain ⟨ha, hx⟩ := Bool.and_eq_true_iff.mp h
  rw [formatTX, toNat_field8 ha, sext16_field16 hx]

theorem formatB_fields {a : Nat} (ha : targetFits a = true) (k : BitVec 2) (mk : Nat → BitVec 2 → Instr) :
    formatB (field8 a) (0#14 ++ k) mk = .ok (mk a k) := by
  refine (if_pos (kindField_high k)).trans ?_
  rw [toNat_field8 ha, kindField_low]

/-- Settles O1: by the command's format; the opcode in front picks the arm of `decodeFields` that reads that format. -/
theorem decodeOfEncodeIsTheCommand : Obligations.DecodeOfEncodeIsTheCommand := by
  unfold Obligations.DecodeOfEncodeIsTheCommand
  intro i hi
  cases i
  case stat | alphaBegin | alphaEnd | alphaSize | cycOpen | cycClose | bldEnd | insBegin | insEnd | setBegin | setEnd =>
    exact (decode_packWord _ 0 0).trans (formatZ_zero _)
  case alphaSym s | alphaToint s | alphaHas s | bldNotch s | cycSym s | setSym s | convSym s =>
    exact (decode_packWord _ 0 s).trans (formatS_zero s _)
  case alphaTochar x | convIdx x => exact (decode_packWord _ 0 _).trans (formatX_field16 hi _)
  case deranged a | rotKind a | rotGet a | rotAdv a | rotAtnotch a | insName a | slotGet a =>
    exact (decode_packWord _ _ 0).trans (formatT_field8 hi _)
  case permuteSym a s | invertSym a s | rotSetSym a s => exact (decode_packWord _ _ s).trans (formatTS_field8 hi s _)
  case permuteIdx a x | invertIdx a x | rotSetIdx a x | rotFwd a x | rotBwd a x =>
    exact (decode_packWord _ _ _).trans (formatTX_fields hi _)
  case bldBegin a k => exact (decode_packWord _ _ _).trans (formatB_fields hi k _)

end Sys2Proof
end

section
/-! The decoder and the opcode table (30_encoding.md R75 to R77): a row's mask has a one where the row's format fixes the bit, so a word with
the row's opcode matches the row exactly where the format's own check lets it through. -/

namespace Sys2Proof

open Sys2Proof.Machine Sys2Proof.Laws

-- Words, field by field.

theorem packWord_inj {o p a b : Byte} {v u : Half} : packWord o a v = packWord p b u ↔ o = p ∧ a = b ∧ v = u := by
  refine ⟨fun h => ⟨?_, ?_, ?_⟩, by rintro ⟨rfl, rfl, rfl⟩; rfl⟩
  · simpa using congrArg opField h
  · simpa using congrArg aField h
  · simpa using congrArg vField h

theorem opField_and (x y : Word) : opField (x &&& y) = opField x &&& opField y := BitVec.extractLsb_and ..

-- A mask field of ones, in the numeral form `simp` leaves it in.

@[simp] theorem byte_and_ones (a : Byte) : a &&& 255#8 = a := BitVec.and_allOnes

@[simp] theorem half_and_ones (v : Half) : v &&& 65535#16 = v := BitVec.and_allOnes

/-- The mask of BLD_BEGIN's operand keeps exactly the bits its format wants zero. -/
theorem kindMask_iff {v : Half} : v &&& 65532#16 = 0#16 ↔ v.extractLsb 15 2 = 0#14 := by
  constructor
  · intro h
    have hx := congrArg (BitVec.extractLsb 15 2) h
    rw [BitVec.extractLsb_and] at hx
    exact BitVec.and_allOnes.symm.trans hx
  · intro h
    rw [← kindField_join h]
    exact kind_and _

-- What a row of the table makes of a word.

/-- `d` is what the decoder has to make of word `w`, whose opcode is that of row `r`: where the word matches the row, a well-formed
command whose word it is, and the fault of a non-zero unused field where it does not. -/
def ReadsAs (r : Word × Word) (w : Word) (d : Except Reject Instr) : Prop :=
  if w &&& r.2 = r.1 then ∃ i, d = .ok i ∧ i.wellFormed = true ∧ encode i = w else d = .error .unusedFieldNonZero

theorem readsAs_ok {r : Word × Word} {w : Word} {i : Instr} (hm : w &&& r.2 = r.1) (hi : i.wellFormed = true ∧ encode i = w) :
    ReadsAs r w (.ok i) := by
  rw [ReadsAs, if_pos hm]
  exact ⟨i, rfl, hi⟩

/-- A format with a check is right when its check is the row's mask. -/
theorem readsAs_check {r : Word × Word} {w : Word} {c : Prop} [Decidable c] {i : Instr} (hm : w &&& r.2 = r.1 ↔ c)
    (hi : c → i.wellFormed = true ∧ encode i = w) : ReadsAs r w (if c then .ok i else .error .unusedFieldNonZero) := by
  by_cases hc : c
  · rw [if_pos hc]
    exact readsAs_ok (hm.mpr hc) (hi hc)
  · rw [if_neg hc, ReadsAs, if_neg (mt hm.mp hc)]

theorem readsAs_formatZ {r : Word × Word} {op a : Byte} {v : Half} {i : Instr}
    (hr : r = (packWord op 0 0, packWord 0xFF 0xFF 0xFFFF)) (he : encode i = packWord op 0 0) (hw : i.wellFormed = true) :
    ReadsAs r (packWord op a v) (formatZ a v i) :=
  readsAs_check (by simp [hr, packWord_and, packWord_inj]) (by rintro ⟨rfl, rfl⟩; exact ⟨hw, he⟩)

theorem readsAs_formatS {r : Word × Word} {op a : Byte} {v : Half} {mk : Sym → Instr}
    (hr : r = (packWord op 0 0, packWord 0xFF 0xFF 0)) (he : ∀ s, encode (mk s) = packWord op 0 s)
    (hw : ∀ s, (mk s).wellFormed = true) : ReadsAs r (packWord op a v) (formatS a v mk) :=
  readsAs_check (by simp [hr, packWord_and, packWord_inj]) (by rintro rfl; exact ⟨hw v, he v⟩)

theorem readsAs_formatX {r : Word × Word} {op a : Byte} {v : Half} {mk : Int → Instr}
    (hr : r = (packWord op 0 0, packWord 0xFF 0xFF 0)) (he : ∀ x, encode (mk x) = packWord op 0 (field16 x))
    (hw : ∀ x, (mk x).wellFormed = indexFits x) : ReadsAs r (packWord op a v) (formatX a v mk) :=
  readsAs_check (by simp [hr, packWord_and, packWord_inj])
    (by rintro rfl; rw [hw, he, field16_sext16]; exact ⟨indexFits_sext16 v, rfl⟩)

theorem readsAs_formatT {r : Word × Word} {op a : Byte} {v : Half} {mk : Nat → Instr}
    (hr : r = (packWord op 0 0, packWord 0xFF 0 0xFFFF)) (he : ∀ n, encode (mk n) = packWord op (field8 n) 0)
    (hw : ∀ n, (mk n).wellFormed = targetFits n) : ReadsAs r (packWord op a v) (formatT a v mk) :=
  readsAs_check (by simp [hr, packWord_and, packWord_inj])
    (by rintro rfl; rw [hw, he, field8_toNat]; exact ⟨targetFits_toNat a, rfl⟩)

theorem readsAs_formatTS {r : Word × Word} {op a : Byte} {v : Half} {mk : Nat → Sym → Instr}
    (hr : r = (packWord op 0 0, packWord 0xFF 0 0)) (he : ∀ n s, encode (mk n s) = packWord op (field8 n) s)
    (hw : ∀ n s, (mk n s).wellFormed = targetFits n) : ReadsAs r (packWord op a v) (formatTS a v mk) :=
  readsAs_ok (by simp [hr, packWord_and]) (by rw [hw, he, field8_toNat]; exact ⟨targetFits_toNat a, rfl⟩)

theorem readsAs_formatTX {r : Word × Word} {op a : Byte} {v : Half} {mk : Nat → Int → Instr}
    (hr : r = (packWord op 0 0, packWord 0xFF 0 0)) (he : ∀ n x, encode (mk n x) = packWord op (field8 n) (field16 x))
    (hw : ∀ n x, (mk n x).wellFormed = (targetFits n && indexFits x)) : ReadsAs r (packWord op a v) (formatTX a v mk) :=
  readsAs_ok (by simp [hr, packWord_and])
    (by rw [hw, he, field8_toNat, field16_sext16, targetFits_toNat, indexFits_sext16]; exact ⟨rfl, rfl⟩)

theorem readsAs_formatB {r : Word × Word} {op a : Byte} {v : Half} {mk : Nat → BitVec 2 → Instr}
    (hr : r = (packWord op 0 0, packWord 0xFF 0 0xFFFC)) (he : ∀ n k, encode (mk n k) = packWord op (field8 n) (0#14 ++ k))
    (hw : ∀ n k, (mk n k).wellFormed = targetFits n) : ReadsAs r (packWord op a v) (formatB a v mk) :=
  readsAs_check (by simp [hr, packWord_and, packWord_inj, kindMask_iff])
    (fun hv => by rw [hw, he, field8_toNat, kindField_join hv]; exact ⟨targetFits_toNat a, rfl⟩)

/-- The decoder reads every word with the opcode of a command as that command's row says. -/
theorem decodeFields_of_row {i : Instr} {op : Byte} (ho : op = opField (encode i)) (a : Byte) (v : Half) :
    ReadsAs (Row.of i) (packWord op a v) (decodeFields op a v) := by
  cases i <;> obtain rfl := ho.trans (opField_packWord _ _ _)
  case stat | alphaBegin | alphaEnd | alphaSize | cycOpen | cycClose | bldEnd | insBegin | insEnd | setBegin | setEnd =>
    exact readsAs_formatZ rfl rfl rfl
  case alphaSym | alphaToint | alphaHas | bldNotch | cycSym | setSym | convSym =>
    exact readsAs_formatS rfl (fun _ => rfl) (fun _ => rfl)
  case alphaTochar | convIdx => exact readsAs_formatX rfl (fun _ => rfl) (fun _ => rfl)
  case deranged | rotKind | rotGet | rotAdv | rotAtnotch | insName | slotGet =>
    exact readsAs_formatT rfl (fun _ => rfl) (fun _ => rfl)
  case permuteSym | invertSym | rotSetSym => exact readsAs_formatTS rfl (fun _ _ => rfl) (fun _ _ => rfl)
  case permuteIdx | invertIdx | rotSetIdx | rotFwd | rotBwd => exact readsAs_formatTX rfl (fun _ _ => rfl) (fun _ _ => rfl)
  case bldBegin => exact readsAs_formatB rfl (fun _ _ => rfl) (fun _ _ => rfl)

-- The table as a whole.

/-- A command for each row, in the order of the table. -/
def rowCommands : List Instr :=
  [.stat, .alphaBegin, .alphaSym 0, .alphaEnd, .alphaSize, .alphaTochar 0, .alphaToint 0, .alphaHas 0, .bldBegin 0 0, .bldNotch 0,
    .cycOpen, .cycSym 0, .cycClose, .bldEnd, .permuteIdx 0 0, .invertIdx 0 0, .permuteSym 0 0, .invertSym 0 0, .deranged 0,
    .rotKind 0, .rotGet 0, .rotSetIdx 0 0, .rotSetSym 0 0, .rotFwd 0 0, .rotBwd 0 0, .rotAdv 0, .rotAtnotch 0,
    .insBegin, .insName 0, .insEnd, .setBegin, .setSym 0, .setEnd, .convIdx 0, .convSym 0, .slotGet 0]

theorem map_rowCommands : rowCommands.map Row.of = opcodeRows := rfl

theorem opField_rowCommands {i : Instr} (hi : i ∈ rowCommands) : opField (encode i) = opField (Row.of i).1 := by
  have h : rowCommands.all (fun i => opField (encode i) == opField (Row.of i).1) = true := by decide
  exact beq_iff_eq.mp (List.all_eq_true.mp h i hi)

/-- A word with the opcode of a row is read as the row says. -/
theorem decode_of_row {r : Word × Word} (hr : r ∈ opcodeRows) {w : Word} (ho : opField w = opField r.1) :
    ReadsAs r w (decode w) := by
  obtain ⟨i, hi, rfl⟩ := List.mem_map.mp (map_rowCommands ▸ hr)
  have h := decodeFields_of_row (ho.trans (opField_rowCommands hi).symm) (aField w) (vField w)
  rwa [packWord_fields] at h

/-- An opcode of no row is undefined. -/
theorem decode_of_no_row {w : Word} (h : ∀ r ∈ opcodeRows, opField w ≠ opField r.1) : decode w = .error .undefinedOpcode := by
  have hn : ∀ n ∈ opcodeRows.map (fun r => (opField r.1).toNat), (opField w).toNat ≠ n := by
    intro n hn
    obtain ⟨r, hr, rfl⟩ := List.mem_map.mp hn
    exact fun he => h r hr (BitVec.eq_of_toNat_eq he)
  unfold decode decodeFields
  split
  case h_37 => rfl
  all_goals exact absurd ‹(opField w).toNat = _› (hn _ (by decide))

/-- Every mask of the table keeps the opcode. -/
theorem opField_mask {r : Word × Word} (hr : r ∈ opcodeRows) : opField r.2 = 255#8 := by
  have h : opcodeRows.all (fun r => opField r.2 == 255#8) = true := by decide
  exact beq_iff_eq.mp (List.all_eq_true.mp h r hr)

theorem opField_of_match {r : Word × Word} (hr : r ∈ opcodeRows) {w : Word} (hm : w &&& r.2 = r.1) : opField w = opField r.1 := by
  rw [← hm, opField_and, opField_mask hr, byte_and_ones]

/-- Everything the decoder can do, and what the table says of each. -/
theorem decode_cases (w : Word) :
    (decode w = .error .undefinedOpcode ∧ ∀ r ∈ opcodeRows, opField w ≠ opField r.1) ∨
    (decode w = .error .unusedFieldNonZero ∧ ∃ r ∈ opcodeRows, opField w = opField r.1 ∧ w &&& r.2 ≠ r.1) ∨
    ∃ i, decode w = .ok i ∧ (i.wellFormed = true ∧ encode i = w) ∧ ∃ r ∈ opcodeRows, w &&& r.2 = r.1 := by
  by_cases h : ∃ r ∈ opcodeRows, opField w = opField r.1
  · obtain ⟨r, hr, ho⟩ := h
    have hd := decode_of_row hr ho
    unfold ReadsAs at hd
    split at hd
    next hm =>
      obtain ⟨i, hi, hw⟩ := hd
      exact .inr (.inr ⟨i, hi, hw, r, hr, hm⟩)
    next hm => exact .inr (.inl ⟨hd, r, hr, ho, hm⟩)
  · have hno : ∀ r ∈ opcodeRows, opField w ≠ opField r.1 := fun r hr ho => h ⟨r, hr, ho⟩
    exact .inl ⟨decode_of_no_row hno, hno⟩

theorem decode_ok_of_match {r : Word × Word} (hr : r ∈ opcodeRows) {w : Word} (hm : w &&& r.2 = r.1) : ∃ i, decode w = .ok i := by
  have hd := decode_of_row hr (opField_of_match hr hm)
  rw [ReadsAs, if_pos hm] at hd
  obtain ⟨i, hi, -⟩ := hd
  exact ⟨i, hi⟩

theorem decode_error_of_mismatch {r : Word × Word} (hr : r ∈ opcodeRows) {w : Word} (ho : opField w = opField r.1)
    (hm : w &&& r.2 ≠ r.1) : decode w = .error .unusedFieldNonZero := by
  have hd := decode_of_row hr ho
  rwa [ReadsAs, if_neg hm] at hd

/-- The last case of `decode_cases` is the only one that gives a command. -/
theorem decode_ok {w : Word} {i : Instr} (hi : decode w = .ok i) :
    (i.wellFormed = true ∧ encode i = w) ∧ ∃ r ∈ opcodeRows, w &&& r.2 = r.1 := by
  rcases decode_cases w with ⟨h, -⟩ | ⟨h, -⟩ | ⟨j, h, hj⟩ <;> rw [hi] at h <;> cases h
  exact hj

/-- Settles O2: `decode_ok`. -/
theorem encodeOfDecodeIsTheWord : Obligations.EncodeOfDecodeIsTheWord := by
  unfold Obligations.EncodeOfDecodeIsTheWord
  exact fun w i hi => (decode_ok hi).1

/-- Settles O4: from the decoder's answer to the table by `decode_cases`; back by `decode_ok_of_match`, `decode_of_no_row` and
`decode_error_of_mismatch`. -/
theorem decoderAcceptsExactlyTheOpcodeTable : Obligations.DecoderAcceptsExactlyTheOpcodeTable := by
  unfold Obligations.DecoderAcceptsExactlyTheOpcodeTable
  refine fun w => ⟨⟨fun ⟨i, hi⟩ => (decode_ok hi).2, fun ⟨r, hr, hm⟩ => decode_ok_of_match hr hm⟩,
    ⟨fun h => ?_, decode_of_no_row⟩, ⟨fun h => ?_, fun ⟨r, hr, ho, hm⟩ => decode_error_of_mismatch hr ho hm⟩⟩
  · rcases decode_cases w with ⟨-, hno⟩ | ⟨h', -⟩ | ⟨i, h', -⟩
    · exact hno
    · simp [h] at h'
    · simp [h] at h'
  · rcases decode_cases w with ⟨h', -⟩ | ⟨-, hrow⟩ | ⟨i, h', -⟩
    · simp [h] at h'
    · exact hrow
    · simp [h] at h'

end Sys2Proof
end

section
/-! A step on a command word (30_encoding.md R70, R76, R77), and sixteen words of the spec (95_test_vectors.md V-ENC). -/

namespace Sys2Proof.Machine

/-- Settles O3: `decode` evaluated on each word. -/
theorem wordsOfTheSpecDecode : Obligations.WordsOfTheSpecDecode := by
  unfold Obligations.WordsOfTheSpecDecode
  decide

/-- A command word that decodes is run, from the state without it. -/
theorem step_of_decode_ok {s : State} {w : Word} {es : List HostEvent} {i : Instr} (hin : s.inbox = .command w :: es)
    (hi : decode w = .ok i) : step s = exec i (s.withInbox es) := by
  simp only [step, State.nextEvent, hin, hi]

/-- A word that is no command faults, whichever check it fails. -/
theorem step_of_decode_error {s : State} {w : Word} {es : List HostEvent} {r : Reject} (hin : s.inbox = .command w :: es)
    (hr : decode w = .error r) : step s = .next ((s.withInbox es).takeFault .badCommand) := by
  simp only [step, State.nextEvent, hin, hr, rejectCommand_eq, raise]

/-- Settles O5: `step_of_decode_ok`. -/
theorem stepRunsTheDecodedCommand : Obligations.StepRunsTheDecodedCommand := by
  unfold Obligations.StepRunsTheDecodedCommand
  exact fun _ _ _ _ hin hi => step_of_decode_ok hin hi

/-- Settles O6: the opcode table says which words the decoder rejects. -/
theorem wordThatIsNoCommandFaults : Obligations.WordThatIsNoCommandFaults := by
  unfold Obligations.WordThatIsNoCommandFaults
  exact fun s w es hin => ⟨fun hno => step_of_decode_error hin (decode_of_no_row hno),
    fun ⟨r, hr, ho, hm⟩ => step_of_decode_error hin (decode_error_of_mismatch hr ho hm),
    fun ⟨r, hr, hm⟩ => decode_ok_of_match hr hm⟩

end Sys2Proof.Machine
end

section
/-! The response word, and the sequencing table (30_encoding.md R72, R84). -/

namespace Sys2Proof.Machine

@[simp] theorem aField_okWord (v : Half) : aField (okWord v) = 0 := aField_packWord 0 0 v
@[simp] theorem aField_faultWord (f : FaultCode) : aField (faultWord f) = 0 := aField_packWord f.code 0 0

/-- Settles O11: by the two ways a command ends. -/
theorem responseHasItsThreeFields : Obligations.ResponseHasItsThreeFields := by
  unfold Obligations.ResponseHasItsThreeFields
  intro i s
  rcases exec_covers i s with ⟨f, hx⟩ | ⟨u, v, hu, hx⟩
  · refine ⟨s.takeFault f, faultWord f, hx, rfl, rfl, rfl, aField_faultWord f, .inr ⟨?_, vField_faultWord f, f, hx, ?_⟩⟩
    · rw [opField_faultWord]
      exact f.code_ne_zero
    · exact opField_faultWord f
  · obtain ⟨hout, hin, hcfg, -⟩ := effect_frame hu
    refine ⟨u.reply (okWord v), okWord v, hx, ?_, hin, hcfg, aField_okWord v, .inl ⟨opField_okWord v, u, v, hx, vField_okWord v⟩⟩
    rw [State.reply_outbox, hout]

-- Which command is legal when.

theorem inPerm_false_iff {s : State} : (s.inMode .perm = true ∧ ¬s.seq.inGroup = true) ↔ InPerm s false := by
  rw [inMode_iff, Bool.not_eq_true, InPerm]

theorem inPerm_true_iff {s : State} : (s.inMode .perm = true ∧ s.seq.inGroup = true) ↔ InPerm s true := by
  rw [inMode_iff, InPerm]

/-- Every meaning but STAT's begins with the check of its legality, `c`. -/
theorem faults_of_check {i : Instr} {s : State} {c : Prop} [Decidable c] {r : Result}
    (he : exec i s = if ¬c then raise .badCommand s else r) (hc : c ↔ Legal i s) (h : ¬Legal i s) : Faults i s .badCommand := by
  rw [Faults, he, if_pos (mt hc.mp h), raise]

/-- A command R84's table does not have as legal faults BadCommand. -/
theorem faults_of_not_legal {i : Instr} {s : State} (h : ¬Legal i s) : Faults i s .badCommand := by
  cases i
  case stat => exact absurd trivial h
  case alphaBegin => exact faults_of_check rfl (by rw [inMode_iff, Bool.not_eq_true, Legal]) h
  case alphaSym | alphaEnd | insName | insEnd | setSym | setEnd => exact faults_of_check rfl inMode_iff h
  case alphaSize | alphaTochar | alphaToint | alphaHas | bldBegin | permuteIdx | invertIdx | permuteSym | invertSym | deranged |
      rotKind | rotGet | rotSetIdx | rotSetSym | rotFwd | rotBwd | rotAdv | rotAtnotch | insBegin =>
    exact faults_of_check rfl ready_iff h
  case bldNotch => exact faults_of_check rfl (by rw [← and_assoc, inPerm_false_iff, Legal, plugTarget]) h
  case cycOpen | bldEnd => exact faults_of_check rfl inPerm_false_iff h
  case cycSym | cycClose => exact faults_of_check rfl inPerm_true_iff h
  case setBegin | convIdx | convSym | slotGet => exact faults_of_check rfl readyInserted_iff h

/-- A command that has its effect was legal. -/
theorem legal_of_effect {i : Instr} {s u : State} {v : Half} (h : Effect i s u v) : Legal i s := by
  cases i <;> simp only [Effect] at h
  case stat => trivial
  case alphaBegin | setBegin | convIdx | convSym | slotGet =>
    obtain ⟨h1, h2, -⟩ := h
    exact ⟨h1, h2⟩
  case bldNotch =>
    obtain ⟨hperm, htarget, hkind, -⟩ := h
    exact ⟨hperm, htarget, hkind⟩
  all_goals
    obtain ⟨hl, -⟩ := h
    exact hl

/-- The mode a command's effect leaves. -/
theorem effect_mode {i : Instr} {s u : State} {v : Half} (h : Effect i s u v) : u.seq.mode = nextMode i s.seq.mode := by
  cases i <;> simp only [Effect] at h
  case stat => obtain ⟨rfl, -⟩ := h; rfl
  case alphaSize | alphaToint | alphaHas | cycOpen | cycClose | permuteIdx | invertIdx | permuteSym | invertSym |
      deranged | insBegin =>
    obtain ⟨-, rfl, -⟩ := h; rfl
  case alphaBegin | alphaEnd | rotKind | rotGet | rotFwd | rotBwd | rotAdv | rotAtnotch | setBegin | setEnd | convIdx | convSym =>
    obtain ⟨-, -, rfl, -⟩ := h; rfl
  case alphaTochar | insEnd | slotGet => obtain ⟨-, -, -, rfl, -⟩ := h; rfl
  case alphaSym | insName => obtain ⟨-, -, -, -, rfl, -⟩ := h; rfl
  case rotSetIdx => obtain ⟨-, -, -, -, -, rfl, -⟩ := h; rfl
  case cycSym => obtain ⟨-, -, j, -, -, rfl⟩ := h; exact addToGroup_mode s.seq j
  case rotSetSym | setSym => obtain ⟨-, -, -, j, -, -, rfl⟩ := h; rfl
  case bldNotch => obtain ⟨-, -, -, -, j, -, rfl⟩ := h; rfl
  case bldBegin => obtain ⟨-, -, ⟨-, -, rfl⟩ | ⟨-, -, -, kind, -, rfl⟩⟩ := h <;> rfl
  case bldEnd => obtain ⟨-, -, -, ⟨-, rfl⟩ | ⟨-, rfl⟩⟩ := h <;> rfl

/-- Settles O14: an answered command had its effect, and the fault entry leaves IDLE. -/
theorem sequencingIsTheTableOfModes : Obligations.SequencingIsTheTableOfModes := by
  unfold Obligations.SequencingIsTheTableOfModes
  refine ⟨fun i s h => faults_of_not_legal h, fun i s t v h => ?_, fun i s t f hf h => ?_⟩
  · have he := effect_of_answers h
    exact ⟨legal_of_effect he, effect_mode he⟩
  · rw [Faults, h] at hf
    cases hf
    rfl

end Sys2Proof.Machine
end

section
/-! The word of a command given by its fields (30_encoding.md R71, R74): for every statement about a command's words. -/

namespace Sys2Proof

open Sys2Proof.Machine

/-- A word that encodes a command decodes to it. -/
theorem decode_of_encode {i : Instr} {w : Word} (he : encode i = w) (hi : i.wellFormed = true) : decode w = .ok i :=
  he ▸ decodeOfEncodeIsTheCommand i hi

/-- The spec's sext_16 is the decoder's (00_scope.md R14). -/
theorem signed16_eq_sext16 (v : Half) : signed16 v = sext16 v := by
  rw [signed16, sext16, BitVec.toInt_eq_toNat_cond]
  split_ifs <;> omega

theorem indexFits_signed16 (v : Half) : indexFits (signed16 v) = true := by
  rw [signed16_eq_sext16, indexFits_sext16]

@[simp] theorem field16_signed16 (v : Half) : field16 (signed16 v) = v := by
  rw [signed16_eq_sext16, field16_sext16]

end Sys2Proof
end

section
/-! The alphabet commands (40_alphabet.md): what each gives once it is legal; where it is not, `faults_of_not_legal` says so. -/

namespace Sys2Proof.Machine

-- A command past its check of legality.

/-- A legal command's meaning is what follows the check of its legality, `c`. -/
theorem exec_of_check {i : Instr} {s : State} {c : Prop} [Decidable c] {r : Result}
    (he : exec i s = if ¬c then raise .badCommand s else r) (hc : c) : exec i s = r :=
  he.trans (if_neg (not_not.mpr hc))

/-- A fault of a command leaves the fault entry. -/
theorem eq_takeFault_of_faults {i : Instr} {s t : State} {f : FaultCode} (hf : Faults i s f) (h : exec i s = .next t) :
    t = s.takeFault f := by
  rw [Faults, h] at hf
  cases hf
  rfl

-- The search and the read.

/-- Settles O50: an index is the index of its symbol where symbols differ, and `toInt?_eq_some` reads back the symbol. -/
theorem symbolsAndIndicesAreInverse : Obligations.SymbolsAndIndicesAreInverse := by
  unfold Obligations.SymbolsAndIndicesAreInverse
  refine fun s hI => ⟨fun i hi => ⟨toInt?_eq_some.mpr (isIndexOf_of_differ hI.symDiffer hi), contains_iff.mpr ⟨i, hi, rfl⟩⟩,
    fun c hc => ?_⟩
  obtain ⟨i, hi⟩ := Option.isSome_iff_exists.mp hc
  obtain ⟨-, hsym, -⟩ := toInt?_eq_some.mp hi
  exact ⟨i, hi, hsym⟩

theorem answers_alphaSize {s : State} (h : Ready s) : Answers .alphaSize s s (valOfNat s.alpha.n) :=
  exec_of_check rfl (ready_iff.mpr h)

theorem answers_alphaTochar {s : State} {x : Int} (h : Ready s) (h0 : 0 ≤ x) (hn : x < s.alpha.n) :
    Answers (.alphaTochar x) s s (s.alpha.symAt x.toNat) :=
  (exec_of_check rfl (ready_iff.mpr h)).trans (if_neg (by omega))

theorem faults_alphaTochar {s : State} {x : Int} (h : Ready s) (hx : x < 0 ∨ s.alpha.n ≤ x) :
    Faults (.alphaTochar x) s .outOfRange :=
  (exec_of_check rfl (ready_iff.mpr h)).trans (if_pos hx)

theorem answers_alphaToint {s : State} {c : Sym} {i : Nat} (h : Ready s) (hi : IsIndexOf s.alpha c i) :
    Answers (.alphaToint c) s s (valOfNat i) := by
  refine (exec_of_check rfl (ready_iff.mpr h)).trans ?_
  rw [toInt?_eq_some.mpr hi]
  rfl

theorem faults_alphaToint {s : State} {c : Sym} (h : Ready s) (hc : ¬HasSym s.alpha c) :
    Faults (.alphaToint c) s .notInAlphabet := by
  refine (exec_of_check rfl (ready_iff.mpr h)).trans ?_
  rw [toInt?_eq_none.mpr hc]
  rfl

theorem answers_alphaHas {s : State} (c : Sym) (h : Ready s) :
    Answers (.alphaHas c) s s (valOfBool (s.alpha.contains c)) :=
  exec_of_check rfl (ready_iff.mpr h)

/-- Settles O24: the answers above, and the fault of a command that is not legal. -/
theorem alphabetSizeAndSymbolAreRead : Obligations.AlphabetSizeAndSymbolAreRead := by
  unfold Obligations.AlphabetSizeAndSymbolAreRead
  refine ⟨fun s => ⟨answers_alphaSize, fun h => faults_of_not_legal h⟩,
    fun s x => ⟨answers_alphaTochar, faults_alphaTochar, fun h => faults_of_not_legal h⟩, ?_, fun v => ?_⟩
  · exact decode_of_encode (by decide) rfl
  · exact decode_of_encode (by rw [encode, field16_signed16]; rfl) (indexFits_signed16 v)

/-- Settles O25: `contains_iff` says which of its two answers ALPHA_HAS gives. -/
theorem alphabetIsSearched : Obligations.AlphabetIsSearched := by
  unfold Obligations.AlphabetIsSearched
  refine ⟨fun s c => ⟨fun i => answers_alphaToint, faults_alphaToint, fun h => faults_of_not_legal h, fun h hc => ?_,
    fun h hc => ?_, fun h => faults_of_not_legal h⟩, fun c => ⟨decode_of_encode rfl rfl, decode_of_encode rfl rfl⟩⟩
  · simpa [valOfBool, contains_iff, hc] using answers_alphaHas c h
  · simpa [valOfBool, contains_iff, hc] using answers_alphaHas c h

-- The alphabet sequence.

theorem answers_alphaBegin {s : State} (hm : s.seq.mode = .idle) (hs : s.alpha.isSealed = false) :
    Answers .alphaBegin s ((s.withAlpha { s.alpha with n := 0 }).withMode .alpha) 0 :=
  exec_of_check rfl ⟨inMode_iff.mpr hm, Bool.eq_false_iff.mp hs⟩

theorem answers_alphaEnd {s : State} (hm : s.seq.mode = .alpha) (hn : s.alpha.n ≠ 0) :
    Answers .alphaEnd s ((s.withAlpha { s.alpha with isSealed := true }).withMode .idle) 0 :=
  (exec_of_check rfl (inMode_iff.mpr hm)).trans (if_neg hn)

theorem faults_alphaEnd {s : State} (hm : s.seq.mode = .alpha) (hn : s.alpha.n = 0) :
    Faults .alphaEnd s .invalidAlphabet :=
  (exec_of_check rfl (inMode_iff.mpr hm)).trans (if_pos hn)

/-- Settles O22: the two commands' answers, and the fault of a command that is not legal. -/
theorem alphabetOpensAndSeals : Obligations.AlphabetOpensAndSeals := by
  unfold Obligations.AlphabetOpensAndSeals
  refine ⟨fun s => ⟨answers_alphaBegin, fun h => faults_of_not_legal h, answers_alphaEnd, faults_alphaEnd,
    fun h => faults_of_not_legal h⟩, ?_, ?_⟩
  · exact decode_of_encode (by decide) rfl
  · exact decode_of_encode (by decide) rfl

section
variable {s : State} {c : Sym}

/-- ALPHA_SYM's checks in the order of R102. -/
theorem faults_alphaSym_reserved (hm : s.seq.mode = .alpha) (hr : Reserved c) : Faults (.alphaSym c) s .invalidAlphabet :=
  (exec_of_check rfl (inMode_iff.mpr hm)).trans (if_pos (isReservedSym_iff.mpr hr))

theorem faults_alphaSym_duplicate (hm : s.seq.mode = .alpha) (hr : ¬Reserved c) (hc : HasSym s.alpha c) :
    Faults (.alphaSym c) s .invalidAlphabet :=
  (exec_of_check rfl (inMode_iff.mpr hm)).trans <| (if_neg (mt isReservedSym_iff.mp hr)).trans (if_pos (contains_iff.mpr hc))

theorem faults_alphaSym_full (hm : s.seq.mode = .alpha) (hr : ¬Reserved c) (hc : ¬HasSym s.alpha c)
    (hn : s.alpha.n = s.cfg.nmax) : Faults (.alphaSym c) s .capacityExceeded :=
  (exec_of_check rfl (inMode_iff.mpr hm)).trans <| (if_neg (mt isReservedSym_iff.mp hr)).trans <|
    (if_neg (mt contains_iff.mp hc)).trans (if_pos hn)

/-- The alphabet with one more symbol. -/
def Alphabet.snoc (a : Alphabet) (c : Sym) : Alphabet := { a with sym := Table.write symD a.sym a.n c, n := a.n + 1 }

theorem Alphabet.symAt_snoc (a : Alphabet) (c : Sym) (j : Nat) : (a.snoc c).symAt j = if j = a.n then c else a.symAt j :=
  Table.read_write ..

theorem answers_alphaSym (hm : s.seq.mode = .alpha) (hr : ¬Reserved c) (hc : ¬HasSym s.alpha c) (hn : s.alpha.n ≠ s.cfg.nmax) :
    Answers (.alphaSym c) s (s.withAlpha (s.alpha.snoc c)) 0 :=
  (exec_of_check rfl (inMode_iff.mpr hm)).trans <| (if_neg (mt isReservedSym_iff.mp hr)).trans <|
    (if_neg (mt contains_iff.mp hc)).trans (if_neg hn)

end

/-- Settles O23: one lemma per outcome of ALPHA_SYM; a fault in mode ALPHA clears `ALPHA.n` by the fault entry. -/
theorem alphabetTakesTheNextSymbol : Obligations.AlphabetTakesTheNextSymbol := by
  unfold Obligations.AlphabetTakesTheNextSymbol
  refine ⟨fun s c => ⟨fun h => faults_of_not_legal h, faults_alphaSym_reserved, faults_alphaSym_duplicate, faults_alphaSym_full,
    fun hm hr hc hn => ?_, fun hm f t hf h => ?_⟩, fun c => decode_of_encode rfl rfl⟩
  · refine ⟨_, answers_alphaSym hm hr hc hn, rfl, rfl, rfl, ?_, fun j hj => ?_⟩
    · exact (Alphabet.symAt_snoc ..).trans (if_pos rfl)
    · exact (Alphabet.symAt_snoc ..).trans (if_neg hj)
  · obtain rfl := eq_takeFault_of_faults hf h
    rw [State.takeFault_alpha, if_pos hm]
    exact ⟨rfl, rfl⟩

end Sys2Proof.Machine
end

section
/-! The lookup commands (41_permutation_lookup.md R121 to R126): what each gives once it is legal; where it is not, `faults_of_not_legal`
says so. -/

namespace Sys2Proof.Machine

-- Operands that name something, or nothing.

/-- A symbol operand of the alphabet: the meaning goes on with its index. -/
theorem onSymbol_of_isIndexOf {a : Alphabet} {c : Sym} {i : Nat} (h : IsIndexOf a c i) {r : Result} {k : Nat → Result} :
    (match a.toInt? c with | none => r | some j => k j) = k i := by
  rw [toInt?_eq_some.mpr h]

theorem onSymbol_of_not_hasSym {a : Alphabet} {c : Sym} (h : ¬HasSym a c) {r : Result} {k : Nat → Result} :
    (match a.toInt? c with | none => r | some j => k j) = r := by
  rw [toInt?_eq_none.mpr h]

section
variable {i : Instr} {s : State} {a : Nat} {k : Perm → Result}
  (he : exec i s = if ¬s.ready then raise .badCommand s
    else match s.target? a with | none => raise .unknownRotor s | some p => k p)

include he

/-- A lookup goes on with the permutation its target names. -/
theorem exec_lookup (hr : Ready s) {p : Perm} (hp : Names s a p) : exec i s = k p := by
  rw [exec_of_check he (ready_iff.mpr hr), target?_eq_some.mpr hp]

theorem faults_lookup (hr : Ready s) (hn : ∀ p, ¬Names s a p) : Faults i s .unknownRotor := by
  rw [Faults, exec_of_check he (ready_iff.mpr hr), target?_eq_none.mpr hn, raise]

end

section
variable {s : State} {a : Nat} {p : Perm}

/-- A lookup that answers a value read off its target's permutation. -/
theorem answers_lookup {i : Instr} (v : Perm → Half)
    (he : exec i s = if ¬s.ready then raise .badCommand s
      else match s.target? a with | none => raise .unknownRotor s | some q => respond (v q) s)
    (hr : Ready s) (hp : Names s a p) : Answers i s s (v p) :=
  exec_lookup he hr hp

-- By index.

theorem answers_permuteIdx (hr : Ready s) (hp : Names s a p) (x : Int) :
    Answers (.permuteIdx a x) s s (valOfNat (p.permute s.alpha.n x)) :=
  answers_lookup (fun q => valOfNat (q.permute s.alpha.n x)) rfl hr hp

theorem answers_invertIdx (hr : Ready s) (hp : Names s a p) (x : Int) :
    Answers (.invertIdx a x) s s (valOfNat (p.invert s.alpha.n x)) :=
  answers_lookup (fun q => valOfNat (q.invert s.alpha.n x)) rfl hr hp

-- By symbol.

theorem answers_permuteSym (hr : Ready s) (hp : Names s a p) {c : Sym} {i : Nat} (hi : IsIndexOf s.alpha c i) :
    Answers (.permuteSym a c) s s (s.alpha.symAt (p.permute s.alpha.n i)) :=
  (exec_lookup rfl hr hp).trans (onSymbol_of_isIndexOf hi)

theorem answers_invertSym (hr : Ready s) (hp : Names s a p) {c : Sym} {i : Nat} (hi : IsIndexOf s.alpha c i) :
    Answers (.invertSym a c) s s (s.alpha.symAt (p.invert s.alpha.n i)) :=
  (exec_lookup rfl hr hp).trans (onSymbol_of_isIndexOf hi)

theorem faults_permuteSym (hr : Ready s) (hp : Names s a p) {c : Sym} (hc : ¬HasSym s.alpha c) :
    Faults (.permuteSym a c) s .notInAlphabet :=
  (exec_lookup rfl hr hp).trans (onSymbol_of_not_hasSym hc)

theorem faults_invertSym (hr : Ready s) (hp : Names s a p) {c : Sym} (hc : ¬HasSym s.alpha c) :
    Faults (.invertSym a c) s .notInAlphabet :=
  (exec_lookup rfl hr hp).trans (onSymbol_of_not_hasSym hc)

-- The test.

theorem answers_deranged (hr : Ready s) (hp : Names s a p) :
    Answers (.deranged a) s s (valOfBool (p.derangement s.alpha.n)) :=
  answers_lookup (fun q => valOfBool (q.derangement s.alpha.n)) rfl hr hp

end

/-- Settles O31: `modN` is the index both lookups read at. -/
theorem lookupByIndexReducesAndReads : Obligations.LookupByIndexReducesAndReads := by
  unfold Obligations.LookupByIndexReducesAndReads
  refine ⟨fun s a x => ⟨fun p hr hn hp =>
      ⟨modN x s.alpha.n, isMod_modN x hn, answers_permuteIdx hr hp x, answers_invertIdx hr hp x⟩,
    fun hr hn => ⟨faults_lookup rfl hr hn, faults_lookup rfl hr hn⟩,
    fun h => ⟨faults_of_not_legal h, faults_of_not_legal h⟩⟩, fun a v => ⟨?_, ?_⟩⟩
  · exact decode_of_encode (by rw [encode, field8_toNat, field16_signed16]; rfl)
      (Bool.and_eq_true_iff.mpr ⟨targetFits_toNat a, indexFits_signed16 v⟩)
  · exact decode_of_encode (by rw [encode, field8_toNat, field16_signed16]; rfl)
      (Bool.and_eq_true_iff.mpr ⟨targetFits_toNat a, indexFits_signed16 v⟩)

/-- Settles O32: the index of a symbol is below N, so it is the index read at. -/
theorem lookupBySymbolAnswersASymbol : Obligations.LookupBySymbolAnswersASymbol := by
  unfold Obligations.LookupBySymbolAnswersASymbol
  refine ⟨fun s a c => ⟨fun p i hr hp hi => ?_,
    fun hr hn => ⟨faults_lookup rfl hr hn, faults_lookup rfl hr hn⟩,
    fun p hr hp hc => ⟨faults_permuteSym hr hp hc, faults_invertSym hr hp hc⟩,
    fun h => ⟨faults_of_not_legal h, faults_of_not_legal h⟩⟩, fun a c => ⟨?_, ?_⟩⟩
  · have hlt : i < s.alpha.n := hi.1
    have hforward := answers_permuteSym hr hp hi
    have hbackward := answers_invertSym hr hp hi
    rw [Perm.permute, modN_natCast hlt] at hforward
    rw [Perm.invert, modN_natCast hlt] at hbackward
    exact ⟨hforward, hbackward⟩
  · exact decode_of_encode (by rw [encode, field8_toNat]; rfl) (targetFits_toNat a)
  · exact decode_of_encode (by rw [encode, field8_toNat]; rfl) (targetFits_toNat a)

/-- Settles O33: `derangement_iff` says which of its two answers DERANGED gives. -/
theorem derangedAnswersTheTest : Obligations.DerangedAnswersTheTest := by
  unfold Obligations.DerangedAnswersTheTest
  refine ⟨fun s a => ⟨fun p hr hp hd => ?_, fun p hr hp ⟨i, hi, hfix⟩ => ?_, fun hr hn => faults_lookup rfl hr hn,
    fun h => faults_of_not_legal h⟩, fun a => ?_⟩
  · have htest : p.derangement s.alpha.n = true := derangement_iff.mpr hd
    simpa [valOfBool, htest] using answers_deranged hr hp
  · have htest : p.derangement s.alpha.n = false := Bool.eq_false_iff.mpr fun ht => derangement_iff.mp ht i hi hfix
    simpa [valOfBool, htest] using answers_deranged hr hp
  · exact decode_of_encode (by rw [encode, field8_toNat]; rfl) (targetFits_toNat a)

-- The round trips of a committed permutation.

theorem Perm.BijOn.invert_permute {n : Nat} {p : Perm} (h : p.BijOn n) (hn : 1 ≤ n) (x : Int) :
    p.invert n (p.permute n x) = modN x n := by
  obtain ⟨-, -, hback, -⟩ := h (modN x n) (modN_lt x hn)
  rw [Perm.invert, modN_natCast (h.permute_lt hn x)]
  exact hback

theorem Perm.BijOn.permute_invert {n : Nat} {p : Perm} (h : p.BijOn n) (hn : 1 ≤ n) (x : Int) :
    p.permute n (p.invert n x) = modN x n := by
  obtain ⟨-, -, -, hforth⟩ := h (modN x n) (modN_lt x hn)
  rw [Perm.permute, modN_natCast (h.invert_lt hn x)]
  exact hforth

theorem modN_add_self (x : Int) (n : Nat) : modN (x + n) n = modN x n := by
  rw [modN, Int.add_emod_right, modN]

/-- Settles O51: what a target names is a bijection below N by the invariant. -/
theorem lookupsUndoEachOther : Obligations.LookupsUndoEachOther := by
  unfold Obligations.LookupsUndoEachOther
  intro s a p hI hs hp x
  have hb := hI.bijOn_of_names hp
  have hn := hI.sealedSize hs
  exact ⟨hb.invert_permute hn x, hb.permute_invert hn x, congrArg p.fwdAt (modN_add_self x s.alpha.n)⟩

end Sys2Proof.Machine
end

section
/-! The construction commands (41_permutation_lookup.md R114 to R119): what each gives once it is legal; where it is not, `faults_of_not_legal` says
so. -/

namespace Sys2Proof.Machine

-- BLD_BEGIN.

theorem kindOf_iff {k : BitVec 2} {kind : Kind} : KindOf k kind ↔ Kind.ofField? k = some kind := by
  revert k
  unfold KindOf
  cases kind <;> decide

/-- Every kind code but the reserved one names a kind. -/
theorem exists_kindOf {k : BitVec 2} (hk : k ≠ 3) : ∃ kind, KindOf k kind := by
  obtain ⟨kind, hkind⟩ := Option.ne_none_iff_exists'.mp (mt Kind.ofField?_eq_none.mp hk)
  exact ⟨kind, kindOf_iff.mpr hkind⟩

section
variable {s : State} {a : Nat} {k : BitVec 2}

theorem faults_bldBegin_plug (hr : Ready s) (ha : a = 0xFF) (hk : k ≠ 0) : Faults (.bldBegin a k) s .badCommand :=
  (exec_of_check rfl (ready_iff.mpr hr)).trans <| (if_pos ha).trans (if_pos hk)

theorem answers_bldBegin_plug (hr : Ready s) (ha : a = 0xFF) (hk : k = 0) :
    Answers (.bldBegin a k) s (s.withSeq (s.seq.openPerm a .reflector)) 0 :=
  (exec_of_check rfl (ready_iff.mpr hr)).trans <| (if_pos ha).trans (if_neg (not_not.mpr hk))

theorem faults_bldBegin_kind (hr : Ready s) (ha : a ≠ 0xFF) (hk : k = 3) : Faults (.bldBegin a k) s .badCommand := by
  refine (exec_of_check rfl (ready_iff.mpr hr)).trans <| (if_neg ha).trans ?_
  rw [Kind.ofField?_eq_none.mpr hk]
  rfl

/-- BLD_BEGIN of an entry, once the kind is known. -/
theorem exec_bldBegin_entry (hr : Ready s) (ha : a ≠ 0xFF) {kind : Kind} (hk : KindOf k kind) :
    exec (.bldBegin a k) s =
      if s.cfg.cmax ≤ a then raise .capacityExceeded s
      else if (s.rotor a).valid then raise .badCommand s
      else respond 0 (s.withSeq (s.seq.openPerm a kind)) := by
  refine (exec_of_check rfl (ready_iff.mpr hr)).trans <| (if_neg ha).trans ?_
  rw [kindOf_iff.mp hk]

theorem faults_bldBegin_capacity (hr : Ready s) (ha : a ≠ 0xFF) (hk : k ≠ 3) (hc : s.cfg.cmax ≤ a) :
    Faults (.bldBegin a k) s .capacityExceeded := by
  obtain ⟨kind, hkind⟩ := exists_kindOf hk
  exact (exec_bldBegin_entry hr ha hkind).trans (if_pos hc)

theorem faults_bldBegin_defined (hr : Ready s) (ha : a ≠ 0xFF) (hk : k ≠ 3) (hc : a < s.cfg.cmax) (hv : (s.rotor a).valid = true) :
    Faults (.bldBegin a k) s .badCommand := by
  obtain ⟨kind, hkind⟩ := exists_kindOf hk
  exact (exec_bldBegin_entry hr ha hkind).trans <| (if_neg hc.not_ge).trans (if_pos hv)

theorem answers_bldBegin_entry (hr : Ready s) (ha : a ≠ 0xFF) {kind : Kind} (hk : KindOf k kind) (hc : a < s.cfg.cmax)
    (hv : (s.rotor a).valid = false) : Answers (.bldBegin a k) s (s.withSeq (s.seq.openPerm a kind)) 0 :=
  (exec_bldBegin_entry hr ha hk).trans <| (if_neg hc.not_ge).trans (if_neg (Bool.eq_false_iff.mp hv))

/-- A construction may begin for the plugboard, and for an entry that is not yet defined. -/
theorem answers_bldBegin (hr : Ready s)
    (h : (a = 0xFF ∧ k = 0) ∨ (a ≠ 0xFF ∧ k ≠ 3 ∧ a < s.cfg.cmax ∧ (s.rotor a).valid = false)) :
    ∃ kind, KindOf k kind ∧ Answers (.bldBegin a k) s (s.withSeq (s.seq.openPerm a kind)) 0 := by
  obtain ⟨ha, hk⟩ | ⟨ha, hk, hc, hv⟩ := h
  · exact ⟨.reflector, .inl ⟨hk, rfl⟩, answers_bldBegin_plug hr ha hk⟩
  · obtain ⟨kind, hkind⟩ := exists_kindOf hk
    exact ⟨kind, hkind, answers_bldBegin_entry hr ha hkind hc hv⟩

end

/-- Settles O26: one lemma per outcome of BLD_BEGIN; the tables `Seq.openPerm` leaves list nothing. -/
theorem constructionBegins : Obligations.ConstructionBegins := by
  unfold Obligations.ConstructionBegins
  refine ⟨fun s a k => ⟨fun h => faults_of_not_legal h, faults_bldBegin_plug, faults_bldBegin_kind, faults_bldBegin_capacity,
    faults_bldBegin_defined, fun hr h => ?_⟩, fun a k => ?_⟩
  · obtain ⟨kind, hkind, hx⟩ := answers_bldBegin hr h
    exact ⟨_, kind, hx, hkind, rfl, rfl, fun i _ => ⟨rfl, rfl, rfl, rfl⟩⟩
  · exact decode_of_encode (by rw [encode, field8_toNat]; rfl) (targetFits_toNat a)

-- BLD_NOTCH.

/-- A legal BLD_NOTCH goes on with the search for its symbol. -/
theorem exec_bldNotch {s : State} (c : Sym) (h : InPerm s false) (ht : s.seq.target ≠ 0xFF) (hk : s.seq.kind = .movingRotor) :
    exec (.bldNotch c) s = match s.alpha.toInt? c with
      | none => raise .notInAlphabet s
      | some i => respond 0 (s.withSeq { s.seq with notch := Table.write bitD s.seq.notch i true }) := by
  obtain ⟨hm, hg⟩ := inPerm_false_iff.mpr h
  exact exec_of_check rfl ⟨hm, hg, ht, hk⟩

theorem faults_bldNotch {s : State} {c : Sym} (h : InPerm s false) (ht : s.seq.target ≠ 0xFF) (hk : s.seq.kind = .movingRotor)
    (hc : ¬HasSym s.alpha c) : Faults (.bldNotch c) s .notInAlphabet :=
  (exec_bldNotch c h ht hk).trans (onSymbol_of_not_hasSym hc)

theorem answers_bldNotch {s : State} {c : Sym} {i : Nat} (h : InPerm s false) (ht : s.seq.target ≠ 0xFF)
    (hk : s.seq.kind = .movingRotor) (hi : IsIndexOf s.alpha c i) :
    Answers (.bldNotch c) s (s.withSeq { s.seq with notch := Table.write bitD s.seq.notch i true }) 0 :=
  (exec_bldNotch c h ht hk).trans (onSymbol_of_isIndexOf hi)

/-- Settles O27: one bit of the notch table is written. -/
theorem notchIsStaged : Obligations.NotchIsStaged := by
  unfold Obligations.NotchIsStaged
  refine ⟨fun s c => ⟨fun h => faults_of_not_legal h, faults_bldNotch, fun i h ht hk hi => ?_⟩, fun c => decode_of_encode rfl rfl⟩
  exact ⟨_, answers_bldNotch h ht hk hi, rfl, Table.read_write_self bitD s.seq.notch i true,
    fun j hj => Table.read_write_ne bitD s.seq.notch hj true⟩

-- CYC_OPEN and CYC_CLOSE.

theorem answers_cycOpen {s : State} (h : InPerm s false) :
    Answers .cycOpen s (s.withSeq { s.seq with inGroup := true, glen := 0 }) 0 :=
  exec_of_check rfl (inPerm_false_iff.mpr h)

theorem answers_cycClose {s : State} (h : InPerm s true) :
    Answers .cycClose s (s.withSeq { s.seq with perm := s.seq.closedPerm, inGroup := false }) 0 :=
  exec_of_check rfl (inPerm_true_iff.mpr h)

/-- Settles O28: `closedPerm_empty` and `closedPerm_at` say what closing a group does to the tables. -/
theorem groupOpensAndCloses : Obligations.GroupOpensAndCloses := by
  unfold Obligations.GroupOpensAndCloses
  refine ⟨fun s => ⟨answers_cycOpen, fun h => faults_of_not_legal h, fun h h0 => ?_, fun h h1 => ?_,
    fun h => faults_of_not_legal h⟩, ?_, ?_⟩
  · have hx := answers_cycClose h
    rwa [closedPerm_empty h0] at hx
  · have hclosed := closedPerm_at h1
    exact ⟨_, answers_cycClose h, rfl, (hclosed _).1.trans (if_pos rfl), (hclosed _).2.trans (if_pos rfl),
      fun j hj => (hclosed j).1.trans (if_neg hj), fun j hj => (hclosed j).2.trans (if_neg hj)⟩
  · exact decode_of_encode (by decide) rfl
  · exact decode_of_encode (by decide) rfl

-- CYC_SYM.

section
variable {s : State} {c : Sym} {i : Nat}

theorem faults_cycSym_absent (h : InPerm s true) (hc : ¬HasSym s.alpha c) : Faults (.cycSym c) s .malformedCycle :=
  (exec_of_check rfl (inPerm_true_iff.mpr h)).trans (onSymbol_of_not_hasSym hc)

theorem faults_cycSym_repeated (h : InPerm s true) (hi : IsIndexOf s.alpha c i) (hs : s.seq.seenAt i = true) :
    Faults (.cycSym c) s .malformedCycle :=
  (exec_of_check rfl (inPerm_true_iff.mpr h)).trans <| (onSymbol_of_isIndexOf hi).trans (if_pos hs)

theorem answers_cycSym (h : InPerm s true) (hi : IsIndexOf s.alpha c i) (hs : s.seq.seenAt i = false) :
    Answers (.cycSym c) s (s.withSeq (s.seq.addToGroup i)) 0 :=
  (exec_of_check rfl (inPerm_true_iff.mpr h)).trans <| (onSymbol_of_isIndexOf hi).trans (if_neg (Bool.eq_false_iff.mp hs))

end

/-- CYC_SYM writes five fields of the staging. -/
theorem addToGroup_eq (q : Seq) (i : Nat) :
    q.addToGroup i =
      { q with
        seen := (q.addToGroup i).seen, perm := (q.addToGroup i).perm, first := (q.addToGroup i).first, prev := i,
        glen := q.glen + 1 } := by
  unfold Seq.addToGroup
  split <;> rfl

/-- The first symbol of a group changes no table. -/
theorem addToGroup_perm_of_empty {q : Seq} (h : q.glen = 0) (i : Nat) : (q.addToGroup i).perm = q.perm := by
  rw [Seq.addToGroup, if_pos h]

/-- Settles O29: one lemma per outcome of CYC_SYM; `fwdAt_addToGroup` and `invAt_addToGroup` read the link it adds. -/
theorem groupTakesTheNextSymbol : Obligations.GroupTakesTheNextSymbol := by
  unfold Obligations.GroupTakesTheNextSymbol
  refine ⟨fun s c => ⟨fun h => faults_of_not_legal h, faults_cycSym_absent, fun i => faults_cycSym_repeated,
    fun i h hi hs => ⟨_, answers_cycSym h hi hs, ?_, ?_, fun j hj => ?_, fun h0 => ⟨?_, ?_⟩,
      fun h1 => ⟨?_, ?_, ?_, fun j hj => ?_, fun j hj => ?_⟩⟩⟩, fun c => decode_of_encode rfl rfl⟩
  · exact congrArg s.withSeq (addToGroup_eq s.seq i)
  · exact (seenAt_addToGroup ..).trans (if_pos rfl)
  · exact (seenAt_addToGroup ..).trans (if_neg hj)
  · exact (addToGroup_first ..).trans (if_pos h0)
  · exact addToGroup_perm_of_empty h0 i
  · exact (addToGroup_first ..).trans (if_neg h1)
  · exact (fwdAt_addToGroup ..).trans (if_pos ⟨h1, rfl⟩)
  · exact (invAt_addToGroup ..).trans (if_pos ⟨h1, rfl⟩)
  · exact (fwdAt_addToGroup ..).trans (if_neg fun e => hj e.2)
  · exact (invAt_addToGroup ..).trans (if_neg fun e => hj e.2)

-- BLD_END.

section
variable {s : State}

theorem faults_bldEnd (h : InPerm s false) (ht : s.seq.target ≠ 0xFF) (hk : s.seq.kind = .reflector)
    (hd : ¬s.seq.perm.DerangedOn s.alpha.n) : Faults .bldEnd s .reflectorNotDerangement :=
  (exec_of_check rfl (inPerm_false_iff.mpr h)).trans (if_pos ⟨ht, hk, mt derangement_iff.mp hd⟩)

/-- BLD_END past its derangement test, which is for a Reflector only. -/
theorem exec_bldEnd (h : InPerm s false)
    (hd : s.seq.target ≠ 0xFF → s.seq.kind = .reflector → s.seq.perm.DerangedOn s.alpha.n) :
    exec .bldEnd s =
      if s.seq.target = plugTarget then respond 0 ((s.withPlug (s.seq.perm.copyTo s.alpha.n s.plug)).withMode .idle)
      else respond 0 ((s.withRotor s.seq.target (s.seq.commitTo s.alpha.n (s.rotor s.seq.target))).withMode .idle) :=
  (exec_of_check rfl (inPerm_false_iff.mpr h)).trans (if_neg fun ⟨ht, hk, hn⟩ => hn (derangement_iff.mpr (hd ht hk)))

theorem answers_bldEnd_plug (h : InPerm s false) (ht : s.seq.target = 0xFF) :
    Answers .bldEnd s ((s.withPlug (s.seq.perm.copyTo s.alpha.n s.plug)).withMode .idle) 0 :=
  (exec_bldEnd h fun hn => absurd ht hn).trans (if_pos ht)

theorem answers_bldEnd_entry (h : InPerm s false) (ht : s.seq.target ≠ 0xFF)
    (hd : s.seq.kind = .reflector → s.seq.perm.DerangedOn s.alpha.n) :
    Answers .bldEnd s ((s.withRotor s.seq.target (s.seq.commitTo s.alpha.n (s.rotor s.seq.target))).withMode .idle) 0 :=
  (exec_bldEnd h fun _ => hd).trans (if_neg ht)

end

theorem Perm.copyTo_at_lt (src dst : Perm) {n i : Nat} (hi : i < n) :
    (src.copyTo n dst).fwdAt i = src.fwdAt i ∧ (src.copyTo n dst).invAt i = src.invAt i := by simp [hi]

theorem Perm.copyTo_at_ge (src dst : Perm) {n i : Nat} (hi : n ≤ i) :
    (src.copyTo n dst).fwdAt i = dst.fwdAt i ∧ (src.copyTo n dst).invAt i = dst.invAt i := by simp [hi.not_gt]

theorem Seq.notchAt_commitTo (q : Seq) (n : Nat) (old : Rotor) (i : Nat) :
    (q.commitTo n old).notchAt i = if i < n then q.notchAt i else old.notchAt i :=
  Table.read_copyTo ..

/-- Settles O30: a commit reads as the staging below N and as what it replaces from N on. -/
theorem constructionCommits : Obligations.ConstructionCommits := by
  unfold Obligations.ConstructionCommits
  refine ⟨fun s => ⟨fun h => faults_of_not_legal h, faults_bldEnd, fun h ht => ⟨_, answers_bldEnd_plug h ht, rfl, ?_, ?_⟩,
    fun h ht hd => ⟨_, answers_bldEnd_entry h ht hd, rfl, ?_⟩⟩, ?_⟩
  · exact fun i hi => Perm.copyTo_at_lt s.seq.perm s.plug hi
  · exact fun i hi => Perm.copyTo_at_ge s.seq.perm s.plug hi
  · simp only [rotor_withMode, rotor_withRotor, if_true]
    refine ⟨rfl, rfl, rfl, fun i hi => ?_, fun i hi => ?_, fun c hc => if_neg hc⟩
    · obtain ⟨hfwd, hinv⟩ := Perm.copyTo_at_lt s.seq.perm (s.rotor s.seq.target).wiring hi
      exact ⟨hfwd, hinv, (Seq.notchAt_commitTo ..).trans (if_pos hi)⟩
    · obtain ⟨hfwd, hinv⟩ := Perm.copyTo_at_ge s.seq.perm (s.rotor s.seq.target).wiring hi
      exact ⟨hfwd, hinv, (Seq.notchAt_commitTo ..).trans (if_neg hi.not_gt)⟩
  · exact decode_of_encode (by decide) rfl

end Sys2Proof.Machine
end

section
/-! Cycle specifications (41_permutation_lookup.md R110, R120): the permutation a list of groups denotes is the product of their cycles, and every
command of the construction keeps the staging equal to it. -/

namespace Sys2Proof.Machine

-- Sequences of commands.

theorem allOk_single {i : Instr} {s u : State} (h : Answers i s u 0) : AllOk [i] s (u.reply (okWord 0)) := ⟨u, h, rfl⟩

theorem allOk_append {is js : List Instr} {s t u : State} (h : AllOk is s t) (h' : AllOk js t u) : AllOk (is ++ js) s u := by
  induction is generalizing s with
  | nil => exact h ▸ h'
  | cons i is ih =>
    obtain ⟨v, hv, hvt⟩ := h
    exact ⟨v, hv, ih hvt⟩

-- The permutation of a list of groups.

/-- The permutation that maps each symbol of a group to the next, the last to the first (41_permutation_lookup.md R110). -/
def cyclesPerm (gs : List (List Nat)) : Equiv.Perm Nat := (gs.map List.formPerm).prod

theorem cyclesPerm_append (gs hs : List (List Nat)) : cyclesPerm (gs ++ hs) = cyclesPerm gs * cyclesPerm hs := by
  simp [cyclesPerm]

theorem cyclesPerm_singleton (g : List Nat) : cyclesPerm [g] = g.formPerm := by simp [cyclesPerm]

theorem cyclesPerm_cons (g : List Nat) (gs : List (List Nat)) : cyclesPerm (g :: gs) = g.formPerm * cyclesPerm gs := by
  simp [cyclesPerm]

theorem cyclesPerm_of_notMem {gs : List (List Nat)} {i : Nat} (h : i ∉ gs.flatten) : cyclesPerm gs i = i := by
  induction gs with
  | nil => rfl
  | cons g gs ih =>
    rw [List.flatten_cons, List.mem_append, not_or] at h
    rw [cyclesPerm_cons, Equiv.Perm.mul_apply, ih h.2, List.formPerm_apply_of_notMem h.1]

/-- The groups are disjoint, so each moves its own symbols. -/
theorem cyclesPerm_of_mem {gs : List (List Nat)} (hd : gs.flatten.Nodup) {g : List Nat} (hg : g ∈ gs) {i : Nat} (hi : i ∈ g) :
    cyclesPerm gs i = g.formPerm i := by
  obtain ⟨pre, post, rfl⟩ := List.append_of_mem hg
  simp only [List.flatten_append, List.flatten_cons, List.nodup_append', List.disjoint_append_right] at hd
  obtain ⟨-, ⟨-, -, hpost⟩, hpre, -⟩ := hd
  rw [cyclesPerm_append, cyclesPerm_cons, Equiv.Perm.mul_apply, Equiv.Perm.mul_apply, cyclesPerm_of_notMem (hpost hi),
    cyclesPerm_of_notMem fun hmem => hpre hmem (List.formPerm_apply_mem_of_mem hi)]

theorem cyclesPerm_getD {gs : List (List Nat)} (hd : gs.flatten.Nodup) {g : List Nat} (hg : g ∈ gs) {j : Nat} (hj : j < g.length) :
    cyclesPerm gs (g.getD j 0) = g.getD ((j + 1) % g.length) 0 := by
  have hnext : (j + 1) % g.length < g.length := Nat.mod_lt _ (by omega)
  rw [List.getD_eq_getElem g 0 hj, List.getD_eq_getElem g 0 hnext, cyclesPerm_of_mem hd hg (List.getElem_mem hj)]
  exact List.formPerm_apply_getElem g ((List.nodup_flatten.mp hd).1 g hg) j hj

/-- The first symbol of a group moves nothing. -/
theorem cyclesPerm_first (gs : List (List Nat)) (i : Nat) : cyclesPerm (gs ++ [[i]]) = cyclesPerm (gs ++ [[]]) := by
  simp [cyclesPerm]

/-- A symbol after the last one `p` of a group: `p` maps to it, and it to where `p` mapped. -/
theorem cyclesPerm_snoc (gs : List (List Nat)) (l : List Nat) (p i : Nat) :
    cyclesPerm (gs ++ [l ++ [p] ++ [i]]) = cyclesPerm (gs ++ [l ++ [p]]) * Equiv.swap p i := by
  rw [cyclesPerm_append, cyclesPerm_append, cyclesPerm_singleton, cyclesPerm_singleton, List.append_assoc, mul_assoc]
  exact congrArg _ (List.formPerm_append_pair l p i)

-- The same of the staged permutation, its open group closed.

/-- The first symbol of a group alone is mapped to itself. -/
theorem closedPerm_addToGroup_first {q : Seq} (h0 : q.glen = 0) {i : Nat} (hi : q.closedPerm.fwdAt i = i) (k : Nat) :
    (q.addToGroup i).closedPerm.fwdAt k = q.closedPerm.fwdAt k := by
  rw [closedPerm_empty h0] at hi ⊢
  rw [(closedPerm_at (by simp) k).1, addToGroup_prev, addToGroup_first, if_pos h0, addToGroup_perm_of_empty h0]
  split
  · next hk => rw [hk, hi]
  · rfl

/-- A later symbol is put between the last one and its image. -/
theorem closedPerm_addToGroup_next {q : Seq} (h1 : 1 ≤ q.glen) {i : Nat} (hi : q.closedPerm.fwdAt i = i) (hp : i ≠ q.prev)
    (k : Nat) : (q.addToGroup i).closedPerm.fwdAt k = q.closedPerm.fwdAt (Equiv.swap q.prev i k) := by
  have h0 : ¬q.glen = 0 := by omega
  have hprev : q.closedPerm.fwdAt q.prev = q.first := (closedPerm_at h1 _).1.trans (if_pos rfl)
  rw [(closedPerm_at (by simp) k).1, addToGroup_prev, addToGroup_first, if_neg h0, fwdAt_addToGroup]
  rcases eq_or_ne k i with rfl | hki
  · rw [if_pos rfl, Equiv.swap_apply_right, hprev]
  rw [if_neg hki]
  rcases eq_or_ne k q.prev with rfl | hkp
  · rw [if_pos ⟨h0, rfl⟩, Equiv.swap_apply_left, hi]
  · rw [if_neg fun e => hkp e.2, Equiv.swap_apply_of_ne_of_ne hkp hki, (closedPerm_at h1 k).1, if_neg hkp]

-- The staging while it is built.

/-- The state `t` inside the construction that `s` began for the target `a`: the groups `gs` are staged, the last of them
still open or not. -/
structure Building (s : State) (a : Nat) (gs : List (List Nat)) (isOpen : Bool) (t : State) : Prop where
  inv : Inv t
  frame : t = { s with seq := t.seq, outbox := t.outbox }
  mode : t.seq.mode = .perm
  inGroup : t.seq.inGroup = isOpen
  target : t.seq.target = a
  fwd : ∀ i, (if isOpen then t.seq.closedPerm else t.seq.perm).fwdAt i = cyclesPerm gs i
  seen : ∀ i, t.seq.seenAt i = true ↔ i ∈ gs.flatten

/-- The same with the open group's own fields: `g` is what it has so far. -/
structure BuildingGroup (s : State) (a : Nat) (gs : List (List Nat)) (g : List Nat) (t : State) : Prop
    extends Building s a (gs ++ [g]) true t where
  glen : t.seq.glen = g.length
  prev : ∀ h : g ≠ [], t.seq.prev = g.getLast h

theorem frame_withSeq {s t : State} (h : t = { s with seq := t.seq, outbox := t.outbox }) (q : Seq) (ws : List Word) :
    ({ t with seq := q, outbox := ws } : State) = { s with seq := q, outbox := ws } := by
  rw [h]

section
variable {s t : State} {a : Nat} {gs : List (List Nat)} {b : Bool}

theorem Building.inPerm (h : Building s a gs b t) : InPerm t b := ⟨h.mode, h.inGroup⟩

theorem Building.alpha (h : Building s a gs b t) : t.alpha = s.alpha := by rw [h.frame]

/-- A command of the construction is answered with a new staging: the rest follows from what the staging is. -/
theorem Building.of_answers {i : Instr} {q : Seq} (hI : Inv t)
    (hf : t = { s with seq := t.seq, outbox := t.outbox }) (hx : Answers i t (t.withSeq q) 0) (hm : q.mode = .perm)
    (hg : q.inGroup = b) (ht : q.target = a) (hfwd : ∀ k, (if b then q.closedPerm else q.perm).fwdAt k = cyclesPerm gs k)
    (hseen : ∀ k, q.seenAt k = true ↔ k ∈ gs.flatten) : Building s a gs b ((t.withSeq q).reply (okWord 0)) where
  inv := hI.exec hx
  frame := frame_withSeq hf q _
  mode := hm
  inGroup := hg
  target := ht
  fwd := hfwd
  seen := hseen

end

theorem Building.begin {s : State} {a : Nat} {k : BitVec 2} {kind : Kind} (hI : Inv s)
    (hx : Answers (.bldBegin a k) s (s.withSeq (s.seq.openPerm a kind)) 0) :
    Building s a [] false ((s.withSeq (s.seq.openPerm a kind)).reply (okWord 0)) :=
  .of_answers hI rfl hx rfl rfl rfl (fun _ => rfl) fun _ => ⟨nofun, nofun⟩

section
variable {s t : State} {a : Nat} {gs : List (List Nat)}

theorem Building.openGroup (h : Building s a gs false t) :
    ∃ u, Answers .cycOpen t u 0 ∧ BuildingGroup s a gs [] (u.reply (okWord 0)) := by
  have hx := answers_cycOpen h.inPerm
  refine ⟨_, hx, .of_answers h.inv h.frame hx h.mode rfl h.target (fun k => ?_) (fun k => ?_), rfl, fun hne => absurd rfl hne⟩
  · rw [if_pos rfl, closedPerm_empty rfl, cyclesPerm_append, cyclesPerm_singleton, List.formPerm_nil, mul_one]
    exact h.fwd k
  · simpa using h.seen k

theorem BuildingGroup.addSymbol {g : List Nat} (h : BuildingGroup s a gs g t) {i : Nat} (hi : i < s.alpha.n)
    (hn : i ∉ (gs ++ [g]).flatten) :
    ∃ u, Answers (.cycSym (s.alpha.symAt i)) t u 0 ∧ BuildingGroup s a gs (g ++ [i]) (u.reply (okWord 0)) := by
  have hunseen : t.seq.seenAt i = false := Bool.eq_false_iff.mpr (mt (h.seen i).mp hn)
  have hfix : t.seq.closedPerm.fwdAt i = i := (h.fwd i).trans (cyclesPerm_of_notMem hn)
  have hindex : IsIndexOf t.alpha (s.alpha.symAt i) i := by
    rw [← h.alpha] at hi ⊢
    exact isIndexOf_of_differ h.inv.symDiffer hi
  have hx := answers_cycSym h.inPerm hindex hunseen
  refine ⟨_, hx, .of_answers h.inv h.frame hx ?_ ?_ ?_ (fun k => ?_) (fun k => ?_), ?_, fun _ => ?_⟩
  · rw [addToGroup_mode, h.mode]
  · rw [addToGroup_inGroup, h.inGroup]
  · rw [addToGroup_target, h.target]
  · rw [if_pos rfl]
    rcases List.eq_nil_or_concat' g with rfl | ⟨l, p, rfl⟩
    · rw [closedPerm_addToGroup_first h.glen hfix, List.nil_append, cyclesPerm_first]
      exact h.fwd k
    · have hprev : t.seq.prev = p := by simpa using h.prev
      have hip : i ≠ t.seq.prev := fun e => hn (by simp [e, hprev])
      rw [closedPerm_addToGroup_next (by simp [h.glen]) hfix hip, hprev, cyclesPerm_snoc, Equiv.Perm.mul_apply]
      exact h.fwd _
  · rw [seenAt_addToGroup]
    split
    · next hk => simp [hk]
    · next hk => simpa [hk] using h.seen k
  · simp [h.glen]
  · simp

theorem BuildingGroup.closeGroup {g : List Nat} (h : BuildingGroup s a gs g t) :
    ∃ u, Answers .cycClose t u 0 ∧ Building s a (gs ++ [g]) false (u.reply (okWord 0)) := by
  have hx := answers_cycClose h.inPerm
  exact ⟨_, hx, .of_answers h.inv h.frame hx h.mode rfl h.target h.fwd h.seen⟩

/-- The symbols `l` of the open group. -/
theorem BuildingGroup.addSymbols {g l : List Nat} (h : BuildingGroup s a gs g t) (hl : ∀ i ∈ l, i < s.alpha.n)
    (hd : (gs ++ [g ++ l]).flatten.Nodup) :
    ∃ u, AllOk (l.map fun i => .cycSym (s.alpha.symAt i)) t u ∧ BuildingGroup s a gs (g ++ l) u := by
  induction l generalizing g t with
  | nil => exact ⟨t, rfl, by simpa using h⟩
  | cons i l ih =>
    have hsplit : (gs ++ [g ++ i :: l]).flatten = (gs ++ [g]).flatten ++ i :: l := by simp
    obtain ⟨-, -, hdisjoint⟩ := List.nodup_append'.mp (hsplit ▸ hd)
    have hn : i ∉ (gs ++ [g]).flatten := fun hmem => hdisjoint hmem (by simp)
    obtain ⟨v, hv, hb⟩ := h.addSymbol (hl i (by simp)) hn
    obtain ⟨u, hu, hb'⟩ := ih hb (fun k hk => hl k (by simp [hk])) (by simpa using hd)
    exact ⟨u, ⟨v, hv, hu⟩, by simpa using hb'⟩

/-- The commands of one group. -/
theorem Building.addGroup {g : List Nat} (h : Building s a gs false t) (hg : ∀ i ∈ g, i < s.alpha.n)
    (hd : (gs ++ [g]).flatten.Nodup) : ∃ u, AllOk (groupCommands s.alpha g) t u ∧ Building s a (gs ++ [g]) false u := by
  obtain ⟨v, hv, hopen⟩ := h.openGroup
  obtain ⟨w, hw, hsyms⟩ := hopen.addSymbols hg hd
  obtain ⟨u, hu, hclosed⟩ := hsyms.closeGroup
  exact ⟨_, allOk_append (allOk_append (allOk_single hv) hw) (allOk_single hu), hclosed⟩

/-- The commands of the groups `hs`, after those of `gs`. -/
theorem Building.addGroups {hs : List (List Nat)} (h : Building s a gs false t) (hlt : ∀ i ∈ hs.flatten, i < s.alpha.n)
    (hd : (gs ++ hs).flatten.Nodup) :
    ∃ u, AllOk (hs.flatMap (groupCommands s.alpha)) t u ∧ Building s a (gs ++ hs) false u := by
  induction hs generalizing gs t with
  | nil => exact ⟨t, rfl, by simpa using h⟩
  | cons g hs ih =>
    have hd' : ((gs ++ [g]) ++ hs).flatten.Nodup := by simpa using hd
    rw [List.flatten_append, List.nodup_append'] at hd'
    obtain ⟨hdg, -⟩ := hd'
    obtain ⟨v, hv, hb⟩ := h.addGroup (fun i hi => hlt i (by simp [hi])) hdg
    obtain ⟨u, hu, hb'⟩ := ih hb (fun i hi => hlt i (by simp [hi])) (by simpa using hd)
    exact ⟨u, allOk_append hv hu, by simpa using hb'⟩

end

theorem Perm.BijOn.invAt_of_fwdAt {n i j : Nat} {p : Perm} (h : p.BijOn n) (hi : i < n) (hj : p.fwdAt i = j) : p.invAt j = i := by
  obtain ⟨-, -, hback, -⟩ := h i hi
  rwa [hj] at hback

/-- Settles O57: `Building` holds after BLD_BEGIN and every group keeps it; the inverse table follows from the invariant. -/
theorem cycleNotationBuildsItsPermutation : Obligations.CycleNotationBuildsItsPermutation := by
  unfold Obligations.CycleNotationBuildsItsPermutation
  intro s a k gs hI hr hk hlt hd
  obtain ⟨-, ⟨-, hmax⟩, -⟩ := s.cfg.built
  obtain ⟨kind, -, hx⟩ := answers_bldBegin (a := a) (k := k) hr (hk.imp_right fun ⟨hc, hk3, hv⟩ => ⟨by omega, hk3, hc, hv⟩)
  obtain ⟨t, ht, hb⟩ := (Building.begin hI hx).addGroups hlt hd
  have hbij : t.seq.perm.BijOn s.alpha.n := by simpa [hb.inGroup, hb.alpha] using (hb.inv.staging hb.mode).bij
  have hfwd : ∀ i, t.seq.perm.fwdAt i = cyclesPerm gs i := hb.fwd
  refine ⟨t, ⟨_, hx, ht⟩, hb.frame, hb.mode, hb.target, hb.inGroup, fun g hg j hj => ?_, fun i hi hn => ?_⟩
  · have hnext := (hfwd _).trans (cyclesPerm_getD hd hg hj)
    have hmem : g.getD j 0 ∈ gs.flatten := List.mem_flatten.mpr ⟨g, hg, by simp [hj]⟩
    exact ⟨hnext, hbij.invAt_of_fwdAt (hlt _ hmem) hnext⟩
  · have hfix := (hfwd i).trans (cyclesPerm_of_notMem hn)
    exact ⟨hfix, hbij.invAt_of_fwdAt hi hfix⟩

end Sys2Proof.Machine
end

section
/-! The rotor commands (42_rotor.md): what each gives once it is legal; where it is not, `faults_of_not_legal` says so. -/

namespace Sys2Proof.Machine

-- The words of a command whose first operand is a target.

/-- A word of format T or TS. -/
theorem decode_of_target {i : Instr} {op a : Byte} {v : Half} (he : encode i = packWord op (field8 a.toNat) v)
    (hw : i.wellFormed = targetFits a.toNat) : decode (op ++ a ++ v) = .ok i :=
  decode_of_encode (by rw [he, field8_toNat]; rfl) (hw.trans (targetFits_toNat a))

/-- A word of format TX. -/
theorem decode_of_target_index {i : Instr} {op a : Byte} {v : Half}
    (he : encode i = packWord op (field8 a.toNat) (field16 (signed16 v)))
    (hw : i.wellFormed = (targetFits a.toNat && indexFits (signed16 v))) : decode (op ++ a ++ v) = .ok i := by
  refine decode_of_target (by rwa [field16_signed16] at he) ?_
  rw [hw, indexFits_signed16, Bool.and_true]

-- A rotor command past its two checks.

section
variable {i : Instr} {s : State} {a : Nat} {r : Result}
  (he : exec i s = if ¬s.ready then raise .badCommand s else if ¬s.isRotor a then raise .unknownRotor s else r)

include he

theorem exec_rotor (hr : Ready s) (ha : IsRotor s a) : exec i s = r :=
  (exec_of_check he (ready_iff.mpr hr)).trans (if_neg (not_not.mpr (isRotor_iff.mpr ha)))

theorem faults_rotor (hr : Ready s) (ha : ¬IsRotor s a) : Faults i s .unknownRotor :=
  (exec_of_check he (ready_iff.mpr hr)).trans (if_pos (mt isRotor_iff.mp ha))

end

/-- An answer that writes one catalog entry writes nothing else. -/
theorem Answers.writes_entry {i : Instr} {s : State} {a : Nat} {r : Rotor} {v : Half} (h : Answers i s (s.withRotor a r) v) :
    ∃ t, Answers i s t v ∧ t = { s with cat := t.cat } ∧ t.rotor a = r ∧ ∀ c, c ≠ a → t.rotor c = s.rotor c :=
  ⟨_, h, rfl, (rotor_withRotor ..).trans (if_pos rfl), fun _ hc => (rotor_withRotor ..).trans (if_neg hc)⟩

section
variable {s : State} {a : Nat}

-- Reading a rotor.

theorem answers_rotKind (hr : Ready s) (ha : IsRotor s a) : Answers (.rotKind a) s s (s.rotor a).kind.code :=
  exec_rotor rfl hr ha

theorem answers_rotGet (hr : Ready s) (ha : IsRotor s a) : Answers (.rotGet a) s s (valOfNat (s.rotor a).setting) :=
  exec_rotor rfl hr ha

theorem answers_rotAtnotch (hr : Ready s) (ha : IsRotor s a) : Answers (.rotAtnotch a) s s (valOfBool (s.rotor a).atNotch) :=
  exec_rotor rfl hr ha

-- ROT_SET_IDX.

theorem faults_rotSetIdx_range {x : Int} (hr : Ready s) (ha : IsRotor s a) (hx : x < 0 ∨ s.alpha.n ≤ x) :
    Faults (.rotSetIdx a x) s .outOfRange :=
  (exec_rotor rfl hr ha).trans (if_pos hx)

/-- A Reflector takes no setting but 0, in or out of the range. -/
theorem faults_rotSetIdx_reflector {x : Int} (hr : Ready s) (ha : IsRotor s a) (hk : (s.rotor a).kind = .reflector) (hx : x ≠ 0) :
    Faults (.rotSetIdx a x) s .outOfRange := by
  by_cases hrange : x < 0 ∨ s.alpha.n ≤ x
  · exact faults_rotSetIdx_range hr ha hrange
  · exact (exec_rotor rfl hr ha).trans <| (if_neg hrange).trans (if_pos ⟨hk, hx⟩)

theorem answers_rotSetIdx {x : Int} (hr : Ready s) (ha : IsRotor s a) (h0 : 0 ≤ x) (hn : x < s.alpha.n)
    (hk : (s.rotor a).kind = .reflector → x = 0) : Answers (.rotSetIdx a x) s (s.withSetting a x.toNat) 0 :=
  (exec_rotor rfl hr ha).trans <| (if_neg (by omega)).trans (if_neg fun ⟨href, hx⟩ => hx (hk href))

-- ROT_SET_SYM.

theorem faults_rotSetSym_absent {c : Sym} (hr : Ready s) (ha : IsRotor s a) (hc : ¬HasSym s.alpha c) :
    Faults (.rotSetSym a c) s .notInAlphabet :=
  (exec_rotor rfl hr ha).trans (onSymbol_of_not_hasSym hc)

theorem faults_rotSetSym_reflector {c : Sym} {i : Nat} (hr : Ready s) (ha : IsRotor s a) (hi : IsIndexOf s.alpha c i)
    (hk : (s.rotor a).kind = .reflector) (h0 : i ≠ 0) : Faults (.rotSetSym a c) s .outOfRange :=
  (exec_rotor rfl hr ha).trans <| (onSymbol_of_isIndexOf hi).trans (if_pos ⟨hk, h0⟩)

theorem answers_rotSetSym {c : Sym} {i : Nat} (hr : Ready s) (ha : IsRotor s a) (hi : IsIndexOf s.alpha c i)
    (hk : (s.rotor a).kind = .reflector → i = 0) : Answers (.rotSetSym a c) s (s.withSetting a i) 0 :=
  (exec_rotor rfl hr ha).trans <| (onSymbol_of_isIndexOf hi).trans (if_neg fun ⟨href, h0⟩ => h0 (hk href))

-- The contact shift and the advance.

theorem answers_rotFwd (hr : Ready s) (ha : IsRotor s a) (x : Int) :
    Answers (.rotFwd a x) s s (valOfNat ((s.rotor a).convertForward s.alpha.n x)) :=
  exec_rotor rfl hr ha

theorem answers_rotBwd (hr : Ready s) (ha : IsRotor s a) (x : Int) :
    Answers (.rotBwd a x) s s (valOfNat ((s.rotor a).convertBackward s.alpha.n x)) :=
  exec_rotor rfl hr ha

theorem answers_rotAdv (hr : Ready s) (ha : IsRotor s a) :
    Answers (.rotAdv a) s (s.withRotor a ((s.rotor a).advance s.alpha.n)) 0 :=
  exec_rotor rfl hr ha

end

/-- Every kind has its code in the kind field, which ROT_KIND answers. -/
theorem Kind.exists_field (kind : Kind) : ∃ k : BitVec 2, KindOf k kind ∧ kind.code = k.setWidth 16 := by
  cases kind with
  | reflector => exact ⟨0, .inl ⟨rfl, rfl⟩, rfl⟩
  | fixedRotor => exact ⟨1, .inr (.inl ⟨rfl, rfl⟩), rfl⟩
  | movingRotor => exact ⟨2, .inr (.inr ⟨rfl, rfl⟩), rfl⟩

/-- Settles O34: `Rotor.atNotch_iff` says which of its two answers ROT_ATNOTCH gives. -/
theorem rotorIsRead : Obligations.RotorIsRead := by
  unfold Obligations.RotorIsRead
  refine ⟨fun s a => ⟨fun hr ha => ?_, answers_rotGet, fun hr ha hk hnotch => ?_, fun hr ha hno => ?_,
    fun hr ha => ⟨faults_rotor rfl hr ha, faults_rotor rfl hr ha, faults_rotor rfl hr ha⟩,
    fun h => ⟨faults_of_not_legal h, faults_of_not_legal h, faults_of_not_legal h⟩⟩,
    fun a => ⟨decode_of_target rfl rfl, decode_of_target rfl rfl, decode_of_target rfl rfl⟩⟩
  · obtain ⟨k, hk, hcode⟩ := (s.rotor a).kind.exists_field
    exact ⟨k, hk, hcode ▸ answers_rotKind hr ha⟩
  · have hat : (s.rotor a).atNotch = true := Rotor.atNotch_iff.mpr ⟨hk, hnotch⟩
    simpa [valOfBool, hat] using answers_rotAtnotch hr ha
  · have hat : (s.rotor a).atNotch = false := by
      refine Bool.eq_false_iff.mpr fun hat => ?_
      obtain ⟨hk, hnotch⟩ := Rotor.atNotch_iff.mp hat
      exact hno.elim (fun hne => hne hk) (fun hoff => Bool.eq_false_iff.mp hoff hnotch)
    simpa [valOfBool, hat] using answers_rotAtnotch hr ha

/-- Settles O35: one lemma per outcome of ROT_SET_IDX. -/
theorem rotorIsSetByIndex : Obligations.RotorIsSetByIndex := by
  unfold Obligations.RotorIsSetByIndex
  exact ⟨fun s a x => ⟨fun hr ha h0 hn hk => (answers_rotSetIdx hr ha h0 hn hk).writes_entry, faults_rotSetIdx_range,
    faults_rotSetIdx_reflector, faults_rotor rfl, fun h => faults_of_not_legal h⟩, fun a v => decode_of_target_index rfl rfl⟩

/-- Settles O36: one lemma per outcome of ROT_SET_SYM. -/
theorem rotorIsSetBySymbol : Obligations.RotorIsSetBySymbol := by
  unfold Obligations.RotorIsSetBySymbol
  exact ⟨fun s a c => ⟨fun i hr ha hi hk => (answers_rotSetSym hr ha hi hk).writes_entry,
    fun i hr ha hi hk h0 => faults_rotSetSym_reflector hr ha hi hk h0, faults_rotSetSym_absent, faults_rotor rfl,
    fun h => faults_of_not_legal h⟩, fun a c => decode_of_target rfl rfl⟩

/-- Settles O37: the three reductions of the contact shift are `modN`, which is the floored modulus. -/
theorem contactShiftSurroundsTheWiring : Obligations.ContactShiftSurroundsTheWiring := by
  unfold Obligations.ContactShiftSurroundsTheWiring
  exact ⟨fun s a x => ⟨fun hr ha hn => ⟨modN (x + (s.rotor a).setting) s.alpha.n, isMod_modN _ hn,
      ⟨_, isMod_modN _ hn, answers_rotFwd hr ha x⟩, ⟨_, isMod_modN _ hn, answers_rotBwd hr ha x⟩⟩,
    fun hr ha => ⟨faults_rotor rfl hr ha, faults_rotor rfl hr ha⟩, fun h => ⟨faults_of_not_legal h, faults_of_not_legal h⟩⟩,
    fun a v => ⟨decode_of_target_index rfl rfl, decode_of_target_index rfl rfl⟩⟩

-- The advance.

theorem Rotor.advance_of_moving {r : Rotor} (hk : r.kind = .movingRotor) (n : Nat) :
    r.advance n = { r with setting := (r.setting + 1) % n } :=
  if_pos hk

theorem Rotor.advance_of_not_moving {r : Rotor} (hk : r.kind ≠ .movingRotor) (n : Nat) : r.advance n = r :=
  if_neg hk

/-- One position on, reduced: the last position goes to 0 (42_rotor.md R132). -/
theorem succ_mod_eq_wrap {k n : Nat} (h : k < n) : (k + 1) % n = if k + 1 = n then 0 else k + 1 := by
  split_ifs with hlast
  · rw [hlast, Nat.mod_self]
  · exact Nat.mod_eq_of_lt (by omega)

/-- Settles O38: the entry written is the advanced one, for a rotor that does not move the entry it was. -/
theorem rotorAdvancesOnePosition : Obligations.RotorAdvancesOnePosition := by
  unfold Obligations.RotorAdvancesOnePosition
  refine ⟨fun s a => ⟨fun hr ha hk hlt => ?_, fun hr ha hk => ?_, faults_rotor rfl, fun h => faults_of_not_legal h⟩,
    fun a => decode_of_target rfl rfl⟩
  · rw [← succ_mod_eq_wrap hlt, ← Rotor.advance_of_moving hk]
    exact (answers_rotAdv hr ha).writes_entry
  · obtain ⟨t, hx, hframe, hself, hother⟩ := (answers_rotAdv hr ha).writes_entry
    refine ⟨t, hx, hframe, fun c => ?_⟩
    by_cases hc : c = a
    · rw [hc, hself, Rotor.advance_of_not_moving hk]
    · exact hother c hc

/-- `m` advances of a moving rotor: `m` positions on, reduced. -/
theorem Rotor.iterate_advance {n : Nat} {r : Rotor} (hk : r.kind = .movingRotor) (hs : r.setting < n) (m : Nat) :
    (fun q : Rotor => q.advance n)^[m] r = { r with setting := (r.setting + m) % n } := by
  induction m with
  | zero => rw [Function.iterate_zero, id, Nat.add_zero, Nat.mod_eq_of_lt hs]
  | succ m ih =>
    rw [Function.iterate_succ_apply', ih]
    refine (Rotor.advance_of_moving (r := { r with setting := (r.setting + m) % n }) hk n).trans ?_
    rw [Nat.mod_add_mod, Nat.add_assoc]

/-- `n` advances return a rotor whose setting is below `n`. -/
theorem Rotor.iterate_advance_self {n : Nat} {r : Rotor} (hs : r.setting < n) :
    (fun q : Rotor => q.advance n)^[n] r = r := by
  by_cases hk : r.kind = .movingRotor
  · rw [Rotor.iterate_advance hk hs, Nat.add_mod_right, Nat.mod_eq_of_lt hs]
  · exact Function.iterate_fixed (f := fun q : Rotor => q.advance n) (Rotor.advance_of_not_moving hk n) n

-- The contact shift as a conjugation by the setting (42_rotor.md R141).

/-- Two maps of which one undoes the other below `n` still do so shifted by `c`. -/
theorem shift_undoes_shift {n : Nat} (hn : 1 ≤ n) {f g : Int → Nat} (hg : ∀ x, g (modN x n) = g x)
    (hgf : ∀ x, g (f x) = modN x n) (c x : Int) :
    modN ((g (modN ((f (x + c) : Int) - c) n + c) : Int) - c) n = modN x n := by
  have hinner : g (modN ((f (x + c) : Int) - c) n + c) = modN (x + c) n := by
    rw [← hg, modN_modN_add _ _ hn, sub_add_cancel, hg, hgf]
  rw [hinner, sub_eq_add_neg, modN_modN_add _ _ hn, add_neg_cancel_right]

theorem Perm.permute_modN {n : Nat} (p : Perm) (hn : 1 ≤ n) (x : Int) : p.permute n (modN x n) = p.permute n x :=
  congrArg p.fwdAt (modN_modN x hn)

theorem Perm.invert_modN {n : Nat} (p : Perm) (hn : 1 ≤ n) (x : Int) : p.invert n (modN x n) = p.invert n x :=
  congrArg p.invAt (modN_modN x hn)

theorem Perm.InvolutionOn.permute_permute {n : Nat} {p : Perm} (h : p.InvolutionOn n) (hb : p.BijOn n) (hn : 1 ≤ n) (x : Int) :
    p.permute n (p.permute n x) = modN x n := by
  rw [Perm.permute, modN_natCast (hb.permute_lt hn x)]
  exact h _ (modN_lt x hn)

theorem modN_sub_eq_iff {n y j : Nat} (hy : y < n) (hj : j < n) (c : Int) : modN (y - c) n = j ↔ y = modN (j + c) n := by
  have hn : 1 ≤ n := by omega
  constructor
  · rintro rfl
    rw [modN_modN_add _ _ hn, sub_add_cancel, modN_natCast hy]
  · rintro rfl
    rw [sub_eq_add_neg, modN_modN_add _ _ hn, add_neg_cancel_right, modN_natCast hj]

section
variable {n : Nat} {r : Rotor} (h : RotorOk n r)

include h

theorem RotorOk.one_le : 1 ≤ n := Nat.one_le_of_lt h.setting

theorem RotorOk.convertBackward_convertForward (x : Int) : r.convertBackward n (r.convertForward n x) = modN x n :=
  shift_undoes_shift h.one_le (r.wiring.invert_modN h.one_le) (h.wiring.invert_permute h.one_le) r.setting x

theorem RotorOk.convertForward_convertBackward (x : Int) : r.convertForward n (r.convertBackward n x) = modN x n :=
  shift_undoes_shift h.one_le (r.wiring.permute_modN h.one_le) (h.wiring.permute_invert h.one_le) r.setting x

theorem RotorOk.convertForward_convertForward (hinv : r.wiring.InvolutionOn n) (x : Int) :
    r.convertForward n (r.convertForward n x) = modN x n :=
  shift_undoes_shift h.one_le (r.wiring.permute_modN h.one_le) (hinv.permute_permute h.wiring h.one_le) r.setting x

/-- The shift fixes `i` exactly where the wiring fixes the contact that faces it. -/
theorem RotorOk.convertForward_fixes_iff {i : Nat} (hi : i < n) :
    r.convertForward n i = i ↔ r.wiring.fwdAt (modN (i + r.setting) n) = modN (i + r.setting) n :=
  modN_sub_eq_iff (h.wiring.permute_lt h.one_le _) hi r.setting

theorem RotorOk.exists_convertForward_fixes_iff :
    (∃ i < n, r.convertForward n i = i) ↔ ∃ k < n, r.wiring.fwdAt k = k := by
  constructor
  · rintro ⟨i, hi, hfix⟩
    exact ⟨_, modN_lt _ h.one_le, (h.convertForward_fixes_iff hi).mp hfix⟩
  · rintro ⟨k, hk, hfix⟩
    have hlt := modN_lt (k - r.setting) h.one_le
    have hface : k = modN (modN (k - r.setting) n + r.setting) n := (modN_sub_eq_iff hk hlt r.setting).mp rfl
    refine ⟨_, hlt, (h.convertForward_fixes_iff hlt).mpr ?_⟩
    rw [← hface, hfix]

end

/-- Settles O52: a defined rotor meets `RotorOk` by the invariant, and each clause is a fact about such a rotor. -/
theorem contactShiftsUndoEachOther : Obligations.ContactShiftsUndoEachOther := by
  unfold Obligations.ContactShiftsUndoEachOther
  rintro s c hI ⟨-, hvalid⟩
  have h := hI.rotors c hvalid
  refine ⟨fun x => ⟨h.convertBackward_convertForward x, h.convertForward_convertBackward x⟩,
    h.exists_convertForward_fixes_iff, fun hinv i hi => ?_, Rotor.iterate_advance_self h.setting⟩
  rw [h.convertForward_convertForward hinv, modN_natCast hi]

end Sys2Proof.Machine
end

section
/-! The machine configuration commands (43_machine_config.md): what each gives once it is legal; where it is not, `faults_of_not_legal`
says so. -/

namespace Sys2Proof.Machine

/-- A build has a slot (00_scope.md R10), so `R - 1` is one less than `R`. -/
theorem eq_slots_pred_iff (c : Config) (m : Nat) : m = c.slots - 1 ↔ m + 1 = c.slots := by
  obtain ⟨-, -, -, hpawls, hle⟩ := c.built
  omega

-- Opening a sequence and reading a slot.

theorem answers_insBegin {s : State} (hr : Ready s) : Answers .insBegin s (s.withSeq { s.seq with count := 0, mode := .ins }) 0 :=
  exec_of_check rfl (ready_iff.mpr hr)

theorem answers_setBegin {s : State} (hr : Ready s) (hi : s.inserted = true) :
    Answers .setBegin s (s.withSeq { s.seq with count := 0, mode := .set }) 0 :=
  exec_of_check rfl (readyInserted_iff.mpr ⟨hr, hi⟩)

/-- Settles O39: the two answers above, and the fault of a command that is not legal. -/
theorem listSequencesBegin : Obligations.ListSequencesBegin := by
  unfold Obligations.ListSequencesBegin
  refine ⟨fun s => ⟨answers_insBegin, fun h => faults_of_not_legal h, answers_setBegin, fun h => faults_of_not_legal h⟩, ?_, ?_⟩
  · exact decode_of_encode (by decide) rfl
  · exact decode_of_encode (by decide) rfl

theorem answers_slotGet {s : State} {a : Nat} (hr : Ready s) (hi : s.inserted = true) (ha : a < s.cfg.slots) :
    Answers (.slotGet a) s s (valOfNat (s.slotAt a)) :=
  (exec_of_check rfl (readyInserted_iff.mpr ⟨hr, hi⟩)).trans (if_neg (Nat.not_le.mpr ha))

theorem faults_slotGet {s : State} {a : Nat} (hr : Ready s) (hi : s.inserted = true) (ha : s.cfg.slots ≤ a) :
    Faults (.slotGet a) s .outOfRange :=
  (exec_of_check rfl (readyInserted_iff.mpr ⟨hr, hi⟩)).trans (if_pos ha)

/-- Settles O44: the answer and the fault above, and the fault of a command that is not legal. -/
theorem slotIsRead : Obligations.SlotIsRead := by
  unfold Obligations.SlotIsRead
  exact ⟨fun s a => ⟨answers_slotGet, faults_slotGet, fun h => faults_of_not_legal h⟩, fun a => decode_of_target rfl rfl⟩

-- Listing a name or a setting.

/-- An answer that pushes `v` writes the next element of the list and the count, and nothing else. -/
theorem Answers.writes_list {i : Instr} {s : State} {v : Nat} (h : Answers i s (s.withSeq (s.seq.push v)) 0) :
    ∃ t, Answers i s t 0 ∧ t = { s with seq := { s.seq with list := t.seq.list, count := s.seq.count + 1 } } ∧
      t.seq.listAt s.seq.count = v ∧ ∀ j, j ≠ s.seq.count → t.seq.listAt j = s.seq.listAt j :=
  ⟨_, h, rfl, (listAt_push ..).trans (if_pos rfl), fun _ hj => (listAt_push ..).trans (if_neg hj)⟩

section
variable {s : State} {a : Nat} (hm : s.seq.mode = .ins)

include hm

theorem faults_insName_count (hc : s.seq.count = s.cfg.slots) : Faults (.insName a) s .wrongSlotCount :=
  (exec_of_check rfl (inMode_iff.mpr hm)).trans (if_pos hc)

/-- INS_NAME past its check of the count. -/
theorem exec_insName (hc : s.seq.count ≠ s.cfg.slots) :
    exec (.insName a) s =
      if ¬s.isRotor a then raise .unknownRotor s
      else if s.seq.lists a then raise .duplicateRotor s
      else respond 0 (s.withSeq (s.seq.push a)) :=
  (exec_of_check rfl (inMode_iff.mpr hm)).trans (if_neg hc)

theorem faults_insName_unknown (hc : s.seq.count ≠ s.cfg.slots) (ha : ¬IsRotor s a) : Faults (.insName a) s .unknownRotor :=
  (exec_insName hm hc).trans (if_pos (mt isRotor_iff.mp ha))

theorem faults_insName_duplicate (hc : s.seq.count ≠ s.cfg.slots) (ha : IsRotor s a)
    (hl : ∃ j < s.seq.count, s.seq.listAt j = a) : Faults (.insName a) s .duplicateRotor :=
  (exec_insName hm hc).trans <| (if_neg (not_not.mpr (isRotor_iff.mpr ha))).trans (if_pos (lists_iff.mpr hl))

theorem answers_insName (hc : s.seq.count ≠ s.cfg.slots) (ha : IsRotor s a) (hl : ∀ j < s.seq.count, s.seq.listAt j ≠ a) :
    Answers (.insName a) s (s.withSeq (s.seq.push a)) 0 := by
  have hnew : ¬s.seq.lists a = true := fun h => by
    obtain ⟨j, hj, hja⟩ := lists_iff.mp h
    exact hl j hj hja
  exact (exec_insName hm hc).trans <| (if_neg (not_not.mpr (isRotor_iff.mpr ha))).trans (if_neg hnew)

end

/-- Settles O40: one lemma per outcome of INS_NAME. -/
theorem insertionTakesTheNextName : Obligations.InsertionTakesTheNextName := by
  unfold Obligations.InsertionTakesTheNextName
  exact ⟨fun s a => ⟨fun h => faults_of_not_legal h, faults_insName_count, faults_insName_unknown, faults_insName_duplicate,
    fun hm hc ha hl => (answers_insName hm hc ha hl).writes_list⟩, fun a => decode_of_target rfl rfl⟩

section
variable {s : State} {c : Sym} (hm : s.seq.mode = .set)

include hm

theorem faults_setSym_count (hc : s.seq.count + 1 = s.cfg.slots) : Faults (.setSym c) s .badSettingLength :=
  (exec_of_check rfl (inMode_iff.mpr hm)).trans (if_pos ((eq_slots_pred_iff ..).mpr hc))

theorem faults_setSym_absent (hc : s.seq.count + 1 ≠ s.cfg.slots) (hs : ¬HasSym s.alpha c) :
    Faults (.setSym c) s .notInAlphabet :=
  (exec_of_check rfl (inMode_iff.mpr hm)).trans <| (if_neg (mt (eq_slots_pred_iff ..).mp hc)).trans (onSymbol_of_not_hasSym hs)

/-- SET_SYM with room in the list and a symbol of the alphabet. -/
theorem exec_setSym {i : Nat} (hc : s.seq.count + 1 ≠ s.cfg.slots) (hi : IsIndexOf s.alpha c i) :
    exec (.setSym c) s =
      if (s.rotor (s.slotAt (s.seq.count + 1))).kind = .reflector ∧ i ≠ 0 then raise .outOfRange s
      else respond 0 (s.withSeq (s.seq.push i)) :=
  (exec_of_check rfl (inMode_iff.mpr hm)).trans <| (if_neg (mt (eq_slots_pred_iff ..).mp hc)).trans (onSymbol_of_isIndexOf hi)

theorem faults_setSym_reflector {i : Nat} (hc : s.seq.count + 1 ≠ s.cfg.slots) (hi : IsIndexOf s.alpha c i)
    (hk : (s.rotor (s.slotAt (s.seq.count + 1))).kind = .reflector) (h0 : i ≠ 0) : Faults (.setSym c) s .outOfRange :=
  (exec_setSym hm hc hi).trans (if_pos ⟨hk, h0⟩)

theorem answers_setSym {i : Nat} (hc : s.seq.count + 1 ≠ s.cfg.slots) (hi : IsIndexOf s.alpha c i)
    (hk : (s.rotor (s.slotAt (s.seq.count + 1))).kind = .reflector → i = 0) :
    Answers (.setSym c) s (s.withSeq (s.seq.push i)) 0 :=
  (exec_setSym hm hc hi).trans (if_neg fun ⟨href, h0⟩ => h0 (hk href))

end

/-- Settles O42: one lemma per outcome of SET_SYM. -/
theorem settingTakesTheNextSymbol : Obligations.SettingTakesTheNextSymbol := by
  unfold Obligations.SettingTakesTheNextSymbol
  exact ⟨fun s c => ⟨fun h => faults_of_not_legal h, faults_setSym_count, faults_setSym_absent,
    fun i hm hc hi hk h0 => faults_setSym_reflector hm hc hi hk h0,
    fun i hm hc hi hk => (answers_setSym hm hc hi hk).writes_list⟩, fun c => decode_of_encode rfl rfl⟩

-- The commits.

section
variable {s : State} (hm : s.seq.mode = .ins)

include hm

theorem faults_insEnd_count (hc : s.seq.count < s.cfg.slots) : Faults .insEnd s .wrongSlotCount :=
  (exec_of_check rfl (inMode_iff.mpr hm)).trans (if_pos hc)

theorem faults_insEnd_reflector (hc : s.cfg.slots ≤ s.seq.count)
    (hd : ¬(s.rotor (s.seq.listAt 0)).wiring.DerangedOn s.alpha.n) : Faults .insEnd s .reflectorNotDerangement :=
  (exec_of_check rfl (inMode_iff.mpr hm)).trans <| (if_neg (Nat.not_lt.mpr hc)).trans (if_pos (mt derangement_iff.mp hd))

theorem answers_insEnd (hc : s.cfg.slots ≤ s.seq.count) (hd : (s.rotor (s.seq.listAt 0)).wiring.DerangedOn s.alpha.n) :
    Answers .insEnd s ((s.withSlots (Table.copyTo numD s.seq.list s.cfg.slots s.slot)).withMode .idle) 0 :=
  (exec_of_check rfl (inMode_iff.mpr hm)).trans <| (if_neg (Nat.not_lt.mpr hc)).trans
    (if_neg (not_not.mpr (derangement_iff.mpr hd)))

end

/-- Settles O41: one lemma per outcome of INS_END; a copy of `R` elements leaves those of the list in the slots. -/
theorem insertionCommits : Obligations.InsertionCommits := by
  unfold Obligations.InsertionCommits
  refine ⟨fun s => ⟨fun h => faults_of_not_legal h, faults_insEnd_count, faults_insEnd_reflector, fun hm hc hd =>
    ⟨_, answers_insEnd hm hc hd, rfl, fun k hk => ?_⟩⟩, decode_of_encode (by decide) rfl⟩
  exact (Table.read_copyTo ..).trans (if_pos hk)

section
variable {s : State} (hm : s.seq.mode = .set)

include hm

theorem faults_setEnd (hc : s.seq.count + 1 < s.cfg.slots) : Faults .setEnd s .badSettingLength :=
  (exec_of_check rfl (inMode_iff.mpr hm)).trans (if_pos (by omega))

theorem answers_setEnd (hc : s.cfg.slots ≤ s.seq.count + 1) :
    Answers .setEnd s ((s.setSlots (s.cfg.slots - 1)).withMode .idle) 0 :=
  (exec_of_check rfl (inMode_iff.mpr hm)).trans (if_neg (by omega))

end

/-- The whole entry of slot `j + 1` after the settings commit: its setting alone is new. -/
theorem rotor_setSlots_slot {s : State} (hd : SlotsDiffer s) {j : Nat} (hj : j + 1 < s.cfg.slots) :
    (s.setSlots (s.cfg.slots - 1)).rotor (s.slotAt (j + 1)) = { s.rotor (s.slotAt (j + 1)) with setting := s.seq.listAt j } := by
  have hlower : ∀ i < s.cfg.slots - 1, ∀ k < s.cfg.slots - 1, s.slotAt (i + 1) = s.slotAt (k + 1) → i = k :=
    fun i hi k hk h => Nat.succ.inj (hd (i + 1) (by omega) (k + 1) (by omega) h)
  rw [rotor_setSlots_fields, setting_setSlots s _ hlower (by omega)]

/-- A rotor in none of the slots from 1 on keeps its entry over the settings commit. -/
theorem rotor_setSlots_of_no_slot {s : State} {c : Nat} (h : ∀ j, j + 1 < s.cfg.slots → s.slotAt (j + 1) ≠ c) :
    (s.setSlots (s.cfg.slots - 1)).rotor c = s.rotor c := by
  refine rotor_setSlots_ne s _ c fun k hk hle => ?_
  obtain ⟨j, rfl⟩ := Nat.exists_eq_add_of_le' hk
  exact h j (by omega)

/-- Settles O43: SET_END answers from the commit of all settings, which the two lemmas above read back. -/
theorem settingsCommitTogether : Obligations.SettingsCommitTogether := by
  unfold Obligations.SettingsCommitTogether
  refine ⟨fun s => ⟨fun h => faults_of_not_legal h, faults_setEnd, fun hm hc hd => ⟨_, answers_setEnd hm hc, ?_,
    fun j => rotor_setSlots_slot hd, fun c => rotor_setSlots_of_no_slot⟩⟩, decode_of_encode (by decide) rfl⟩
  rw [setSlots_eq]
  rfl

end Sys2Proof.Machine
end

section
/-! The stepping rule (44_stepping_fsm.md): what a keystroke leaves in each slot. -/

namespace Sys2Proof.Machine

section
variable {s : State} {k : Nat} (hd : SlotsDiffer s) (hk : k < s.cfg.slots)

include hd hk

theorem rotor_stepRotors_of_adv (ha : Adv s k) (hm : (s.slotRotor k).kind = .movingRotor) :
    s.stepRotors.rotor (s.slotAt k) = { s.slotRotor k with setting := ((s.slotRotor k).setting + 1) % s.alpha.n } := by
  rw [rotor_stepRotors_slot s hd hk, if_pos ((advances_iff hk).mpr ha), Rotor.advance_of_moving hm]

/-- A slot out of the advance set keeps its entry, and so does one in it whose rotor does not move (44_stepping_fsm.md R156). -/
theorem rotor_stepRotors_of_not_adv_or_not_moving (h : ¬Adv s k ∨ (s.slotRotor k).kind ≠ .movingRotor) :
    s.stepRotors.rotor (s.slotAt k) = s.slotRotor k := by
  rw [rotor_stepRotors_slot s hd hk]
  rcases h with ha | hm
  · exact if_neg (mt (advances_iff hk).mp ha)
  · rw [Rotor.advance_of_not_moving hm, ite_self]

end

/-- Settles O45: `rotor_stepRotors_slot` split by the advance set and the rotor's kind; a rotor in no slot is not written. -/
theorem steppingIsOneBatch : Obligations.SteppingIsOneBatch := by
  unfold Obligations.SteppingIsOneBatch
  exact fun s hd => ⟨rfl, fun _ => rotor_stepRotors_of_adv hd, fun _ => rotor_stepRotors_of_not_adv_or_not_moving hd,
    fun _ => rotor_stepRotors_ne s⟩

theorem answers_convIdx {s : State} {x : Int} (hr : Ready s) (hi : s.inserted = true) :
    Answers (.convIdx x) s s.stepRotors (valOfNat (s.stepRotors.path x)) :=
  exec_of_check rfl (readyInserted_iff.mpr ⟨hr, hi⟩)

/-- Slot 0 is eligible under no pawl count (44_stepping_fsm.md R153). -/
theorem not_adv_zero (s : State) : ¬Adv s 0 := fun ⟨⟨_, hpos⟩, _⟩ => lt_irrefl 0 hpos

-- The three ways into the advance set (44_stepping_fsm.md R155).

theorem Adv.of_rightmost {s : State} {k : Nat} (he : Elig s.cfg k) (hk : k + 1 = s.cfg.slots) : Adv s k :=
  ⟨he, .inl hk⟩

/-- At its own notch, with an eligible slot to its left: in both modes (44_stepping_fsm.md R157). -/
theorem Adv.of_own_notch {s : State} {k : Nat} (he : Elig s.cfg (k + 1)) (hleft : Elig s.cfg k) (hn : Notched s (k + 1)) :
    Adv s (k + 1) :=
  ⟨he, .inr (.inl ⟨hn, fun _ => ⟨Nat.succ_le_succ hleft.2, hleft⟩⟩)⟩

theorem Adv.of_right_notch {s : State} {k : Nat} (he : Elig s.cfg k) (hk : k + 1 < s.cfg.slots) (hn : Notched s (k + 1)) :
    Adv s k :=
  ⟨he, .inr (.inr ⟨hk, hn⟩)⟩

/-- The double step's advance set: slot 1 by the notch to its right, slot 2 by its own, slot 3 as the rightmost
(44_stepping_fsm.md R158). -/
theorem adv_of_middle_notch {s : State} (hs : s.cfg.slots = 4) (hp : s.cfg.pawls = 3) (hn : Notched s 2) {k : Nat} (h1 : 1 ≤ k)
    (h3 : k ≤ 3) : Adv s k := by
  have elig : ∀ j, 1 ≤ j → Elig s.cfg j := fun j hj => ⟨by omega, hj⟩
  obtain rfl | rfl | rfl : k = 1 ∨ k = 2 ∨ k = 3 := by omega
  · exact .of_right_notch (elig 1 (by decide)) (by omega) hn
  · exact .of_own_notch (elig 2 (by decide)) (elig 1 (by decide)) hn
  · exact .of_rightmost (elig 3 (by decide)) hs.symm

/-- Settles O53: CONV_IDX answers from the step, whose advance set is the three slots and not slot 0. -/
theorem doubleStepMovesThreeRotors : Obligations.DoubleStepMovesThreeRotors := by
  unfold Obligations.DoubleStepMovesThreeRotors
  intro s x hI hr hi hs hp hmoving _ hn _
  have hd : SlotsDiffer s := (hI.insertion hi).differ
  refine ⟨_, _, answers_convIdx hr hi, ?_, fun k h1 h3 => ?_⟩
  · exact rotor_stepRotors_of_not_adv_or_not_moving hd (by omega) (.inl (not_adv_zero s))
  · exact congrArg Rotor.setting
      (rotor_stepRotors_of_adv hd (by omega) (adv_of_middle_notch hs hp hn h1 h3) (hmoving k h1 h3))

end Sys2Proof.Machine
end

section
/-! The signal path (45_signal_path.md R160): its two loops, and the permutation of `[0, N)` they make. -/

namespace Sys2Proof.Machine

-- The two loops, step by step.

/-- The values one loop down goes through. -/
theorem pathDown_of_trace {s : State} {m : Nat} {y : Nat → Nat}
    (h : ∀ j < m, y (j + 1) = (s.slotRotor (m - 1 - j)).convertForward s.alpha.n (y j)) : s.pathDown m (y 0) = y m := by
  induction m generalizing y with
  | zero => rfl
  | succ m ih =>
    have hfirst : y 1 = (s.slotRotor m).convertForward s.alpha.n (y 0) := h 0 (by omega)
    rw [State.pathDown, ← hfirst]
    refine ih (y := fun j => y (j + 1)) fun j hj => ?_
    rw [h (j + 1) (by omega), show m + 1 - 1 - (j + 1) = m - 1 - j by omega]

/-- The values one loop up goes through. -/
theorem pathUp_of_trace {s : State} {m : Nat} {y : Nat → Nat}
    (h : ∀ j < m, y (j + 1) = (s.slotRotor (j + 1)).convertBackward s.alpha.n (y j)) : s.pathUp m (y 0) = y m := by
  induction m with
  | zero => rfl
  | succ m ih => rw [State.pathUp, ih fun j hj => h j (by omega), h m (by omega)]

/-- A build has a slot, so the loop up ends one slot short of the count the loop down starts from. -/
theorem slots_pred_add_one (c : Config) : c.slots - 1 + 1 = c.slots := (eq_slots_pred_iff c _).mp rfl

/-- Settles O46: the traces of the two loops one after the other; the last plugboard pass gives a value below N. -/
theorem signalPathIsTheTwoLoops : Obligations.SignalPathIsTheTwoLoops := by
  unfold Obligations.SignalPathIsTheTwoLoops
  refine ⟨fun s x y h0 hdown hup => ?_, fun s x hI hi => hI.plug.permute_lt (hI.sealedSize (hI.insertedSealed hi)) _⟩
  have hslots := slots_pred_add_one s.cfg
  have hturn : s.pathDown s.cfg.slots (y 0) = y s.cfg.slots := pathDown_of_trace hdown
  have hend : s.pathUp (s.cfg.slots - 1) (y s.cfg.slots) = y (s.cfg.slots + (s.cfg.slots - 1)) :=
    pathUp_of_trace (y := fun j => y (s.cfg.slots + j)) fun j hj => hup j (by omega)
  rw [State.path, State.core, ← h0, hturn, hend, show s.cfg.slots + (s.cfg.slots - 1) = 2 * s.cfg.slots - 1 by omega]

-- What the loops keep below N, and what they do not read.

section
variable {s : State} {y : Nat}

theorem pathDown_lt (hy : y < s.alpha.n) (m : Nat) : s.pathDown m y < s.alpha.n := by
  induction m generalizing y with
  | zero => exact hy
  | succ m ih => exact ih (modN_lt _ (by omega))

theorem pathUp_lt (hy : y < s.alpha.n) (m : Nat) : s.pathUp m y < s.alpha.n := by
  cases m with
  | zero => exact hy
  | succ m => exact modN_lt _ (by omega)

theorem core_lt (hy : y < s.alpha.n) : s.core y < s.alpha.n := pathUp_lt (pathDown_lt hy _) _

/-- The path of an index, without the reductions of the two plugboard passes. -/
theorem Inv.path_natCast (h : Inv s) (hy : y < s.alpha.n) : s.path y = s.plug.fwdAt (s.core (s.plug.fwdAt y)) := by
  have hin : s.plug.fwdAt y < s.alpha.n := (h.plug y hy).1
  rw [State.path, Perm.permute, Perm.permute, modN_natCast hy, modN_natCast (core_lt hin)]

end

theorem pathDown_withPlug (s : State) (p : Perm) (m y : Nat) : (s.withPlug p).pathDown m y = s.pathDown m y := by
  induction m generalizing y with
  | zero => rfl
  | succ m ih => exact ih _

theorem pathUp_withPlug (s : State) (p : Perm) (m y : Nat) : (s.withPlug p).pathUp m y = s.pathUp m y := by
  induction m with
  | zero => rfl
  | succ m ih => rw [State.pathUp, State.pathUp, ih]; rfl

theorem core_withPlug (s : State) (p : Perm) (y : Nat) : (s.withPlug p).core y = s.core y :=
  (pathUp_withPlug ..).trans (congrArg (s.pathUp _) (pathDown_withPlug ..))

/-- Settles O54: `core_withPlug`, and `Inv.path_natCast` with the plugboard's images written in. -/
theorem plugboardActsAtTheEndsOnly : Obligations.PlugboardActsAtTheEndsOnly := by
  unfold Obligations.PlugboardActsAtTheEndsOnly
  refine fun s hI _ => ⟨core_withPlug s, fun hid i hi => ?_, fun a _ b _ _ hab hba hfix i hi hia hib => ?_⟩
  · rw [hI.path_natCast hi, hid i hi, hid _ (core_lt hi)]
  · rw [hI.path_natCast hi, hfix i hi hia hib]
    split_ifs with ha hb
    · rw [ha, hab]
    · rw [hb, hba]
    · exact hfix _ (core_lt hi) ha hb

-- The path as a reciprocal substitution (45_signal_path.md R164).

/-- `f` swaps the numbers below `n` in pairs. -/
structure ReciprocalOn (n : Nat) (f : Nat → Nat) : Prop where
  lt : ∀ {y}, y < n → f y < n
  ne : ∀ {y}, y < n → f y ≠ y
  twice : ∀ {y}, y < n → f (f y) = y

/-- Entering by `g` and leaving by its inverse `k` keeps a substitution reciprocal. -/
theorem ReciprocalOn.conj {n : Nat} {f g k : Nat → Nat} (hf : ReciprocalOn n f) (hg : ∀ y < n, g y < n) (hk : ∀ y < n, k y < n)
    (hkg : ∀ y < n, k (g y) = y) (hgk : ∀ y < n, g (k y) = y) : ReciprocalOn n (fun y => k (f (g y))) where
  lt hy := hk _ (hf.lt (hg _ hy))
  ne {y} hy hfix := hf.ne (hg y hy) <| by rw [← hgk _ (hf.lt (hg y hy)), hfix]
  twice {y} hy := by
    rw [hgk _ (hf.lt (hg y hy)), hf.twice (hg y hy), hkg y hy]

theorem RotorOk.reciprocalOn_convertForward {n : Nat} {r : Rotor} (h : RotorOk n r) (hd : r.wiring.DerangedOn n)
    (hinv : r.wiring.InvolutionOn n) : ReciprocalOn n (fun y => r.convertForward n y) where
  lt _ := modN_lt _ h.one_le
  ne hy hfix := hd _ (modN_lt _ h.one_le) ((h.convertForward_fixes_iff hy).mp hfix)
  twice hy := (h.convertForward_convertForward hinv _).trans (modN_natCast hy)

theorem ReciprocalOn.conj_rotor {n : Nat} {r : Rotor} {f : Nat → Nat} (hf : ReciprocalOn n f) (h : RotorOk n r) :
    ReciprocalOn n (fun y => r.convertBackward n (f (r.convertForward n y))) :=
  hf.conj (g := fun y => r.convertForward n y) (k := fun y => r.convertBackward n y)
    (fun _ _ => modN_lt _ h.one_le) (fun _ _ => modN_lt _ h.one_le)
    (fun _ hy => (h.convertBackward_convertForward _).trans (modN_natCast hy))
    (fun _ hy => (h.convertForward_convertBackward _).trans (modN_natCast hy))

theorem ReciprocalOn.conj_perm {n : Nat} {p : Perm} {f : Nat → Nat} (hf : ReciprocalOn n f) (hn : 1 ≤ n) (h : p.BijOn n)
    (hinv : p.InvolutionOn n) : ReciprocalOn n (fun y => p.permute n (f (p.permute n y))) :=
  hf.conj (g := fun y => p.permute n y) (k := fun y => p.permute n y)
    (fun _ _ => h.permute_lt hn _) (fun _ _ => h.permute_lt hn _)
    (fun _ hy => (hinv.permute_permute h hn _).trans (modN_natCast hy))
    (fun _ hy => (hinv.permute_permute h hn _).trans (modN_natCast hy))

section
variable {s : State} (hI : Inv s) (hi : s.inserted = true) (hinv : (s.slotRotor 0).wiring.InvolutionOn s.alpha.n)

include hI hi

/-- An inserted rotor is a defined one (10_state.md R38 d). -/
theorem Inv.slotRotorOk {k : Nat} (hk : k < s.cfg.slots) : RotorOk s.alpha.n (s.slotRotor k) :=
  hI.rotors _ ((hI.insertion hi).valid k hk).2

include hinv

/-- Down from slot `m` to slot 0 and up again to slot `m`: slot 0 is the reflector, and each slot above it is passed once down and
once up, around what lies below it. -/
theorem reciprocalOn_pathUp_pathDown {m : Nat} (hm : m < s.cfg.slots) :
    ReciprocalOn s.alpha.n (fun y => s.pathUp m (s.pathDown (m + 1) y)) := by
  induction m with
  | zero => exact (hI.slotRotorOk hi hm).reciprocalOn_convertForward (hI.insertion hi).reflector hinv
  | succ m ih => exact (ih (by omega)).conj_rotor (hI.slotRotorOk hi hm)

theorem reciprocalOn_core : ReciprocalOn s.alpha.n s.core := by
  have hslots := slots_pred_add_one s.cfg
  have h := reciprocalOn_pathUp_pathDown hI hi hinv (m := s.cfg.slots - 1) (by omega)
  rwa [hslots] at h

theorem reciprocalOn_path (hplug : s.plug.InvolutionOn s.alpha.n) : ReciprocalOn s.alpha.n (fun y => s.path y) :=
  (reciprocalOn_core hI hi hinv).conj_perm (hI.sealedSize (hI.insertedSealed hi)) hI.plug hplug

end

/-- Settles O56: a keystroke from the same settings takes the same path, which is reciprocal after the step as it was before, for a
step writes no wiring. -/
theorem keystrokeIsSelfReciprocal : Obligations.KeystrokeIsSelfReciprocal := by
  unfold Obligations.KeystrokeIsSelfReciprocal
  intro s hI hr hi hinv hplug i hlt
  have hwiring : (s.stepRotors.slotRotor 0).wiring = (s.slotRotor 0).wiring := rotor_stepRotors_wiring s _
  have h : ReciprocalOn s.alpha.n (fun y => s.stepRotors.path y) :=
    reciprocalOn_path (hI.stepRotors hr hi) hi (hwiring ▸ hinv) hplug
  have hback : s.stepRotors.path (s.stepRotors.path i) = i := h.twice hlt
  have hanswer := answers_convIdx (x := s.stepRotors.path i) hr hi
  rw [hback] at hanswer
  exact ⟨s.stepRotors, s.stepRotors.path i, h.lt hlt, h.ne hlt, answers_convIdx hr hi, hanswer⟩

end Sys2Proof.Machine
end

section
/-! The keystroke commands (45_signal_path.md R161, R162): what each gives once it is legal; where it is not, `faults_of_not_legal` says
so. -/

namespace Sys2Proof.Machine

/-- An index enters the path by its reduction only (41_permutation_lookup.md R111). -/
theorem path_of_isMod {s : State} {x : Int} {k : Nat} (h : IsMod x s.alpha.n k) : s.path x = s.path k := by
  have hin : s.plug.permute s.alpha.n x = s.plug.permute s.alpha.n k := by
    rw [Perm.permute, Perm.permute, modN_eq h, modN_natCast h.1]
  rw [State.path, State.path, hin]

theorem exec_convIdx_of_isMod {s : State} {x : Int} {k : Nat} (h : IsMod x s.alpha.n k) :
    exec (.convIdx x) s = exec (.convIdx k) s := by
  have hpath : s.stepRotors.path x = s.stepRotors.path k := path_of_isMod h
  change execConvIdx x s = execConvIdx k s
  rw [execConvIdx, execConvIdx, hpath]

/-- Settles O47: the answer of CONV_IDX and the fault where it is not legal; `rotor_stepRotors_fields` says what the step writes. -/
theorem keystrokeByIndexStepsThenConverts : Obligations.KeystrokeByIndexStepsThenConverts := by
  unfold Obligations.KeystrokeByIndexStepsThenConverts
  refine ⟨fun s x => ⟨answers_convIdx, fun h => faults_of_not_legal h, fun k => exec_convIdx_of_isMod⟩,
    fun s => ⟨rfl, rotor_stepRotors_fields s⟩, fun v => ?_⟩
  exact decode_of_encode (by rw [encode, field16_signed16]; rfl) (indexFits_signed16 v)

section
variable {s : State} {c : Sym} (hr : Ready s) (hi : s.inserted = true)

include hr hi

theorem answers_convSym {i : Nat} (hc : IsIndexOf s.alpha c i) :
    Answers (.convSym c) s s.stepRotors (s.alpha.symAt (s.stepRotors.path i)) :=
  (exec_of_check rfl (readyInserted_iff.mpr ⟨hr, hi⟩)).trans (onSymbol_of_isIndexOf hc)

theorem faults_convSym_absent (hc : ¬HasSym s.alpha c) : Faults (.convSym c) s .symbolNotInAlphabet :=
  (exec_of_check rfl (readyInserted_iff.mpr ⟨hr, hi⟩)).trans (onSymbol_of_not_hasSym hc)

end

/-- Settles O48: one lemma per outcome of CONV_SYM; the fault entry is that of the state before the step. -/
theorem keystrokeBySymbolFailsBeforeStepping : Obligations.KeystrokeBySymbolFailsBeforeStepping := by
  unfold Obligations.KeystrokeBySymbolFailsBeforeStepping
  exact ⟨fun s c => ⟨fun i hr hi hc => answers_convSym hr hi hc, faults_convSym_absent, fun h => faults_of_not_legal h⟩,
    fun c => decode_of_encode rfl rfl⟩

/-- A keystroke that answers, whichever command it is and whatever it converts, leaves the stepped state. -/
theorem Answers.eq_stepRotors {i : Instr} {s u : State} {v : Half} (hi : (∃ x, i = .convIdx x) ∨ ∃ c, i = .convSym c)
    (h : Answers i s u v) : u = s.stepRotors := by
  have he := effect_of_answers h
  rcases hi with ⟨x, rfl⟩ | ⟨c, rfl⟩
  · obtain ⟨-, -, hu, -⟩ := he
    exact hu
  · obtain ⟨-, -, hu, -⟩ := he
    exact hu

/-- Settles O55: both keystrokes leave the stepped state, which is a function of the state before alone. -/
theorem steppingIgnoresTheInput : Obligations.SteppingIgnoresTheInput := by
  unfold Obligations.SteppingIgnoresTheInput
  intro s u u' v v' i j hi hj h h' c
  rw [h.eq_stepRotors hi, h'.eq_stepRotors hj]

end Sys2Proof.Machine
end

section
/-! STAT (46_system.md R170): its answer is `Fsr.statValue`, in every state; its word has no operand (30_encoding.md R73, R77). -/

namespace Sys2Proof

/-- A word without operands whose unused fields are not both 0 is rejected (30_encoding.md R77). -/
theorem formatZ_of_nonzero {a : Byte} {v : Half} (h : a ≠ 0 ∨ v ≠ 0) (i : Instr) :
    formatZ a v i = .error .unusedFieldNonZero :=
  if_neg (not_and_or.mpr h)

/-- The words with STAT's opcode are read in format Z (30_encoding.md R75). -/
theorem decode_statOpcode (a : Byte) (v : Half) : decode (packWord 0x01 a v) = formatZ a v .stat :=
  decode_packWord 0x01 a v

namespace Machine

theorem answers_stat (s : State) : Answers .stat s s s.fsr.statValue := rfl

/-- Settles O21: `Fsr.toNat_statValue` reads STAT's answer; its word decodes by format Z, which has no operand. -/
theorem statAnswersTheFaultRegister : Obligations.StatAnswersTheFaultRegister := by
  unfold Obligations.StatAnswersTheFaultRegister
  refine ⟨fun s => ⟨s.fsr.statValue, answers_stat s, s.fsr.toNat_statValue⟩, ?_, fun a v h => ?_⟩
  · exact decode_of_encode (by decide) rfl
  · exact (decode_statOpcode a v).trans (formatZ_of_nonzero h .stat)

end Machine
end Sys2Proof
end

section
/-! Reset, an empty inbox, and that nothing stops the block (70_reset_and_hazards.md R205, R211, R212); the fault entry and the fault
codes (60_exceptions.md R180, R194). -/

namespace Sys2Proof.Machine

-- The step, for what the host has sent.

theorem step_of_no_event {s : State} (hin : s.inbox = []) : step s = .next s := by
  simp only [step, State.nextEvent, hin]

theorem step_of_reset {s : State} {es : List HostEvent} (hin : s.inbox = .reset :: es) :
    step s = .next (s.withInbox es).assertReset := by
  simp only [step, State.nextEvent, hin]

/-- Every command is answered or takes a fault, and both give a next state (60_exceptions.md R195). -/
theorem exec_next (i : Instr) (s : State) : ∃ t, exec i s = .next t := by
  rcases exec_covers i s with ⟨f, hx⟩ | ⟨u, v, -, hx⟩
  · exact ⟨s.takeFault f, hx⟩
  · exact ⟨u.reply (okWord v), hx⟩

/-- Settles O7: `step_of_no_event`. -/
theorem stepWithoutAnEventHoldsTheState : Obligations.StepWithoutAnEventHoldsTheState := by
  unfold Obligations.StepWithoutAnEventHoldsTheState
  exact fun _ hin => step_of_no_event hin

/-- Settles O9: the state is `State.resetWith` of the same build but for the two channels, so R42's values are those of that state. -/
theorem stepTakesAReset : Obligations.StepTakesAReset := by
  unfold Obligations.StepTakesAReset
  intro s es hin
  obtain ⟨-, hvalues⟩ := resetLeavesTheSpecsValues s.cfg _ rfl
  exact ⟨(s.withInbox es).assertReset, step_of_reset hin, rfl, rfl, rfl, hvalues⟩

/-- Settles O10: by the host's next event and, for a command word, by what the decoder makes of it. -/
theorem everyStepAnswersANextState : Obligations.EveryStepAnswersANextState := by
  unfold Obligations.EveryStepAnswersANextState
  intro s
  rcases hin : s.inbox with _ | ⟨w | _, es⟩
  case nil => exact ⟨s, step_of_no_event hin⟩
  case cons.reset => exact ⟨_, step_of_reset hin⟩
  case cons.command =>
    cases hw : decode w with
    | ok i => rw [step_of_decode_ok hin hw]; exact exec_next i _
    | error r => exact ⟨_, step_of_decode_error hin hw⟩

-- The fault entry and the codes.

/-- A response with a non-zero status is a fault's, and the command did nothing but take that fault. -/
theorem exec_faulted {i : Instr} {s t : State} {w : Word} (h : exec i s = .next t) (ho : t.outbox = s.outbox ++ [w])
    (hw : opField w ≠ 0) : ∃ f : FaultCode, opField w = f.code ∧ t = s.takeFault f := by
  rcases exec_word h ho with ⟨f, ht, rfl⟩ | ⟨u, v, -, -, rfl⟩
  · exact ⟨f, opField_faultWord f, ht⟩
  · exact absurd (opField_okWord v) hw

/-- Settles O13: `exec_faulted`; the state the statement writes out is `State.takeFault`'s. -/
theorem faultChangesNothingElse : Obligations.FaultChangesNothingElse := by
  unfold Obligations.FaultChangesNothingElse
  exact fun _ _ _ _ h ho hw => exec_faulted h ho hw

theorem FaultCode.code_le (f : FaultCode) : f.code.toNat ≤ 0x0C := by cases f <;> decide

/-- Settles O12: the status of a response is 0 or a fault's code, and so is a fault register's code under the invariant. -/
theorem faultCodesAreTheTwelve : Obligations.FaultCodesAreTheTwelve := by
  unfold Obligations.FaultCodesAreTheTwelve
  refine ⟨by decide, fun i s t w h ho => ?_, fun s hI => ?_⟩
  · rcases exec_fsr h ho with ⟨hw, -⟩ | ⟨f, hw, -⟩
    · rw [hw]; decide
    · rw [hw]; exact f.code_le
  · rcases hI.fsr with ⟨-, hc⟩ | ⟨-, f, hc⟩
    · rw [hc]; decide
    · rw [hc]; exact f.code_le

end Sys2Proof.Machine
end
